-- ==== Sys2Proof/Config.lean ====
section
/-! DEFINITION. The implementation parameters of 00_scope.md R11, kept as named constants, and the two open
parameters ENV_FAIR and RT_TOL of 92_eei_decisions.md, which have no value here and enter no instruction's effect
(assumption log 21). No rule of the spec leaves a value of an instruction open, so no free value is needed. -/

namespace Sys2Proof.Config

/-- P_MAX: the largest transform size exponent (R9, R11). -/
abbrev pMax : Nat := 15

/-- N_MAX = 2^P_MAX: the depth of every length-N memory (R11). -/
abbrev nMax : Nat := 32768

/-- H_MAX = N_MAX / 2: the depth of every spectrum memory and of the twiddle ROMs (R11, 10_state.md R57). -/
abbrev hMax : Nat := 16384

/-- SAMPLE_W: the bits of a PCM sample (R11). -/
abbrev sampleW : Nat := 16

/-- DATA_W: the bits of a complex-series word (R11). -/
abbrev dataW : Nat := 48

/-- FRAC: the fraction bits of a complex-series word and of a spectrum word (R11). -/
abbrev frac : Nat := 16

/-- TW_W: the bits of a twiddle-ROM word (R11). -/
abbrev twW : Nat := 18

/-- SPEC_W: the bits of a spectrum word (R11). -/
abbrev specW : Nat := 48

/-- FREQ_W: the bits of a frequency word (R11). -/
abbrev freqW : Nat := 32

/-- RATE_W: the bits of the sample rate (R11). -/
abbrev rateW : Nat := 16

/-- BUS_W: the bits of host-bus data (R11). -/
abbrev busW : Nat := 64

/-- ADDR_W: the bits of a host-bus word address (R11). -/
abbrev addrW : Nat := 18

/-- CMD_W: the bits of a command word (R11). -/
abbrev cmdW : Nat := 32

/-- The UQ32.16 word of real value 1 (41_fft.md R173), also the factor between a sample and its RE word (R158). -/
abbrev one : Nat := 65536

/-- NOTES: the entries of the note table (R11). -/
abbrev notes : Nat := 36

/-- The largest value WP takes; it sticks there (40_fifo.md R132). -/
abbrev wpMax : Nat := 65535

/-- The constant of the register ID, ASCII "TUN1" (10_state.md R21). -/
abbrev idWord : BitVec 32 := 0x54554E31#32

/-- ENV_FAIR (92_eei_decisions.md, 93_implementation_defined.md U14): are the host and the producer fair? Open: no
value is chosen, and no step reads it. -/
opaque envFair : Bool

/-- RT_TOL (92_eei_decisions.md, 93_implementation_defined.md U15): the bound on the round-trip error of XFORM F and
then XFORM I, in sample steps. Open: no value is chosen, and no step reads it. -/
opaque rtTol : ℚ

end Sys2Proof.Config
end

