-- ==== Sys2Proof/Word.lean ====
section
/-! DEFINITION. The word types of TUNER-CORE, one for each width of 00_scope.md R11 and format of R13. -/

namespace Sys2Proof

/-- A PCM sample, S16 (R13). -/
abbrev Sample := BitVec Config.sampleW

/-- A word of the complex series RE, IM: Q31.16, signed (R13). -/
abbrev SeriesWord := BitVec Config.dataW

/-- A word of a spectrum: UQ32.16, unsigned (R13). -/
abbrev SpectrumWord := BitVec Config.specW

/-- A word of the bit-reversal table (10_state.md R54). -/
abbrev BrtWord := BitVec 15

/-- A word of the twiddle ROMs as it stands on the bus: Q1.16, signed (R13). -/
abbrev TwiddleWord := BitVec Config.twW

/-- A frequency: Q15.16, signed, in hertz (R13). -/
abbrev Freq := BitVec Config.freqW

/-- The sample rate: unsigned integer hertz (R11, 10_state.md R37). -/
abbrev Rate := BitVec Config.rateW

/-- A command word (30_encoding.md R100). -/
abbrev CommandWord := BitVec Config.cmdW

/-- A host-bus word address (20_memory.md R70). -/
abbrev Addr := BitVec Config.addrW

/-- Host-bus data (20_memory.md R70). -/
abbrev BusData := BitVec Config.busW

end Sys2Proof
end

