-- ==== Sys2Proof/Machine/State.lean ====
section
/-! DEFINITION. The state of TUNER-CORE as plain data (10_state.md R20), the outcomes' reason types, and the state
right after a hardware reset (R47, R60, 70_reset_and_hazards.md R310). -/

namespace Sys2Proof.Machine

/-- The values of SEQ_PC (10_state.md R31): the phase the engine executes at its next step of a RUN command. -/
inductive Phase where
  | idle | top
  | remA | popA | fftA | magA | ds2A | ds3A | hpsA | b2fA
  | remB | popB | fftB | magB | ds2B | ds3B | hpsB | b2fB
  | filt | emit
  deriving DecidableEq, Repr

/-- The event flags of EVT, bit 0 first (10_state.md R25). -/
inductive Event where
  | done | error | result | stopped | ovf | resOvr | pLenErr | pDrop | spectrum
  deriving DecidableEq, Repr

/-- The engine error codes (60_exceptions.md R271). -/
inductive ErrorCode where
  | cfgPower | cfgFactor | cfgWindow
  | argNegFreq | argNote | argLen | argDiv0 | argRange
  | cmdIllegal | cmdNotReady | cmdReinit
  deriving DecidableEq, Repr

/-- The registers, flags and hidden registers (10_state.md R21 to R46, R48), in the order of R47. ID is a
constant and STATUS and CTRL.SRST hold nothing of their own (R21, R22, R23). -/
structure Regs where
  /-- CTRL.STOP (R22). -/
  stop : Bool
  /-- READY (R32). -/
  ready : Bool
  /-- DET_READY (R33). -/
  detReady : Bool
  /-- BUSY (R34). -/
  busy : Bool
  /-- RUNNING (R34). -/
  running : Bool
  /-- PENDING (R35). -/
  pending : Bool
  /-- SEQ_PC (R31). -/
  seqPc : Phase
  /-- POWER (R32). -/
  power : BitVec 4
  /-- EVT (R25). -/
  evt : BitVec 9
  /-- IRQ_EN (R26). -/
  irqEn : BitVec 9
  /-- CMDREG, read at CMD (R27). -/
  cmdreg : CommandWord
  /-- ERR_CODE (R28). -/
  errCode : BitVec 8
  /-- ERR_INFO (R29). -/
  errInfo : BitVec 37
  /-- PWR_CFG (R36). -/
  pwrCfg : BitVec 8
  /-- SAMPLE_RATE (R37). -/
  sampleRate : Rate
  /-- MIN_HZ (R38). -/
  minHz : Freq
  /-- MAX_HZ (R39). -/
  maxHz : Freq
  /-- THRESH (R40). -/
  thresh : Freq
  /-- EPSILON (R41). -/
  epsilon : Freq
  /-- MIN_IDX (R42). -/
  minIdx : BitVec 16
  /-- MAX_IDX (R42). -/
  maxIdx : BitVec 16
  /-- ARG0 (R24). -/
  arg0 : BitVec 32
  /-- ARG1 (R24). -/
  arg1 : BitVec 32
  /-- ARG2 (R24). -/
  arg2 : BitVec 32
  /-- RES0 (R24). -/
  res0 : BitVec 32
  /-- RES1 (R24). -/
  res1 : BitVec 32
  /-- BLK_LEN (R43). -/
  blkLen : BitVec 16
  /-- F_A (R44). -/
  fA : Freq
  /-- F_B (R44). -/
  fB : Freq
  /-- HPS_IDX (R44). -/
  hpsIdx : BitVec 16
  /-- RES_NAME (R45). -/
  resName : BitVec 24
  /-- RES_IDX (R45). -/
  resIdx : BitVec 6
  /-- RES_FREQ (R45). -/
  resFreq : Freq
  /-- RES_DIR (R45). -/
  resDir : BitVec 2
  /-- RES_SEQ (R45). -/
  resSeq : BitVec 32
  /-- SPEC_SEQ (R46). -/
  specSeq : BitVec 32
  /-- DISC_CNT (R46). -/
  discCnt : BitVec 32
  /-- WP, hidden (R48). -/
  wp : BitVec 16
  /-- SLOT_LEN, hidden (R48). -/
  slotLen : BitVec 16
  deriving DecidableEq, Repr

/-- One memory of `w`-bit words, as a list of (index, word) pairs: the smallest unit the spec addresses is one
word (20_memory.md R71; assumption log 1). The canonical form is `Memory.wf`. -/
structure Memory (w : Nat) where
  cells : List (Nat × BitVec w)
  deriving DecidableEq, Repr

/-- A memory that lists nothing: every word reads as `Memory.unlisted` (assumption log 2). -/
def Memory.empty (w : Nat) : Memory w := ⟨[]⟩

/-- The memories (10_state.md R50 to R56). TWC, TWS and the note table are constants (R57, R58, R59). -/
structure Mems where
  /-- STG, the producer's staging memory (R50). -/
  stg : Memory Config.sampleW
  /-- SLOT, the FIFO's one slot (R51). -/
  slot : Memory Config.sampleW
  /-- BLK, the detector's current block (R52). -/
  blk : Memory Config.sampleW
  /-- RE (R53). -/
  re : Memory Config.dataW
  /-- IM (R53). -/
  im : Memory Config.dataW
  /-- BRT, the bit-reversal table (R54). -/
  brt : Memory 15
  /-- S1, the magnitude spectrum (R55). -/
  s1 : Memory Config.specW
  /-- S2, a downsampled copy (R55). -/
  s2 : Memory Config.specW
  /-- S3, a downsampled copy (R55). -/
  s3 : Memory Config.specW
  /-- RSPEC, the spectrum of the last result (R56). -/
  rspec : Memory Config.specW
  deriving DecidableEq, Repr

/-- One access of the host (20_memory.md R70). -/
inductive HostReq where
  | read (a : Addr)
  | write (a : Addr) (v : BusData)
  deriving DecidableEq, Repr

/-- The response to a host access: `err` is the ERROR response, `rdata` the data of a read (20_memory.md R70,
R72, R73). -/
structure BusResponse where
  err : Bool
  rdata : Option BusData
  deriving DecidableEq, Repr

/-- What the two ports' outputs show in the cycle of the step just taken (assumption log 7). -/
structure Ports where
  /-- p_err: 1 for the cycle of a COMMIT beat that sets EVT.P_LENERR and 0 otherwise (20_memory.md R85). -/
  pErr : Bool
  /-- The response of the host access made in this step, if the step was one. -/
  hResp : Option BusResponse
  deriving DecidableEq, Repr

/-- Outputs of a step that is neither a host access nor a failed COMMIT. -/
def Ports.quiet : Ports := { pErr := false, hResp := none }

/-- What happens next: a step of one of the three agents (60_exceptions.md R300), or an edge of the input rst
(70_reset_and_hazards.md R310). The falling edge brings the contents the memories come up with, which the spec
leaves unspecified (10_state.md R61; assumption log 3). -/
inductive Turn where
  | host
  | producer
  | engine
  | rstRise
  | rstFall (contents : Mems)
  deriving DecidableEq, Repr

/-- The model's record of the outside world (assumption log 4, 5, 8); no part of the spec's state (10_state.md
R59). -/
structure Env where
  /-- The interleaving still to come (20_memory.md R90); when it is used up the engine moves. -/
  turns : List Turn
  /-- The accesses the host has still to make, in the order it issues them. -/
  hostQ : List HostReq
  /-- The 17-bit beats the producer has still to present, in order. -/
  beats : List (BitVec 17)
  /-- The level of the input rst (R310). -/
  rst : Bool
  deriving DecidableEq, Repr

/-- The whole state: the block's registers and memories, its outputs, and the world outside. -/
structure State where
  regs : Regs
  mems : Mems
  ports : Ports
  env : Env
  deriving DecidableEq, Repr

/-- Why the machine stops with a fault. No instruction, host access or beat raises one: every error the spec
describes is a next state. -/
inductive Fault where
  /-- Raised by an engine step in a state with RUNNING = 1 and SEQ_PC = IDLE, which no run reaches: SEQ_PC is 0
  only while RUNNING = 0 (10_state.md R31) and the spec gives that phase no action (assumption log 10). Safe. -/
  | idlePhase
  deriving DecidableEq, Repr

/-- Why an instruction has no meaning. -/
inductive Refusal where
  /-- Raised by an arm of `exec` whose instruction has no meaning yet; no arm does so. Safe. -/
  | notModelled (mnemonic : String)
  deriving DecidableEq, Repr

/-- The reset values of the registers (10_state.md R47, R60). -/
def Regs.reset : Regs where
  stop := false
  ready := false
  detReady := false
  busy := false
  running := false
  pending := false
  seqPc := .idle
  power := 0#4
  evt := 0#9
  irqEn := 0#9
  cmdreg := 0#32
  errCode := 0x00#8
  errInfo := 0#37
  pwrCfg := 12#8
  sampleRate := 8000#16
  minHz := 0x00320000#32
  maxHz := 0x03DE0000#32
  thresh := 0x000A0000#32
  epsilon := 0x00010000#32
  minIdx := 0#16
  maxIdx := 0#16
  arg0 := 0#32
  arg1 := 0#32
  arg2 := 0#32
  res0 := 0#32
  res1 := 0#32
  blkLen := 0#16
  fA := 0#32
  fB := 0#32
  hpsIdx := 0#16
  resName := 0#24
  resIdx := 0#6
  resFreq := 0#32
  resDir := 0#2
  resSeq := 0#32
  specSeq := 0#32
  discCnt := 0#32
  wp := 0#16
  slotLen := 0#16

/-- Memories that list nothing. The spec leaves their contents after reset unspecified and unobservable (R61);
DESIGN CHOICE, unsafe: assumption log 2. -/
def Mems.empty : Mems where
  stg := Memory.empty Config.sampleW
  slot := Memory.empty Config.sampleW
  blk := Memory.empty Config.sampleW
  re := Memory.empty Config.dataW
  im := Memory.empty Config.dataW
  brt := Memory.empty 15
  s1 := Memory.empty Config.specW
  s2 := Memory.empty Config.specW
  s3 := Memory.empty Config.specW
  rspec := Memory.empty Config.specW

/-- The machine right after a hardware reset (R310), with nothing coming from outside (assumption log 4, 5). -/
def State.reset : State where
  regs := Regs.reset
  mems := Mems.empty
  ports := Ports.quiet
  env := { turns := [], hostQ := [], beats := [], rst := false }

end Sys2Proof.Machine
end

