-- ==== Sys2Proof/Machine/Flags.lean ====
section
/-! DEFINITION. The flags: the bits of EVT and how an event is set (10_state.md R25), the outputs irq and p_ready,
and the numbers of the error codes and of the phases (60_exceptions.md R271, 10_state.md R31). -/

namespace Sys2Proof.Machine

/-- The bit of EVT that an event sets (10_state.md R25). -/
def Event.bit : Event → Nat
  | .done => 0
  | .error => 1
  | .result => 2
  | .stopped => 3
  | .ovf => 4
  | .resOvr => 5
  | .pLenErr => 6
  | .pDrop => 7
  | .spectrum => 8

/-- The EVT word with only that flag set. -/
def Event.mask (e : Event) : BitVec 9 := BitVec.ofNat 9 (2 ^ e.bit)

/-- Is the flag 1? -/
def Regs.flag (r : Regs) (e : Event) : Bool := r.evt.getLsbD e.bit

/-- `EVT.<e> <- 1`: sticky, the other flags stay (10_state.md R25). -/
def State.setEvent (s : State) (e : Event) : State :=
  { s with regs := { s.regs with evt := s.regs.evt ||| e.mask } }

/-- `EVT.<e> <- 1` when the condition holds. -/
def State.setEventIf (s : State) (e : Event) (cond : Bool) : State := if cond then s.setEvent e else s

/-- `W1C EVT, m`: every flag with a 1 in `m` becomes 0, the others stay (44_control.md R264). -/
def State.clearEvents (s : State) (m : BitVec 9) : State :=
  { s with regs := { s.regs with evt := s.regs.evt &&& ~~~m } }

/-- The output irq: 1 when EVT and IRQ_EN share a set bit, 0 while rst = 1 (60_exceptions.md R286,
70_reset_and_hazards.md R310). -/
def State.irq (s : State) : Bool := !s.env.rst && decide (s.regs.evt &&& s.regs.irqEn ≠ 0#9)

/-- The output p_ready for a beat with the given p_last (40_fifo.md R131), 0 while rst = 1
(70_reset_and_hazards.md R310). -/
def State.pReady (s : State) (last : Bool) : Bool :=
  !s.env.rst &&
    (if s.regs.ready then
      (if last then !s.regs.pending || s.regs.stop else true)
    else s.regs.stop)

/-- The output h_ready: a host access is always accepted but while rst = 1 (60_exceptions.md R300,
70_reset_and_hazards.md R310). -/
def State.hReady (s : State) : Bool := !s.env.rst

/-- The number of an error code (60_exceptions.md R271). -/
def ErrorCode.number : ErrorCode → BitVec 8
  | .cfgPower => 0x11#8
  | .cfgFactor => 0x12#8
  | .cfgWindow => 0x13#8
  | .argNegFreq => 0x21#8
  | .argNote => 0x22#8
  | .argLen => 0x23#8
  | .argDiv0 => 0x24#8
  | .argRange => 0x25#8
  | .cmdIllegal => 0x31#8
  | .cmdNotReady => 0x32#8
  | .cmdReinit => 0x33#8

/-- The number of a phase, the value of the 5-bit register SEQ_PC (10_state.md R31). -/
def Phase.number : Phase → BitVec 5
  | .idle => 0#5
  | .top => 1#5
  | .remA => 2#5
  | .popA => 3#5
  | .fftA => 4#5
  | .magA => 5#5
  | .ds2A => 6#5
  | .ds3A => 7#5
  | .hpsA => 8#5
  | .b2fA => 9#5
  | .remB => 10#5
  | .popB => 11#5
  | .fftB => 12#5
  | .magB => 13#5
  | .ds2B => 14#5
  | .ds3B => 15#5
  | .hpsB => 16#5
  | .b2fB => 17#5
  | .filt => 18#5
  | .emit => 19#5

end Sys2Proof.Machine
end

