-- ==== Sys2Proof/Machine/Memory.lean ====
section
/-! DEFINITION. The named operations over one memory: reading a word, writing a word, writing the words 0 to n - 1
(00_scope.md R15, 10_state.md R49), and the canonical form each of them keeps. -/

namespace Sys2Proof.Machine

/-- What a word that the list does not hold reads as (assumption log 2). -/
def Memory.unlisted (w : Nat) : BitVec w := 0#w

/-- The word listed at index `i`, or what an unlisted index reads as. -/
def lookupCell {w : Nat} : List (Nat × BitVec w) → Nat → BitVec w
  | [], _ => Memory.unlisted w
  | (j, v) :: rest, i => if j = i then v else lookupCell rest i

/-- `MEM[i]` (R15). -/
def Memory.read {w : Nat} (m : Memory w) (i : Nat) : BitVec w := lookupCell m.cells i

/-- The cells that list a word: none when it is what an unlisted index reads as. -/
def listedCell {w : Nat} (i : Nat) (v : BitVec w) : List (Nat × BitVec w) :=
  if v = Memory.unlisted w then [] else [(i, v)]

/-- `MEM[i] <- v` (R15). -/
def Memory.write {w : Nat} (m : Memory w) (i : Nat) (v : BitVec w) : Memory w :=
  ⟨m.cells.filter (fun c => decide (c.1 < i)) ++ listedCell i v ++ m.cells.filter (fun c => decide (i < c.1))⟩

/-- `for i in 0..n-1: MEM[i] <- f i`, the shape of every array write of a command; the words at and above `n` stay. -/
def Memory.fill {w : Nat} (m : Memory w) (n : Nat) (f : Nat → BitVec w) : Memory w :=
  ⟨(List.range n).flatMap (fun i => listedCell i (f i)) ++ m.cells.filter (fun c => decide (n ≤ c.1))⟩

/-- The words 0 to n - 1, in order. -/
def Memory.words {w : Nat} (m : Memory w) (n : Nat) : List (BitVec w) := (List.range n).map m.read

/-- Every listed index is at least `lo`, indices strictly rise, and no cell lists the unlisted value. -/
def cellsWf {w : Nat} : Nat → List (Nat × BitVec w) → Bool
  | _, [] => true
  | lo, (j, v) :: rest => decide (lo ≤ j) && decide (v ≠ Memory.unlisted w) && cellsWf (j + 1) rest

/-- The canonical form of a memory: indices strictly rising, no entry equal to what an unlisted index reads as. -/
def Memory.wf {w : Nat} (m : Memory w) : Bool := cellsWf 0 m.cells

/-- Every listed index lies below the depth (10_state.md R49). -/
def Memory.within {w : Nat} (m : Memory w) (depth : Nat) : Bool := m.cells.all (fun c => decide (c.1 < depth))

/-- A memory of the given physical depth, in canonical form. -/
def Memory.wfAt {w : Nat} (m : Memory w) (depth : Nat) : Bool := m.wf && m.within depth

/-- All ten memories are canonical and within their depths (10_state.md R50 to R56). -/
def Mems.wf (ms : Mems) : Bool :=
  ms.stg.wfAt Config.nMax && ms.slot.wfAt Config.nMax && ms.blk.wfAt Config.nMax && ms.re.wfAt Config.nMax &&
    ms.im.wfAt Config.nMax && ms.brt.wfAt Config.nMax && ms.s1.wfAt Config.hMax && ms.s2.wfAt Config.hMax &&
    ms.s3.wfAt Config.hMax && ms.rspec.wfAt Config.hMax

end Sys2Proof.Machine
end

