-- ==== Sys2Proof/Machine/Operands.lean ====
section
/-! DEFINITION. How the commands read their operands: the transform size and spectrum length, and each register as
the signed or unsigned integer its rule names (00_scope.md R9, R15; 10_state.md R24, R30; 45_arithmetic.md R184). -/

namespace Sys2Proof.Machine

/-- N = 2^POWER (00_scope.md R9, 10_state.md R32). -/
def Regs.n (r : Regs) : Nat := 2 ^ r.power.toNat

/-- H = floor(N / 2) (00_scope.md R9, 10_state.md R32). -/
def Regs.h (r : Regs) : Nat := r.n / 2

/-- `sext_8(PWR_CFG)` (10_state.md R36). -/
def Regs.pwrSigned (r : Regs) : Int := r.pwrCfg.toInt

/-- SAMPLE_RATE, unsigned hertz (10_state.md R37). -/
def Regs.rate (r : Regs) : Nat := r.sampleRate.toNat

/-- `sext_32(MIN_HZ)` (10_state.md R38). -/
def Regs.minHzSigned (r : Regs) : Int := r.minHz.toInt

/-- `sext_32(MAX_HZ)` (10_state.md R39). -/
def Regs.maxHzSigned (r : Regs) : Int := r.maxHz.toInt

/-- `sext_32(THRESH)` (10_state.md R40). -/
def Regs.threshSigned (r : Regs) : Int := r.thresh.toInt

/-- `sext_32(EPSILON)` (10_state.md R41). -/
def Regs.epsilonSigned (r : Regs) : Int := r.epsilon.toInt

/-- ARG0 as an unsigned integer: the sample rate of B2F (10_state.md R24). -/
def Regs.arg0Unsigned (r : Regs) : Nat := r.arg0.toNat

/-- ARG1 as an unsigned integer: the number of bins of B2F (10_state.md R24). -/
def Regs.arg1Unsigned (r : Regs) : Nat := r.arg1.toNat

/-- ARG2 as an unsigned integer: the index of B2F (10_state.md R24). -/
def Regs.arg2Unsigned (r : Regs) : Nat := r.arg2.toNat

/-- ARG0 as a signed Q15.16 frequency: SSF, FNOTE (10_state.md R24). -/
def Regs.arg0Signed (r : Regs) : Int := r.arg0.toInt

/-- ARG1 as a signed Q15.16 frequency: SSF, TDIR (10_state.md R24). -/
def Regs.arg1Signed (r : Regs) : Int := r.arg1.toInt

/-- `BLK[i]` as the signed sample (10_state.md R52). -/
def Mems.blkAt (ms : Mems) (i : Nat) : Int := (ms.blk.read i).toInt

/-- `RE[i]` as the signed raw value (10_state.md R53). -/
def Mems.reAt (ms : Mems) (i : Nat) : Int := (ms.re.read i).toInt

/-- `IM[i]` as the signed raw value (10_state.md R53). -/
def Mems.imAt (ms : Mems) (i : Nat) : Int := (ms.im.read i).toInt

/-- `BRT[i]` (10_state.md R54). -/
def Mems.brtAt (ms : Mems) (i : Nat) : Nat := (ms.brt.read i).toNat

/-- `S1[i]` as the unsigned raw value (10_state.md R55). -/
def Mems.s1At (ms : Mems) (i : Nat) : Nat := (ms.s1.read i).toNat

/-- `S2[i]` as the unsigned raw value (10_state.md R55). -/
def Mems.s2At (ms : Mems) (i : Nat) : Nat := (ms.s2.read i).toNat

/-- `S3[i]` as the unsigned raw value (10_state.md R55). -/
def Mems.s3At (ms : Mems) (i : Nat) : Nat := (ms.s3.read i).toNat

/-- P(i) = S1[i] * S2[i] * S3[i], exact (42_hps_detector.md R204). -/
def Mems.hpsProduct (ms : Mems) (i : Nat) : Nat := ms.s1At i * ms.s2At i * ms.s3At i

end Sys2Proof.Machine
end

