-- ==== Sys2Proof/Machine/Ops.lean ====
section
/-! DEFINITION. The shared operations over registers: the error entry (the one exception the hardware has), normal
completion beside it, the sequencer's transfers, the FIFO's remove operation and the soft reset. -/

namespace Sys2Proof.Machine

/-- What every engine error records: ERR_CODE, ERR_INFO = {phase, CMDREG} and EVT.ERROR (60_exceptions.md R271,
R283, R284). -/
def State.recordError (s : State) (e : ErrorCode) (phase : Phase) : State :=
  { s with
    regs := { s.regs with
      errCode := e.number
      errInfo := phase.number ++ s.regs.cmdreg
      evt := s.regs.evt ||| Event.error.mask } }

/-- Error entry outside RUN, `raise Class(code)`: the error is recorded with phase 0 and the engine becomes idle;
nothing else changes (60_exceptions.md R283). -/
def State.raise (s : State) (e : ErrorCode) : State :=
  let r := s.recordError e .idle
  { r with regs := { r.regs with busy := false } }

/-- Normal completion, "end without error": `EVT.DONE <- 1 ; BUSY <- 0` (60_exceptions.md R282). -/
def State.finish (s : State) : State :=
  { s with regs := { s.regs with evt := s.regs.evt ||| Event.done.mask, busy := false } }

/-- `SEQ_PC <- phase` (00_scope.md R15). -/
def State.goTo (s : State) (p : Phase) : State := { s with regs := { s.regs with seqPc := p } }

/-- One more discarded cycle: DISC_CNT modulo 2^32, then TOP (42_hps_detector.md R217, R220). -/
def State.discardCycle (s : State) : State :=
  { s with regs := { s.regs with discCnt := s.regs.discCnt + 1#32, seqPc := .top } }

/-- Error entry inside RUN: the error is recorded with the phase it arose in and the cycle is discarded; BUSY and
RUNNING stay (60_exceptions.md R284). -/
def State.raiseInRun (s : State) (e : ErrorCode) : State := (s.recordError e s.regs.seqPc).discardCycle

/-- Exit of RUN (42_hps_detector.md R222). -/
def State.exitRun (s : State) : State :=
  { s with
    regs := { s.regs with
      running := false
      seqPc := .idle
      busy := false
      evt := s.regs.evt ||| Event.stopped.mask ||| Event.done.mask } }

/-- The remove operation (40_fifo.md R135): SLOT is copied to BLK, BLK_LEN takes SLOT_LEN, PENDING is cleared.
It is enabled only when PENDING = 1, which its callers test. -/
def State.removeBlock (s : State) : State :=
  { s with
    mems := { s.mems with blk := s.mems.blk.fill s.regs.slotLen.toNat s.mems.slot.read }
    regs := { s.regs with blkLen := s.regs.slotLen, pending := false } }

/-- The soft reset: every register and all hidden state at its reset value, the memories as they were
(44_control.md R263, 70_reset_and_hazards.md R311). -/
def State.softReset (s : State) : State := { s with regs := Regs.reset }

end Sys2Proof.Machine
end

