-- ==== Sys2Proof/Machine/Control.lean ====
section
/-! DEFINITION. The control family: NOP (44_control.md R260). -/

namespace Sys2Proof.Machine

/-- NOP ends without error and changes nothing else (44_control.md R260). -/
def execNop (s : State) : Host.Outcome State Fault Refusal := .next s.finish

end Sys2Proof.Machine
end

