-- ==== Sys2Proof/Machine/Arith.lean ====
section
/-! DEFINITION. The arithmetic primitives of 00_scope.md R14, on mathematical integers, and the functions on raw
values that several rules share. -/

namespace Sys2Proof.Machine

/-- `sext_W(v)`: the signed integer whose W-bit two's complement pattern is the low W bits of `v` (R14). -/
def sextInt (width : Nat) (v : Int) : Int :=
  let u := v % (2 ^ width : Nat)
  if u < (2 ^ (width - 1) : Nat) then u else u - (2 ^ width : Nat)

/-- `wrap48(v) = sext_48(v)` (R14). -/
def wrap48 (v : Int) : Int := sextInt Config.dataW v

/-- Does `v` lie in [-2^47, 2^47 - 1], the range of Q31.16 (R13, 41_fft.md R166)? -/
def fits48 (v : Int) : Bool := decide (-140737488355328 ≤ v) && decide (v ≤ 140737488355327)

/-- `rshr(v, n)`: the rounding arithmetic right shift, ties toward plus infinity (R14, 45_arithmetic.md R183).
Lean's `/` on Int rounds down for a positive divisor, as `floor` does. -/
def rshr (v : Int) (n : Nat) : Int :=
  if n = 0 then v else (v + (2 ^ (n - 1) : Nat)) / (2 ^ n : Nat)

/-- One bit of the square root after the other, highest first: `r` is the root found so far. -/
def isqrtBits : Nat → Nat → Nat → Nat
  | 0, _, r => r
  | b + 1, v, r => if (r + 2 ^ b) * (r + 2 ^ b) ≤ v then isqrtBits b v (r + 2 ^ b) else isqrtBits b v r

/-- `isqrt(v)`: the greatest r with r * r <= v (R14, 45_arithmetic.md R185). -/
def isqrt (v : Nat) : Nat := isqrtBits (Nat.log2 v / 2 + 1) v 0

/-- `bitrev_p(i)`: bit (p - 1 - b) of the result is bit b of `i` (R14). -/
def bitrev : Nat → Nat → Nat
  | 0, _ => 0
  | p + 1, i => i % 2 * 2 ^ p + bitrev p (i / 2)

/-- `bin2freq(fs, nb, idx)`: floor(idx * fs * 65536 / nb), for nb > 0 (41_fft.md R171). -/
def bin2freq (fs nb idx : Nat) : Nat := idx * fs * Config.one / nb

/-- Word i of `downsample(S, H, f)`, f >= 1 (41_fft.md R173): the mean of `f` consecutive words rounded down, and
the neutral value 1 from floor(H / f) on. -/
def downsampleAt (spectrum : Nat → Nat) (h f i : Nat) : Nat :=
  if i < h / f then ((List.range f).map (fun j => spectrum (i * f + j))).sum / f else Config.one

/-- One step of the search: a strictly larger product becomes the best so far (42_hps_detector.md R204). -/
def hpsBetter (product : Nat → Nat) (best : Nat × Nat) (i : Nat) : Nat × Nat :=
  if best.2 < product i then (i, product i) else best

/-- `hps_argmax`: the smallest index in [lo, hi) at which the product is largest (42_hps_detector.md R204). -/
def hpsArgmax (product : Nat → Nat) (lo hi : Nat) : Nat :=
  ((List.range' (lo + 1) (hi - (lo + 1))).foldl (hpsBetter product) (lo, product lo)).1

/-- `ss_filter(a, b, th)`: is abs(b - a) < th, and the average floor((a + b) / 2) (42_hps_detector.md R207). -/
def ssFilter (a b th : Int) : Bool × Int := (decide (((b - a).natAbs : Int) < th), (a + b) / 2)

end Sys2Proof.Machine
end

