-- ==== Sys2Proof/Machine/Twiddle.lean ====
section
/-! DEFINITION. The twiddle ROMs TWC and TWS (41_fft.md R160, R161; 10_state.md R57). The quarter wave TWC[0..8191]
is listed; TWC[8192] is 0 and the symmetries of R161 give every other entry of both tables. The listed integers
were computed from the cosine of R160 in 60-digit arithmetic; they have the checksums and the SHA-256 of R161
(assumption log 17). -/

namespace Sys2Proof.Machine

/-- TWC[0..511], 16 rows of 32 entries (R160). -/
def twcBlock00 : List (List Nat) := [
  [65536, 65536, 65536, 65536, 65536, 65536, 65536, 65536, 65536, 65536, 65536, 65536, 65536, 65536, 65536, 65536, 65536, 65536, 65536, 65536, 65536, 65535, 65535, 65535, 65535, 65535, 65535, 65535, 65535, 65535, 65535, 65535],
  [65535, 65535, 65535, 65535, 65534, 65534, 65534, 65534, 65534, 65534, 65534, 65534, 65534, 65534, 65533, 65533, 65533, 65533, 65533, 65533, 65533, 65533, 65532, 65532, 65532, 65532, 65532, 65532, 65532, 65532, 65531, 65531],
  [65531, 65531, 65531, 65531, 65530, 65530, 65530, 65530, 65530, 65530, 65529, 65529, 65529, 65529, 65529, 65528, 65528, 65528, 65528, 65528, 65527, 65527, 65527, 65527, 65527, 65526, 65526, 65526, 65526, 65526, 65525, 65525],
  [65525, 65525, 65524, 65524, 65524, 65524, 65523, 65523, 65523, 65523, 65522, 65522, 65522, 65522, 65521, 65521, 65521, 65521, 65520, 65520, 65520, 65520, 65519, 65519, 65519, 65518, 65518, 65518, 65517, 65517, 65517, 65517],
  [65516, 65516, 65516, 65515, 65515, 65515, 65514, 65514, 65514, 65513, 65513, 65513, 65512, 65512, 65512, 65511, 65511, 65511, 65510, 65510, 65510, 65509, 65509, 65509, 65508, 65508, 65507, 65507, 65507, 65506, 65506, 65506],
  [65505, 65505, 65504, 65504, 65504, 65503, 65503, 65502, 65502, 65502, 65501, 65501, 65500, 65500, 65500, 65499, 65499, 65498, 65498, 65497, 65497, 65497, 65496, 65496, 65495, 65495, 65494, 65494, 65493, 65493, 65493, 65492],
  [65492, 65491, 65491, 65490, 65490, 65489, 65489, 65488, 65488, 65487, 65487, 65486, 65486, 65485, 65485, 65484, 65484, 65483, 65483, 65482, 65482, 65481, 65481, 65480, 65480, 65479, 65479, 65478, 65478, 65477, 65477, 65476],
  [65476, 65475, 65474, 65474, 65473, 65473, 65472, 65472, 65471, 65471, 65470, 65469, 65469, 65468, 65468, 65467, 65467, 65466, 65465, 65465, 65464, 65464, 65463, 65463, 65462, 65461, 65461, 65460, 65460, 65459, 65458, 65458],
  [65457, 65456, 65456, 65455, 65455, 65454, 65453, 65453, 65452, 65451, 65451, 65450, 65449, 65449, 65448, 65448, 65447, 65446, 65446, 65445, 65444, 65444, 65443, 65442, 65442, 65441, 65440, 65440, 65439, 65438, 65437, 65437],
  [65436, 65435, 65435, 65434, 65433, 65433, 65432, 65431, 65430, 65430, 65429, 65428, 65428, 65427, 65426, 65425, 65425, 65424, 65423, 65422, 65422, 65421, 65420, 65420, 65419, 65418, 65417, 65416, 65416, 65415, 65414, 65413],
  [65413, 65412, 65411, 65410, 65410, 65409, 65408, 65407, 65406, 65406, 65405, 65404, 65403, 65402, 65402, 65401, 65400, 65399, 65398, 65398, 65397, 65396, 65395, 65394, 65393, 65393, 65392, 65391, 65390, 65389, 65388, 65388],
  [65387, 65386, 65385, 65384, 65383, 65383, 65382, 65381, 65380, 65379, 65378, 65377, 65376, 65376, 65375, 65374, 65373, 65372, 65371, 65370, 65369, 65368, 65368, 65367, 65366, 65365, 65364, 65363, 65362, 65361, 65360, 65359],
  [65358, 65358, 65357, 65356, 65355, 65354, 65353, 65352, 65351, 65350, 65349, 65348, 65347, 65346, 65345, 65344, 65343, 65342, 65341, 65340, 65339, 65338, 65338, 65337, 65336, 65335, 65334, 65333, 65332, 65331, 65330, 65329],
  [65328, 65327, 65326, 65325, 65324, 65323, 65322, 65321, 65320, 65319, 65317, 65316, 65315, 65314, 65313, 65312, 65311, 65310, 65309, 65308, 65307, 65306, 65305, 65304, 65303, 65302, 65301, 65300, 65299, 65298, 65296, 65295],
  [65294, 65293, 65292, 65291, 65290, 65289, 65288, 65287, 65286, 65285, 65283, 65282, 65281, 65280, 65279, 65278, 65277, 65276, 65275, 65273, 65272, 65271, 65270, 65269, 65268, 65267, 65265, 65264, 65263, 65262, 65261, 65260],
  [65259, 65257, 65256, 65255, 65254, 65253, 65252, 65250, 65249, 65248, 65247, 65246, 65245, 65243, 65242, 65241, 65240, 65239, 65237, 65236, 65235, 65234, 65233, 65231, 65230, 65229, 65228, 65227, 65225, 65224, 65223, 65222]]

/-- TWC[512..1023], 16 rows of 32 entries (R160). -/
def twcBlock01 : List (List Nat) := [
  [65220, 65219, 65218, 65217, 65215, 65214, 65213, 65212, 65210, 65209, 65208, 65207, 65205, 65204, 65203, 65202, 65200, 65199, 65198, 65197, 65195, 65194, 65193, 65191, 65190, 65189, 65188, 65186, 65185, 65184, 65182, 65181],
  [65180, 65178, 65177, 65176, 65175, 65173, 65172, 65171, 65169, 65168, 65167, 65165, 65164, 65163, 65161, 65160, 65159, 65157, 65156, 65154, 65153, 65152, 65150, 65149, 65148, 65146, 65145, 65144, 65142, 65141, 65139, 65138],
  [65137, 65135, 65134, 65133, 65131, 65130, 65128, 65127, 65126, 65124, 65123, 65121, 65120, 65118, 65117, 65116, 65114, 65113, 65111, 65110, 65109, 65107, 65106, 65104, 65103, 65101, 65100, 65098, 65097, 65096, 65094, 65093],
  [65091, 65090, 65088, 65087, 65085, 65084, 65082, 65081, 65079, 65078, 65076, 65075, 65073, 65072, 65070, 65069, 65067, 65066, 65064, 65063, 65061, 65060, 65058, 65057, 65055, 65054, 65052, 65051, 65049, 65048, 65046, 65045],
  [65043, 65042, 65040, 65039, 65037, 65035, 65034, 65032, 65031, 65029, 65028, 65026, 65025, 65023, 65021, 65020, 65018, 65017, 65015, 65013, 65012, 65010, 65009, 65007, 65006, 65004, 65002, 65001, 64999, 64998, 64996, 64994],
  [64993, 64991, 64989, 64988, 64986, 64985, 64983, 64981, 64980, 64978, 64976, 64975, 64973, 64971, 64970, 64968, 64967, 64965, 64963, 64962, 64960, 64958, 64957, 64955, 64953, 64952, 64950, 64948, 64947, 64945, 64943, 64941],
  [64940, 64938, 64936, 64935, 64933, 64931, 64930, 64928, 64926, 64924, 64923, 64921, 64919, 64918, 64916, 64914, 64912, 64911, 64909, 64907, 64905, 64904, 64902, 64900, 64899, 64897, 64895, 64893, 64892, 64890, 64888, 64886],
  [64884, 64883, 64881, 64879, 64877, 64876, 64874, 64872, 64870, 64868, 64867, 64865, 64863, 64861, 64859, 64858, 64856, 64854, 64852, 64850, 64849, 64847, 64845, 64843, 64841, 64840, 64838, 64836, 64834, 64832, 64830, 64829],
  [64827, 64825, 64823, 64821, 64819, 64817, 64816, 64814, 64812, 64810, 64808, 64806, 64804, 64803, 64801, 64799, 64797, 64795, 64793, 64791, 64789, 64787, 64786, 64784, 64782, 64780, 64778, 64776, 64774, 64772, 64770, 64768],
  [64766, 64765, 64763, 64761, 64759, 64757, 64755, 64753, 64751, 64749, 64747, 64745, 64743, 64741, 64739, 64737, 64735, 64733, 64732, 64730, 64728, 64726, 64724, 64722, 64720, 64718, 64716, 64714, 64712, 64710, 64708, 64706],
  [64704, 64702, 64700, 64698, 64696, 64694, 64692, 64690, 64688, 64686, 64684, 64682, 64680, 64678, 64676, 64674, 64672, 64670, 64667, 64665, 64663, 64661, 64659, 64657, 64655, 64653, 64651, 64649, 64647, 64645, 64643, 64641],
  [64639, 64637, 64635, 64632, 64630, 64628, 64626, 64624, 64622, 64620, 64618, 64616, 64614, 64612, 64609, 64607, 64605, 64603, 64601, 64599, 64597, 64595, 64593, 64590, 64588, 64586, 64584, 64582, 64580, 64578, 64575, 64573],
  [64571, 64569, 64567, 64565, 64563, 64560, 64558, 64556, 64554, 64552, 64550, 64547, 64545, 64543, 64541, 64539, 64536, 64534, 64532, 64530, 64528, 64526, 64523, 64521, 64519, 64517, 64514, 64512, 64510, 64508, 64506, 64503],
  [64501, 64499, 64497, 64495, 64492, 64490, 64488, 64486, 64483, 64481, 64479, 64477, 64474, 64472, 64470, 64468, 64465, 64463, 64461, 64459, 64456, 64454, 64452, 64449, 64447, 64445, 64443, 64440, 64438, 64436, 64433, 64431],
  [64429, 64426, 64424, 64422, 64420, 64417, 64415, 64413, 64410, 64408, 64406, 64403, 64401, 64399, 64396, 64394, 64392, 64389, 64387, 64385, 64382, 64380, 64378, 64375, 64373, 64371, 64368, 64366, 64363, 64361, 64359, 64356],
  [64354, 64352, 64349, 64347, 64344, 64342, 64340, 64337, 64335, 64333, 64330, 64328, 64325, 64323, 64320, 64318, 64316, 64313, 64311, 64308, 64306, 64304, 64301, 64299, 64296, 64294, 64291, 64289, 64287, 64284, 64282, 64279]]

/-- TWC[1024..1535], 16 rows of 32 entries (R160). -/
def twcBlock02 : List (List Nat) := [
  [64277, 64274, 64272, 64269, 64267, 64264, 64262, 64260, 64257, 64255, 64252, 64250, 64247, 64245, 64242, 64240, 64237, 64235, 64232, 64230, 64227, 64225, 64222, 64220, 64217, 64215, 64212, 64210, 64207, 64205, 64202, 64200],
  [64197, 64195, 64192, 64189, 64187, 64184, 64182, 64179, 64177, 64174, 64172, 64169, 64167, 64164, 64161, 64159, 64156, 64154, 64151, 64149, 64146, 64143, 64141, 64138, 64136, 64133, 64131, 64128, 64125, 64123, 64120, 64118],
  [64115, 64112, 64110, 64107, 64105, 64102, 64099, 64097, 64094, 64091, 64089, 64086, 64084, 64081, 64078, 64076, 64073, 64070, 64068, 64065, 64062, 64060, 64057, 64055, 64052, 64049, 64047, 64044, 64041, 64039, 64036, 64033],
  [64031, 64028, 64025, 64022, 64020, 64017, 64014, 64012, 64009, 64006, 64004, 64001, 63998, 63996, 63993, 63990, 63987, 63985, 63982, 63979, 63976, 63974, 63971, 63968, 63966, 63963, 63960, 63957, 63955, 63952, 63949, 63946],
  [63944, 63941, 63938, 63935, 63933, 63930, 63927, 63924, 63922, 63919, 63916, 63913, 63910, 63908, 63905, 63902, 63899, 63896, 63894, 63891, 63888, 63885, 63882, 63880, 63877, 63874, 63871, 63868, 63866, 63863, 63860, 63857],
  [63854, 63851, 63849, 63846, 63843, 63840, 63837, 63834, 63832, 63829, 63826, 63823, 63820, 63817, 63814, 63812, 63809, 63806, 63803, 63800, 63797, 63794, 63792, 63789, 63786, 63783, 63780, 63777, 63774, 63771, 63768, 63765],
  [63763, 63760, 63757, 63754, 63751, 63748, 63745, 63742, 63739, 63736, 63733, 63731, 63728, 63725, 63722, 63719, 63716, 63713, 63710, 63707, 63704, 63701, 63698, 63695, 63692, 63689, 63686, 63683, 63680, 63677, 63674, 63671],
  [63668, 63665, 63663, 63660, 63657, 63654, 63651, 63648, 63645, 63642, 63639, 63636, 63633, 63630, 63627, 63624, 63621, 63618, 63614, 63611, 63608, 63605, 63602, 63599, 63596, 63593, 63590, 63587, 63584, 63581, 63578, 63575],
  [63572, 63569, 63566, 63563, 63560, 63557, 63554, 63551, 63547, 63544, 63541, 63538, 63535, 63532, 63529, 63526, 63523, 63520, 63517, 63514, 63510, 63507, 63504, 63501, 63498, 63495, 63492, 63489, 63486, 63482, 63479, 63476],
  [63473, 63470, 63467, 63464, 63461, 63457, 63454, 63451, 63448, 63445, 63442, 63439, 63435, 63432, 63429, 63426, 63423, 63420, 63416, 63413, 63410, 63407, 63404, 63401, 63397, 63394, 63391, 63388, 63385, 63381, 63378, 63375],
  [63372, 63369, 63365, 63362, 63359, 63356, 63353, 63349, 63346, 63343, 63340, 63336, 63333, 63330, 63327, 63323, 63320, 63317, 63314, 63310, 63307, 63304, 63301, 63297, 63294, 63291, 63288, 63284, 63281, 63278, 63275, 63271],
  [63268, 63265, 63262, 63258, 63255, 63252, 63248, 63245, 63242, 63239, 63235, 63232, 63229, 63225, 63222, 63219, 63215, 63212, 63209, 63205, 63202, 63199, 63195, 63192, 63189, 63185, 63182, 63179, 63175, 63172, 63169, 63165],
  [63162, 63159, 63155, 63152, 63149, 63145, 63142, 63139, 63135, 63132, 63128, 63125, 63122, 63118, 63115, 63111, 63108, 63105, 63101, 63098, 63095, 63091, 63088, 63084, 63081, 63078, 63074, 63071, 63067, 63064, 63060, 63057],
  [63054, 63050, 63047, 63043, 63040, 63036, 63033, 63030, 63026, 63023, 63019, 63016, 63012, 63009, 63005, 63002, 62998, 62995, 62992, 62988, 62985, 62981, 62978, 62974, 62971, 62967, 62964, 62960, 62957, 62953, 62950, 62946],
  [62943, 62939, 62936, 62932, 62929, 62925, 62922, 62918, 62915, 62911, 62908, 62904, 62901, 62897, 62894, 62890, 62886, 62883, 62879, 62876, 62872, 62869, 62865, 62862, 62858, 62855, 62851, 62847, 62844, 62840, 62837, 62833],
  [62830, 62826, 62822, 62819, 62815, 62812, 62808, 62805, 62801, 62797, 62794, 62790, 62787, 62783, 62779, 62776, 62772, 62768, 62765, 62761, 62758, 62754, 62750, 62747, 62743, 62740, 62736, 62732, 62729, 62725, 62721, 62718]]

/-- TWC[1536..2047], 16 rows of 32 entries (R160). -/
def twcBlock03 : List (List Nat) := [
  [62714, 62710, 62707, 62703, 62699, 62696, 62692, 62688, 62685, 62681, 62677, 62674, 62670, 62666, 62663, 62659, 62655, 62652, 62648, 62644, 62641, 62637, 62633, 62630, 62626, 62622, 62618, 62615, 62611, 62607, 62604, 62600],
  [62596, 62592, 62589, 62585, 62581, 62577, 62574, 62570, 62566, 62563, 62559, 62555, 62551, 62548, 62544, 62540, 62536, 62533, 62529, 62525, 62521, 62517, 62514, 62510, 62506, 62502, 62499, 62495, 62491, 62487, 62483, 62480],
  [62476, 62472, 62468, 62464, 62461, 62457, 62453, 62449, 62445, 62442, 62438, 62434, 62430, 62426, 62423, 62419, 62415, 62411, 62407, 62403, 62400, 62396, 62392, 62388, 62384, 62380, 62376, 62373, 62369, 62365, 62361, 62357],
  [62353, 62349, 62346, 62342, 62338, 62334, 62330, 62326, 62322, 62318, 62314, 62311, 62307, 62303, 62299, 62295, 62291, 62287, 62283, 62279, 62275, 62272, 62268, 62264, 62260, 62256, 62252, 62248, 62244, 62240, 62236, 62232],
  [62228, 62224, 62220, 62216, 62212, 62209, 62205, 62201, 62197, 62193, 62189, 62185, 62181, 62177, 62173, 62169, 62165, 62161, 62157, 62153, 62149, 62145, 62141, 62137, 62133, 62129, 62125, 62121, 62117, 62113, 62109, 62105],
  [62101, 62097, 62093, 62089, 62085, 62081, 62077, 62073, 62069, 62065, 62061, 62057, 62053, 62049, 62045, 62040, 62036, 62032, 62028, 62024, 62020, 62016, 62012, 62008, 62004, 62000, 61996, 61992, 61988, 61984, 61979, 61975],
  [61971, 61967, 61963, 61959, 61955, 61951, 61947, 61943, 61939, 61934, 61930, 61926, 61922, 61918, 61914, 61910, 61906, 61901, 61897, 61893, 61889, 61885, 61881, 61877, 61873, 61868, 61864, 61860, 61856, 61852, 61848, 61844],
  [61839, 61835, 61831, 61827, 61823, 61819, 61814, 61810, 61806, 61802, 61798, 61793, 61789, 61785, 61781, 61777, 61772, 61768, 61764, 61760, 61756, 61751, 61747, 61743, 61739, 61735, 61730, 61726, 61722, 61718, 61713, 61709],
  [61705, 61701, 61697, 61692, 61688, 61684, 61680, 61675, 61671, 61667, 61663, 61658, 61654, 61650, 61646, 61641, 61637, 61633, 61628, 61624, 61620, 61616, 61611, 61607, 61603, 61598, 61594, 61590, 61586, 61581, 61577, 61573],
  [61568, 61564, 61560, 61555, 61551, 61547, 61543, 61538, 61534, 61530, 61525, 61521, 61517, 61512, 61508, 61504, 61499, 61495, 61491, 61486, 61482, 61477, 61473, 61469, 61464, 61460, 61456, 61451, 61447, 61443, 61438, 61434],
  [61429, 61425, 61421, 61416, 61412, 61408, 61403, 61399, 61394, 61390, 61386, 61381, 61377, 61372, 61368, 61364, 61359, 61355, 61350, 61346, 61341, 61337, 61333, 61328, 61324, 61319, 61315, 61310, 61306, 61302, 61297, 61293],
  [61288, 61284, 61279, 61275, 61270, 61266, 61261, 61257, 61253, 61248, 61244, 61239, 61235, 61230, 61226, 61221, 61217, 61212, 61208, 61203, 61199, 61194, 61190, 61185, 61181, 61176, 61172, 61167, 61163, 61158, 61154, 61149],
  [61145, 61140, 61136, 61131, 61127, 61122, 61117, 61113, 61108, 61104, 61099, 61095, 61090, 61086, 61081, 61077, 61072, 61067, 61063, 61058, 61054, 61049, 61045, 61040, 61035, 61031, 61026, 61022, 61017, 61013, 61008, 61003],
  [60999, 60994, 60990, 60985, 60980, 60976, 60971, 60967, 60962, 60957, 60953, 60948, 60943, 60939, 60934, 60930, 60925, 60920, 60916, 60911, 60906, 60902, 60897, 60892, 60888, 60883, 60879, 60874, 60869, 60865, 60860, 60855],
  [60851, 60846, 60841, 60837, 60832, 60827, 60823, 60818, 60813, 60808, 60804, 60799, 60794, 60790, 60785, 60780, 60776, 60771, 60766, 60762, 60757, 60752, 60747, 60743, 60738, 60733, 60728, 60724, 60719, 60714, 60710, 60705],
  [60700, 60695, 60691, 60686, 60681, 60676, 60672, 60667, 60662, 60657, 60653, 60648, 60643, 60638, 60634, 60629, 60624, 60619, 60614, 60610, 60605, 60600, 60595, 60591, 60586, 60581, 60576, 60571, 60567, 60562, 60557, 60552]]

/-- TWC[2048..2559], 16 rows of 32 entries (R160). -/
def twcBlock04 : List (List Nat) := [
  [60547, 60543, 60538, 60533, 60528, 60523, 60518, 60514, 60509, 60504, 60499, 60494, 60490, 60485, 60480, 60475, 60470, 60465, 60460, 60456, 60451, 60446, 60441, 60436, 60431, 60426, 60422, 60417, 60412, 60407, 60402, 60397],
  [60392, 60387, 60383, 60378, 60373, 60368, 60363, 60358, 60353, 60348, 60343, 60339, 60334, 60329, 60324, 60319, 60314, 60309, 60304, 60299, 60294, 60289, 60284, 60280, 60275, 60270, 60265, 60260, 60255, 60250, 60245, 60240],
  [60235, 60230, 60225, 60220, 60215, 60210, 60205, 60200, 60195, 60190, 60185, 60180, 60175, 60170, 60166, 60161, 60156, 60151, 60146, 60141, 60136, 60131, 60126, 60121, 60116, 60111, 60106, 60101, 60096, 60091, 60086, 60080],
  [60075, 60070, 60065, 60060, 60055, 60050, 60045, 60040, 60035, 60030, 60025, 60020, 60015, 60010, 60005, 60000, 59995, 59990, 59985, 59980, 59975, 59970, 59964, 59959, 59954, 59949, 59944, 59939, 59934, 59929, 59924, 59919],
  [59914, 59909, 59903, 59898, 59893, 59888, 59883, 59878, 59873, 59868, 59863, 59858, 59852, 59847, 59842, 59837, 59832, 59827, 59822, 59816, 59811, 59806, 59801, 59796, 59791, 59786, 59781, 59775, 59770, 59765, 59760, 59755],
  [59750, 59744, 59739, 59734, 59729, 59724, 59719, 59713, 59708, 59703, 59698, 59693, 59687, 59682, 59677, 59672, 59667, 59661, 59656, 59651, 59646, 59641, 59635, 59630, 59625, 59620, 59615, 59609, 59604, 59599, 59594, 59588],
  [59583, 59578, 59573, 59568, 59562, 59557, 59552, 59547, 59541, 59536, 59531, 59526, 59520, 59515, 59510, 59504, 59499, 59494, 59489, 59483, 59478, 59473, 59468, 59462, 59457, 59452, 59446, 59441, 59436, 59431, 59425, 59420],
  [59415, 59409, 59404, 59399, 59393, 59388, 59383, 59377, 59372, 59367, 59362, 59356, 59351, 59346, 59340, 59335, 59330, 59324, 59319, 59314, 59308, 59303, 59297, 59292, 59287, 59281, 59276, 59271, 59265, 59260, 59255, 59249],
  [59244, 59238, 59233, 59228, 59222, 59217, 59212, 59206, 59201, 59195, 59190, 59185, 59179, 59174, 59168, 59163, 59158, 59152, 59147, 59141, 59136, 59131, 59125, 59120, 59114, 59109, 59103, 59098, 59093, 59087, 59082, 59076],
  [59071, 59065, 59060, 59054, 59049, 59044, 59038, 59033, 59027, 59022, 59016, 59011, 59005, 59000, 58994, 58989, 58983, 58978, 58972, 58967, 58962, 58956, 58951, 58945, 58940, 58934, 58929, 58923, 58918, 58912, 58907, 58901],
  [58896, 58890, 58885, 58879, 58873, 58868, 58862, 58857, 58851, 58846, 58840, 58835, 58829, 58824, 58818, 58813, 58807, 58802, 58796, 58790, 58785, 58779, 58774, 58768, 58763, 58757, 58751, 58746, 58740, 58735, 58729, 58724],
  [58718, 58712, 58707, 58701, 58696, 58690, 58685, 58679, 58673, 58668, 58662, 58657, 58651, 58645, 58640, 58634, 58628, 58623, 58617, 58612, 58606, 58600, 58595, 58589, 58583, 58578, 58572, 58567, 58561, 58555, 58550, 58544],
  [58538, 58533, 58527, 58521, 58516, 58510, 58504, 58499, 58493, 58487, 58482, 58476, 58470, 58465, 58459, 58453, 58448, 58442, 58436, 58431, 58425, 58419, 58414, 58408, 58402, 58396, 58391, 58385, 58379, 58374, 58368, 58362],
  [58356, 58351, 58345, 58339, 58334, 58328, 58322, 58316, 58311, 58305, 58299, 58293, 58288, 58282, 58276, 58270, 58265, 58259, 58253, 58247, 58242, 58236, 58230, 58224, 58219, 58213, 58207, 58201, 58195, 58190, 58184, 58178],
  [58172, 58167, 58161, 58155, 58149, 58143, 58138, 58132, 58126, 58120, 58114, 58109, 58103, 58097, 58091, 58085, 58079, 58074, 58068, 58062, 58056, 58050, 58045, 58039, 58033, 58027, 58021, 58015, 58009, 58004, 57998, 57992],
  [57986, 57980, 57974, 57968, 57963, 57957, 57951, 57945, 57939, 57933, 57927, 57922, 57916, 57910, 57904, 57898, 57892, 57886, 57880, 57874, 57869, 57863, 57857, 57851, 57845, 57839, 57833, 57827, 57821, 57815, 57809, 57804]]

/-- TWC[2560..3071], 16 rows of 32 entries (R160). -/
def twcBlock05 : List (List Nat) := [
  [57798, 57792, 57786, 57780, 57774, 57768, 57762, 57756, 57750, 57744, 57738, 57732, 57726, 57720, 57714, 57708, 57703, 57697, 57691, 57685, 57679, 57673, 57667, 57661, 57655, 57649, 57643, 57637, 57631, 57625, 57619, 57613],
  [57607, 57601, 57595, 57589, 57583, 57577, 57571, 57565, 57559, 57553, 57547, 57541, 57535, 57529, 57523, 57517, 57511, 57505, 57499, 57493, 57487, 57481, 57475, 57469, 57463, 57456, 57450, 57444, 57438, 57432, 57426, 57420],
  [57414, 57408, 57402, 57396, 57390, 57384, 57378, 57372, 57366, 57360, 57353, 57347, 57341, 57335, 57329, 57323, 57317, 57311, 57305, 57299, 57293, 57286, 57280, 57274, 57268, 57262, 57256, 57250, 57244, 57238, 57231, 57225],
  [57219, 57213, 57207, 57201, 57195, 57188, 57182, 57176, 57170, 57164, 57158, 57152, 57145, 57139, 57133, 57127, 57121, 57115, 57109, 57102, 57096, 57090, 57084, 57078, 57072, 57065, 57059, 57053, 57047, 57041, 57034, 57028],
  [57022, 57016, 57010, 57003, 56997, 56991, 56985, 56979, 56972, 56966, 56960, 56954, 56948, 56941, 56935, 56929, 56923, 56916, 56910, 56904, 56898, 56891, 56885, 56879, 56873, 56867, 56860, 56854, 56848, 56842, 56835, 56829],
  [56823, 56816, 56810, 56804, 56798, 56791, 56785, 56779, 56773, 56766, 56760, 56754, 56747, 56741, 56735, 56729, 56722, 56716, 56710, 56703, 56697, 56691, 56684, 56678, 56672, 56666, 56659, 56653, 56647, 56640, 56634, 56628],
  [56621, 56615, 56609, 56602, 56596, 56590, 56583, 56577, 56571, 56564, 56558, 56552, 56545, 56539, 56533, 56526, 56520, 56513, 56507, 56501, 56494, 56488, 56482, 56475, 56469, 56462, 56456, 56450, 56443, 56437, 56431, 56424],
  [56418, 56411, 56405, 56399, 56392, 56386, 56379, 56373, 56367, 56360, 56354, 56347, 56341, 56334, 56328, 56322, 56315, 56309, 56302, 56296, 56289, 56283, 56277, 56270, 56264, 56257, 56251, 56244, 56238, 56231, 56225, 56219],
  [56212, 56206, 56199, 56193, 56186, 56180, 56173, 56167, 56160, 56154, 56147, 56141, 56134, 56128, 56121, 56115, 56108, 56102, 56095, 56089, 56082, 56076, 56069, 56063, 56056, 56050, 56043, 56037, 56030, 56024, 56017, 56011],
  [56004, 55998, 55991, 55985, 55978, 55972, 55965, 55959, 55952, 55945, 55939, 55932, 55926, 55919, 55913, 55906, 55900, 55893, 55887, 55880, 55873, 55867, 55860, 55854, 55847, 55841, 55834, 55827, 55821, 55814, 55808, 55801],
  [55794, 55788, 55781, 55775, 55768, 55761, 55755, 55748, 55742, 55735, 55728, 55722, 55715, 55709, 55702, 55695, 55689, 55682, 55675, 55669, 55662, 55656, 55649, 55642, 55636, 55629, 55622, 55616, 55609, 55602, 55596, 55589],
  [55582, 55576, 55569, 55562, 55556, 55549, 55542, 55536, 55529, 55522, 55516, 55509, 55502, 55496, 55489, 55482, 55476, 55469, 55462, 55456, 55449, 55442, 55435, 55429, 55422, 55415, 55409, 55402, 55395, 55388, 55382, 55375],
  [55368, 55362, 55355, 55348, 55341, 55335, 55328, 55321, 55314, 55308, 55301, 55294, 55288, 55281, 55274, 55267, 55260, 55254, 55247, 55240, 55233, 55227, 55220, 55213, 55206, 55200, 55193, 55186, 55179, 55173, 55166, 55159],
  [55152, 55145, 55139, 55132, 55125, 55118, 55111, 55105, 55098, 55091, 55084, 55077, 55071, 55064, 55057, 55050, 55043, 55036, 55030, 55023, 55016, 55009, 55002, 54995, 54989, 54982, 54975, 54968, 54961, 54954, 54948, 54941],
  [54934, 54927, 54920, 54913, 54906, 54900, 54893, 54886, 54879, 54872, 54865, 54858, 54852, 54845, 54838, 54831, 54824, 54817, 54810, 54803, 54796, 54790, 54783, 54776, 54769, 54762, 54755, 54748, 54741, 54734, 54727, 54720],
  [54714, 54707, 54700, 54693, 54686, 54679, 54672, 54665, 54658, 54651, 54644, 54637, 54630, 54623, 54617, 54610, 54603, 54596, 54589, 54582, 54575, 54568, 54561, 54554, 54547, 54540, 54533, 54526, 54519, 54512, 54505, 54498]]

/-- TWC[3072..3583], 16 rows of 32 entries (R160). -/
def twcBlock06 : List (List Nat) := [
  [54491, 54484, 54477, 54470, 54463, 54456, 54449, 54442, 54435, 54428, 54421, 54414, 54407, 54400, 54393, 54386, 54379, 54372, 54365, 54358, 54351, 54344, 54337, 54330, 54323, 54316, 54309, 54302, 54295, 54288, 54281, 54274],
  [54267, 54260, 54253, 54246, 54239, 54232, 54224, 54217, 54210, 54203, 54196, 54189, 54182, 54175, 54168, 54161, 54154, 54147, 54140, 54133, 54125, 54118, 54111, 54104, 54097, 54090, 54083, 54076, 54069, 54062, 54054, 54047],
  [54040, 54033, 54026, 54019, 54012, 54005, 53998, 53990, 53983, 53976, 53969, 53962, 53955, 53948, 53941, 53933, 53926, 53919, 53912, 53905, 53898, 53891, 53883, 53876, 53869, 53862, 53855, 53848, 53840, 53833, 53826, 53819],
  [53812, 53805, 53797, 53790, 53783, 53776, 53769, 53762, 53754, 53747, 53740, 53733, 53726, 53718, 53711, 53704, 53697, 53690, 53682, 53675, 53668, 53661, 53653, 53646, 53639, 53632, 53625, 53617, 53610, 53603, 53596, 53588],
  [53581, 53574, 53567, 53560, 53552, 53545, 53538, 53531, 53523, 53516, 53509, 53502, 53494, 53487, 53480, 53472, 53465, 53458, 53451, 53443, 53436, 53429, 53422, 53414, 53407, 53400, 53392, 53385, 53378, 53371, 53363, 53356],
  [53349, 53341, 53334, 53327, 53319, 53312, 53305, 53298, 53290, 53283, 53276, 53268, 53261, 53254, 53246, 53239, 53232, 53224, 53217, 53210, 53202, 53195, 53188, 53180, 53173, 53166, 53158, 53151, 53144, 53136, 53129, 53121],
  [53114, 53107, 53099, 53092, 53085, 53077, 53070, 53063, 53055, 53048, 53040, 53033, 53026, 53018, 53011, 53003, 52996, 52989, 52981, 52974, 52967, 52959, 52952, 52944, 52937, 52929, 52922, 52915, 52907, 52900, 52892, 52885],
  [52878, 52870, 52863, 52855, 52848, 52840, 52833, 52826, 52818, 52811, 52803, 52796, 52788, 52781, 52773, 52766, 52759, 52751, 52744, 52736, 52729, 52721, 52714, 52706, 52699, 52691, 52684, 52676, 52669, 52661, 52654, 52646],
  [52639, 52632, 52624, 52617, 52609, 52602, 52594, 52587, 52579, 52572, 52564, 52557, 52549, 52542, 52534, 52527, 52519, 52511, 52504, 52496, 52489, 52481, 52474, 52466, 52459, 52451, 52444, 52436, 52429, 52421, 52414, 52406],
  [52398, 52391, 52383, 52376, 52368, 52361, 52353, 52346, 52338, 52330, 52323, 52315, 52308, 52300, 52293, 52285, 52277, 52270, 52262, 52255, 52247, 52240, 52232, 52224, 52217, 52209, 52202, 52194, 52186, 52179, 52171, 52164],
  [52156, 52148, 52141, 52133, 52126, 52118, 52110, 52103, 52095, 52087, 52080, 52072, 52065, 52057, 52049, 52042, 52034, 52026, 52019, 52011, 52003, 51996, 51988, 51980, 51973, 51965, 51957, 51950, 51942, 51934, 51927, 51919],
  [51911, 51904, 51896, 51888, 51881, 51873, 51865, 51858, 51850, 51842, 51835, 51827, 51819, 51812, 51804, 51796, 51789, 51781, 51773, 51765, 51758, 51750, 51742, 51735, 51727, 51719, 51711, 51704, 51696, 51688, 51681, 51673],
  [51665, 51657, 51650, 51642, 51634, 51626, 51619, 51611, 51603, 51595, 51588, 51580, 51572, 51564, 51557, 51549, 51541, 51533, 51526, 51518, 51510, 51502, 51495, 51487, 51479, 51471, 51463, 51456, 51448, 51440, 51432, 51424],
  [51417, 51409, 51401, 51393, 51386, 51378, 51370, 51362, 51354, 51346, 51339, 51331, 51323, 51315, 51307, 51300, 51292, 51284, 51276, 51268, 51260, 51253, 51245, 51237, 51229, 51221, 51213, 51206, 51198, 51190, 51182, 51174],
  [51166, 51159, 51151, 51143, 51135, 51127, 51119, 51111, 51104, 51096, 51088, 51080, 51072, 51064, 51056, 51048, 51041, 51033, 51025, 51017, 51009, 51001, 50993, 50985, 50977, 50970, 50962, 50954, 50946, 50938, 50930, 50922],
  [50914, 50906, 50898, 50890, 50882, 50875, 50867, 50859, 50851, 50843, 50835, 50827, 50819, 50811, 50803, 50795, 50787, 50779, 50771, 50763, 50756, 50748, 50740, 50732, 50724, 50716, 50708, 50700, 50692, 50684, 50676, 50668]]

/-- TWC[3584..4095], 16 rows of 32 entries (R160). -/
def twcBlock07 : List (List Nat) := [
  [50660, 50652, 50644, 50636, 50628, 50620, 50612, 50604, 50596, 50588, 50580, 50572, 50564, 50556, 50548, 50540, 50532, 50524, 50516, 50508, 50500, 50492, 50484, 50476, 50468, 50460, 50452, 50444, 50436, 50428, 50420, 50412],
  [50404, 50396, 50388, 50380, 50372, 50364, 50356, 50348, 50340, 50332, 50324, 50315, 50307, 50299, 50291, 50283, 50275, 50267, 50259, 50251, 50243, 50235, 50227, 50219, 50211, 50203, 50195, 50186, 50178, 50170, 50162, 50154],
  [50146, 50138, 50130, 50122, 50114, 50106, 50097, 50089, 50081, 50073, 50065, 50057, 50049, 50041, 50033, 50024, 50016, 50008, 50000, 49992, 49984, 49976, 49968, 49959, 49951, 49943, 49935, 49927, 49919, 49911, 49902, 49894],
  [49886, 49878, 49870, 49862, 49854, 49845, 49837, 49829, 49821, 49813, 49805, 49796, 49788, 49780, 49772, 49764, 49756, 49747, 49739, 49731, 49723, 49715, 49706, 49698, 49690, 49682, 49674, 49665, 49657, 49649, 49641, 49633],
  [49624, 49616, 49608, 49600, 49592, 49583, 49575, 49567, 49559, 49550, 49542, 49534, 49526, 49518, 49509, 49501, 49493, 49485, 49476, 49468, 49460, 49452, 49443, 49435, 49427, 49419, 49410, 49402, 49394, 49386, 49377, 49369],
  [49361, 49353, 49344, 49336, 49328, 49319, 49311, 49303, 49295, 49286, 49278, 49270, 49262, 49253, 49245, 49237, 49228, 49220, 49212, 49203, 49195, 49187, 49179, 49170, 49162, 49154, 49145, 49137, 49129, 49120, 49112, 49104],
  [49095, 49087, 49079, 49070, 49062, 49054, 49045, 49037, 49029, 49020, 49012, 49004, 48995, 48987, 48979, 48970, 48962, 48954, 48945, 48937, 48929, 48920, 48912, 48903, 48895, 48887, 48878, 48870, 48862, 48853, 48845, 48836],
  [48828, 48820, 48811, 48803, 48795, 48786, 48778, 48769, 48761, 48753, 48744, 48736, 48727, 48719, 48711, 48702, 48694, 48685, 48677, 48669, 48660, 48652, 48643, 48635, 48626, 48618, 48610, 48601, 48593, 48584, 48576, 48567],
  [48559, 48551, 48542, 48534, 48525, 48517, 48508, 48500, 48491, 48483, 48474, 48466, 48458, 48449, 48441, 48432, 48424, 48415, 48407, 48398, 48390, 48381, 48373, 48364, 48356, 48347, 48339, 48330, 48322, 48313, 48305, 48297],
  [48288, 48280, 48271, 48263, 48254, 48246, 48237, 48228, 48220, 48211, 48203, 48194, 48186, 48177, 48169, 48160, 48152, 48143, 48135, 48126, 48118, 48109, 48101, 48092, 48084, 48075, 48067, 48058, 48049, 48041, 48032, 48024],
  [48015, 48007, 47998, 47990, 47981, 47972, 47964, 47955, 47947, 47938, 47930, 47921, 47912, 47904, 47895, 47887, 47878, 47870, 47861, 47852, 47844, 47835, 47827, 47818, 47809, 47801, 47792, 47784, 47775, 47766, 47758, 47749],
  [47741, 47732, 47723, 47715, 47706, 47698, 47689, 47680, 47672, 47663, 47654, 47646, 47637, 47629, 47620, 47611, 47603, 47594, 47585, 47577, 47568, 47559, 47551, 47542, 47534, 47525, 47516, 47508, 47499, 47490, 47482, 47473],
  [47464, 47456, 47447, 47438, 47430, 47421, 47412, 47404, 47395, 47386, 47378, 47369, 47360, 47351, 47343, 47334, 47325, 47317, 47308, 47299, 47291, 47282, 47273, 47265, 47256, 47247, 47238, 47230, 47221, 47212, 47204, 47195],
  [47186, 47177, 47169, 47160, 47151, 47142, 47134, 47125, 47116, 47108, 47099, 47090, 47081, 47073, 47064, 47055, 47046, 47038, 47029, 47020, 47011, 47003, 46994, 46985, 46976, 46968, 46959, 46950, 46941, 46932, 46924, 46915],
  [46906, 46897, 46889, 46880, 46871, 46862, 46853, 46845, 46836, 46827, 46818, 46809, 46801, 46792, 46783, 46774, 46765, 46757, 46748, 46739, 46730, 46721, 46713, 46704, 46695, 46686, 46677, 46669, 46660, 46651, 46642, 46633],
  [46624, 46616, 46607, 46598, 46589, 46580, 46571, 46563, 46554, 46545, 46536, 46527, 46518, 46509, 46501, 46492, 46483, 46474, 46465, 46456, 46447, 46439, 46430, 46421, 46412, 46403, 46394, 46385, 46376, 46368, 46359, 46350]]

/-- TWC[4096..4607], 16 rows of 32 entries (R160). -/
def twcBlock08 : List (List Nat) := [
  [46341, 46332, 46323, 46314, 46305, 46296, 46288, 46279, 46270, 46261, 46252, 46243, 46234, 46225, 46216, 46207, 46199, 46190, 46181, 46172, 46163, 46154, 46145, 46136, 46127, 46118, 46109, 46100, 46091, 46083, 46074, 46065],
  [46056, 46047, 46038, 46029, 46020, 46011, 46002, 45993, 45984, 45975, 45966, 45957, 45948, 45939, 45930, 45921, 45912, 45904, 45895, 45886, 45877, 45868, 45859, 45850, 45841, 45832, 45823, 45814, 45805, 45796, 45787, 45778],
  [45769, 45760, 45751, 45742, 45733, 45724, 45715, 45706, 45697, 45688, 45679, 45670, 45661, 45652, 45643, 45634, 45625, 45616, 45607, 45598, 45589, 45580, 45571, 45561, 45552, 45543, 45534, 45525, 45516, 45507, 45498, 45489],
  [45480, 45471, 45462, 45453, 45444, 45435, 45426, 45417, 45408, 45399, 45390, 45380, 45371, 45362, 45353, 45344, 45335, 45326, 45317, 45308, 45299, 45290, 45281, 45272, 45262, 45253, 45244, 45235, 45226, 45217, 45208, 45199],
  [45190, 45181, 45172, 45162, 45153, 45144, 45135, 45126, 45117, 45108, 45099, 45090, 45080, 45071, 45062, 45053, 45044, 45035, 45026, 45017, 45007, 44998, 44989, 44980, 44971, 44962, 44953, 44943, 44934, 44925, 44916, 44907],
  [44898, 44888, 44879, 44870, 44861, 44852, 44843, 44834, 44824, 44815, 44806, 44797, 44788, 44778, 44769, 44760, 44751, 44742, 44733, 44723, 44714, 44705, 44696, 44687, 44677, 44668, 44659, 44650, 44641, 44631, 44622, 44613],
  [44604, 44595, 44585, 44576, 44567, 44558, 44549, 44539, 44530, 44521, 44512, 44502, 44493, 44484, 44475, 44466, 44456, 44447, 44438, 44429, 44419, 44410, 44401, 44392, 44382, 44373, 44364, 44355, 44345, 44336, 44327, 44318],
  [44308, 44299, 44290, 44281, 44271, 44262, 44253, 44244, 44234, 44225, 44216, 44206, 44197, 44188, 44179, 44169, 44160, 44151, 44141, 44132, 44123, 44114, 44104, 44095, 44086, 44076, 44067, 44058, 44049, 44039, 44030, 44021],
  [44011, 44002, 43993, 43983, 43974, 43965, 43955, 43946, 43937, 43927, 43918, 43909, 43899, 43890, 43881, 43871, 43862, 43853, 43843, 43834, 43825, 43815, 43806, 43797, 43787, 43778, 43769, 43759, 43750, 43741, 43731, 43722],
  [43713, 43703, 43694, 43684, 43675, 43666, 43656, 43647, 43638, 43628, 43619, 43609, 43600, 43591, 43581, 43572, 43562, 43553, 43544, 43534, 43525, 43516, 43506, 43497, 43487, 43478, 43469, 43459, 43450, 43440, 43431, 43421],
  [43412, 43403, 43393, 43384, 43374, 43365, 43356, 43346, 43337, 43327, 43318, 43308, 43299, 43290, 43280, 43271, 43261, 43252, 43242, 43233, 43223, 43214, 43205, 43195, 43186, 43176, 43167, 43157, 43148, 43138, 43129, 43119],
  [43110, 43101, 43091, 43082, 43072, 43063, 43053, 43044, 43034, 43025, 43015, 43006, 42996, 42987, 42977, 42968, 42958, 42949, 42939, 42930, 42920, 42911, 42901, 42892, 42882, 42873, 42863, 42854, 42844, 42835, 42825, 42816],
  [42806, 42797, 42787, 42778, 42768, 42759, 42749, 42740, 42730, 42721, 42711, 42702, 42692, 42683, 42673, 42663, 42654, 42644, 42635, 42625, 42616, 42606, 42597, 42587, 42578, 42568, 42558, 42549, 42539, 42530, 42520, 42511],
  [42501, 42491, 42482, 42472, 42463, 42453, 42444, 42434, 42424, 42415, 42405, 42396, 42386, 42377, 42367, 42357, 42348, 42338, 42329, 42319, 42309, 42300, 42290, 42281, 42271, 42261, 42252, 42242, 42233, 42223, 42213, 42204],
  [42194, 42185, 42175, 42165, 42156, 42146, 42136, 42127, 42117, 42108, 42098, 42088, 42079, 42069, 42059, 42050, 42040, 42030, 42021, 42011, 42002, 41992, 41982, 41973, 41963, 41953, 41944, 41934, 41924, 41915, 41905, 41895],
  [41886, 41876, 41866, 41857, 41847, 41837, 41828, 41818, 41808, 41799, 41789, 41779, 41770, 41760, 41750, 41741, 41731, 41721, 41711, 41702, 41692, 41682, 41673, 41663, 41653, 41644, 41634, 41624, 41614, 41605, 41595, 41585]]

/-- TWC[4608..5119], 16 rows of 32 entries (R160). -/
def twcBlock09 : List (List Nat) := [
  [41576, 41566, 41556, 41546, 41537, 41527, 41517, 41508, 41498, 41488, 41478, 41469, 41459, 41449, 41439, 41430, 41420, 41410, 41401, 41391, 41381, 41371, 41362, 41352, 41342, 41332, 41323, 41313, 41303, 41293, 41283, 41274],
  [41264, 41254, 41244, 41235, 41225, 41215, 41205, 41196, 41186, 41176, 41166, 41156, 41147, 41137, 41127, 41117, 41108, 41098, 41088, 41078, 41068, 41059, 41049, 41039, 41029, 41019, 41010, 41000, 40990, 40980, 40970, 40961],
  [40951, 40941, 40931, 40921, 40912, 40902, 40892, 40882, 40872, 40862, 40853, 40843, 40833, 40823, 40813, 40803, 40794, 40784, 40774, 40764, 40754, 40744, 40735, 40725, 40715, 40705, 40695, 40685, 40675, 40666, 40656, 40646],
  [40636, 40626, 40616, 40606, 40597, 40587, 40577, 40567, 40557, 40547, 40537, 40528, 40518, 40508, 40498, 40488, 40478, 40468, 40458, 40448, 40439, 40429, 40419, 40409, 40399, 40389, 40379, 40369, 40359, 40350, 40340, 40330],
  [40320, 40310, 40300, 40290, 40280, 40270, 40260, 40250, 40241, 40231, 40221, 40211, 40201, 40191, 40181, 40171, 40161, 40151, 40141, 40131, 40121, 40111, 40102, 40092, 40082, 40072, 40062, 40052, 40042, 40032, 40022, 40012],
  [40002, 39992, 39982, 39972, 39962, 39952, 39942, 39932, 39922, 39912, 39902, 39892, 39882, 39873, 39863, 39853, 39843, 39833, 39823, 39813, 39803, 39793, 39783, 39773, 39763, 39753, 39743, 39733, 39723, 39713, 39703, 39693],
  [39683, 39673, 39663, 39653, 39643, 39633, 39623, 39613, 39603, 39593, 39583, 39573, 39563, 39553, 39543, 39533, 39523, 39513, 39503, 39492, 39482, 39472, 39462, 39452, 39442, 39432, 39422, 39412, 39402, 39392, 39382, 39372],
  [39362, 39352, 39342, 39332, 39322, 39312, 39302, 39292, 39282, 39272, 39261, 39251, 39241, 39231, 39221, 39211, 39201, 39191, 39181, 39171, 39161, 39151, 39141, 39131, 39120, 39110, 39100, 39090, 39080, 39070, 39060, 39050],
  [39040, 39030, 39020, 39009, 38999, 38989, 38979, 38969, 38959, 38949, 38939, 38929, 38919, 38908, 38898, 38888, 38878, 38868, 38858, 38848, 38838, 38827, 38817, 38807, 38797, 38787, 38777, 38767, 38757, 38746, 38736, 38726],
  [38716, 38706, 38696, 38686, 38675, 38665, 38655, 38645, 38635, 38625, 38615, 38604, 38594, 38584, 38574, 38564, 38554, 38543, 38533, 38523, 38513, 38503, 38493, 38482, 38472, 38462, 38452, 38442, 38432, 38421, 38411, 38401],
  [38391, 38381, 38370, 38360, 38350, 38340, 38330, 38320, 38309, 38299, 38289, 38279, 38269, 38258, 38248, 38238, 38228, 38218, 38207, 38197, 38187, 38177, 38166, 38156, 38146, 38136, 38126, 38115, 38105, 38095, 38085, 38074],
  [38064, 38054, 38044, 38034, 38023, 38013, 38003, 37993, 37982, 37972, 37962, 37952, 37941, 37931, 37921, 37911, 37900, 37890, 37880, 37870, 37859, 37849, 37839, 37829, 37818, 37808, 37798, 37788, 37777, 37767, 37757, 37746],
  [37736, 37726, 37716, 37705, 37695, 37685, 37674, 37664, 37654, 37644, 37633, 37623, 37613, 37602, 37592, 37582, 37572, 37561, 37551, 37541, 37530, 37520, 37510, 37499, 37489, 37479, 37469, 37458, 37448, 37438, 37427, 37417],
  [37407, 37396, 37386, 37376, 37365, 37355, 37345, 37334, 37324, 37314, 37303, 37293, 37283, 37272, 37262, 37252, 37241, 37231, 37221, 37210, 37200, 37190, 37179, 37169, 37159, 37148, 37138, 37128, 37117, 37107, 37097, 37086],
  [37076, 37065, 37055, 37045, 37034, 37024, 37014, 37003, 36993, 36982, 36972, 36962, 36951, 36941, 36931, 36920, 36910, 36899, 36889, 36879, 36868, 36858, 36848, 36837, 36827, 36816, 36806, 36796, 36785, 36775, 36764, 36754],
  [36744, 36733, 36723, 36712, 36702, 36691, 36681, 36671, 36660, 36650, 36639, 36629, 36619, 36608, 36598, 36587, 36577, 36566, 36556, 36546, 36535, 36525, 36514, 36504, 36493, 36483, 36473, 36462, 36452, 36441, 36431, 36420]]

/-- TWC[5120..5631], 16 rows of 32 entries (R160). -/
def twcBlock10 : List (List Nat) := [
  [36410, 36399, 36389, 36378, 36368, 36358, 36347, 36337, 36326, 36316, 36305, 36295, 36284, 36274, 36263, 36253, 36243, 36232, 36222, 36211, 36201, 36190, 36180, 36169, 36159, 36148, 36138, 36127, 36117, 36106, 36096, 36085],
  [36075, 36064, 36054, 36043, 36033, 36022, 36012, 36001, 35991, 35980, 35970, 35959, 35949, 35938, 35928, 35917, 35907, 35896, 35886, 35875, 35865, 35854, 35844, 35833, 35823, 35812, 35802, 35791, 35781, 35770, 35759, 35749],
  [35738, 35728, 35717, 35707, 35696, 35686, 35675, 35665, 35654, 35644, 35633, 35622, 35612, 35601, 35591, 35580, 35570, 35559, 35549, 35538, 35527, 35517, 35506, 35496, 35485, 35475, 35464, 35454, 35443, 35432, 35422, 35411],
  [35401, 35390, 35380, 35369, 35358, 35348, 35337, 35327, 35316, 35305, 35295, 35284, 35274, 35263, 35252, 35242, 35231, 35221, 35210, 35200, 35189, 35178, 35168, 35157, 35146, 35136, 35125, 35115, 35104, 35093, 35083, 35072],
  [35062, 35051, 35040, 35030, 35019, 35009, 34998, 34987, 34977, 34966, 34955, 34945, 34934, 34923, 34913, 34902, 34892, 34881, 34870, 34860, 34849, 34838, 34828, 34817, 34806, 34796, 34785, 34774, 34764, 34753, 34743, 34732],
  [34721, 34711, 34700, 34689, 34679, 34668, 34657, 34647, 34636, 34625, 34615, 34604, 34593, 34583, 34572, 34561, 34551, 34540, 34529, 34518, 34508, 34497, 34486, 34476, 34465, 34454, 34444, 34433, 34422, 34412, 34401, 34390],
  [34380, 34369, 34358, 34347, 34337, 34326, 34315, 34305, 34294, 34283, 34272, 34262, 34251, 34240, 34230, 34219, 34208, 34197, 34187, 34176, 34165, 34155, 34144, 34133, 34122, 34112, 34101, 34090, 34079, 34069, 34058, 34047],
  [34037, 34026, 34015, 34004, 33994, 33983, 33972, 33961, 33951, 33940, 33929, 33918, 33908, 33897, 33886, 33875, 33865, 33854, 33843, 33832, 33821, 33811, 33800, 33789, 33778, 33768, 33757, 33746, 33735, 33725, 33714, 33703],
  [33692, 33681, 33671, 33660, 33649, 33638, 33628, 33617, 33606, 33595, 33584, 33574, 33563, 33552, 33541, 33530, 33520, 33509, 33498, 33487, 33476, 33466, 33455, 33444, 33433, 33422, 33412, 33401, 33390, 33379, 33368, 33358],
  [33347, 33336, 33325, 33314, 33303, 33293, 33282, 33271, 33260, 33249, 33238, 33228, 33217, 33206, 33195, 33184, 33173, 33163, 33152, 33141, 33130, 33119, 33108, 33098, 33087, 33076, 33065, 33054, 33043, 33032, 33022, 33011],
  [33000, 32989, 32978, 32967, 32956, 32946, 32935, 32924, 32913, 32902, 32891, 32880, 32870, 32859, 32848, 32837, 32826, 32815, 32804, 32793, 32783, 32772, 32761, 32750, 32739, 32728, 32717, 32706, 32695, 32685, 32674, 32663],
  [32652, 32641, 32630, 32619, 32608, 32597, 32586, 32576, 32565, 32554, 32543, 32532, 32521, 32510, 32499, 32488, 32477, 32466, 32456, 32445, 32434, 32423, 32412, 32401, 32390, 32379, 32368, 32357, 32346, 32335, 32324, 32314],
  [32303, 32292, 32281, 32270, 32259, 32248, 32237, 32226, 32215, 32204, 32193, 32182, 32171, 32160, 32149, 32138, 32127, 32117, 32106, 32095, 32084, 32073, 32062, 32051, 32040, 32029, 32018, 32007, 31996, 31985, 31974, 31963],
  [31952, 31941, 31930, 31919, 31908, 31897, 31886, 31875, 31864, 31853, 31842, 31831, 31820, 31809, 31798, 31787, 31776, 31765, 31754, 31743, 31732, 31721, 31710, 31699, 31688, 31677, 31666, 31655, 31644, 31633, 31622, 31611],
  [31600, 31589, 31578, 31567, 31556, 31545, 31534, 31523, 31512, 31501, 31490, 31479, 31468, 31457, 31446, 31435, 31424, 31413, 31402, 31391, 31380, 31369, 31358, 31347, 31336, 31325, 31314, 31303, 31292, 31281, 31270, 31259],
  [31248, 31236, 31225, 31214, 31203, 31192, 31181, 31170, 31159, 31148, 31137, 31126, 31115, 31104, 31093, 31082, 31071, 31060, 31049, 31037, 31026, 31015, 31004, 30993, 30982, 30971, 30960, 30949, 30938, 30927, 30916, 30905]]

/-- TWC[5632..6143], 16 rows of 32 entries (R160). -/
def twcBlock11 : List (List Nat) := [
  [30893, 30882, 30871, 30860, 30849, 30838, 30827, 30816, 30805, 30794, 30783, 30771, 30760, 30749, 30738, 30727, 30716, 30705, 30694, 30683, 30672, 30660, 30649, 30638, 30627, 30616, 30605, 30594, 30583, 30572, 30560, 30549],
  [30538, 30527, 30516, 30505, 30494, 30483, 30472, 30460, 30449, 30438, 30427, 30416, 30405, 30394, 30382, 30371, 30360, 30349, 30338, 30327, 30316, 30304, 30293, 30282, 30271, 30260, 30249, 30238, 30226, 30215, 30204, 30193],
  [30182, 30171, 30160, 30148, 30137, 30126, 30115, 30104, 30093, 30081, 30070, 30059, 30048, 30037, 30026, 30014, 30003, 29992, 29981, 29970, 29959, 29947, 29936, 29925, 29914, 29903, 29891, 29880, 29869, 29858, 29847, 29836],
  [29824, 29813, 29802, 29791, 29780, 29768, 29757, 29746, 29735, 29724, 29712, 29701, 29690, 29679, 29668, 29656, 29645, 29634, 29623, 29612, 29600, 29589, 29578, 29567, 29555, 29544, 29533, 29522, 29511, 29499, 29488, 29477],
  [29466, 29455, 29443, 29432, 29421, 29410, 29398, 29387, 29376, 29365, 29353, 29342, 29331, 29320, 29308, 29297, 29286, 29275, 29264, 29252, 29241, 29230, 29219, 29207, 29196, 29185, 29174, 29162, 29151, 29140, 29129, 29117],
  [29106, 29095, 29083, 29072, 29061, 29050, 29038, 29027, 29016, 29005, 28993, 28982, 28971, 28960, 28948, 28937, 28926, 28914, 28903, 28892, 28881, 28869, 28858, 28847, 28835, 28824, 28813, 28802, 28790, 28779, 28768, 28756],
  [28745, 28734, 28723, 28711, 28700, 28689, 28677, 28666, 28655, 28643, 28632, 28621, 28610, 28598, 28587, 28576, 28564, 28553, 28542, 28530, 28519, 28508, 28496, 28485, 28474, 28462, 28451, 28440, 28429, 28417, 28406, 28395],
  [28383, 28372, 28361, 28349, 28338, 28327, 28315, 28304, 28293, 28281, 28270, 28259, 28247, 28236, 28225, 28213, 28202, 28191, 28179, 28168, 28156, 28145, 28134, 28122, 28111, 28100, 28088, 28077, 28066, 28054, 28043, 28032],
  [28020, 28009, 27998, 27986, 27975, 27963, 27952, 27941, 27929, 27918, 27907, 27895, 27884, 27872, 27861, 27850, 27838, 27827, 27816, 27804, 27793, 27781, 27770, 27759, 27747, 27736, 27725, 27713, 27702, 27690, 27679, 27668],
  [27656, 27645, 27633, 27622, 27611, 27599, 27588, 27576, 27565, 27554, 27542, 27531, 27519, 27508, 27497, 27485, 27474, 27462, 27451, 27440, 27428, 27417, 27405, 27394, 27382, 27371, 27360, 27348, 27337, 27325, 27314, 27303],
  [27291, 27280, 27268, 27257, 27245, 27234, 27223, 27211, 27200, 27188, 27177, 27165, 27154, 27143, 27131, 27120, 27108, 27097, 27085, 27074, 27062, 27051, 27040, 27028, 27017, 27005, 26994, 26982, 26971, 26959, 26948, 26936],
  [26925, 26914, 26902, 26891, 26879, 26868, 26856, 26845, 26833, 26822, 26810, 26799, 26787, 26776, 26765, 26753, 26742, 26730, 26719, 26707, 26696, 26684, 26673, 26661, 26650, 26638, 26627, 26615, 26604, 26592, 26581, 26569],
  [26558, 26546, 26535, 26523, 26512, 26500, 26489, 26477, 26466, 26454, 26443, 26431, 26420, 26408, 26397, 26385, 26374, 26362, 26351, 26339, 26328, 26316, 26305, 26293, 26282, 26270, 26259, 26247, 26236, 26224, 26213, 26201],
  [26190, 26178, 26167, 26155, 26144, 26132, 26121, 26109, 26098, 26086, 26075, 26063, 26051, 26040, 26028, 26017, 26005, 25994, 25982, 25971, 25959, 25948, 25936, 25925, 25913, 25901, 25890, 25878, 25867, 25855, 25844, 25832],
  [25821, 25809, 25798, 25786, 25774, 25763, 25751, 25740, 25728, 25717, 25705, 25694, 25682, 25670, 25659, 25647, 25636, 25624, 25613, 25601, 25589, 25578, 25566, 25555, 25543, 25532, 25520, 25508, 25497, 25485, 25474, 25462],
  [25451, 25439, 25427, 25416, 25404, 25393, 25381, 25369, 25358, 25346, 25335, 25323, 25312, 25300, 25288, 25277, 25265, 25254, 25242, 25230, 25219, 25207, 25196, 25184, 25172, 25161, 25149, 25138, 25126, 25114, 25103, 25091]]

/-- TWC[6144..6655], 16 rows of 32 entries (R160). -/
def twcBlock12 : List (List Nat) := [
  [25080, 25068, 25056, 25045, 25033, 25021, 25010, 24998, 24987, 24975, 24963, 24952, 24940, 24929, 24917, 24905, 24894, 24882, 24870, 24859, 24847, 24836, 24824, 24812, 24801, 24789, 24777, 24766, 24754, 24742, 24731, 24719],
  [24708, 24696, 24684, 24673, 24661, 24649, 24638, 24626, 24614, 24603, 24591, 24579, 24568, 24556, 24545, 24533, 24521, 24510, 24498, 24486, 24475, 24463, 24451, 24440, 24428, 24416, 24405, 24393, 24381, 24370, 24358, 24346],
  [24335, 24323, 24311, 24300, 24288, 24276, 24265, 24253, 24241, 24230, 24218, 24206, 24195, 24183, 24171, 24160, 24148, 24136, 24124, 24113, 24101, 24089, 24078, 24066, 24054, 24043, 24031, 24019, 24008, 23996, 23984, 23973],
  [23961, 23949, 23937, 23926, 23914, 23902, 23891, 23879, 23867, 23856, 23844, 23832, 23820, 23809, 23797, 23785, 23774, 23762, 23750, 23738, 23727, 23715, 23703, 23692, 23680, 23668, 23656, 23645, 23633, 23621, 23610, 23598],
  [23586, 23574, 23563, 23551, 23539, 23527, 23516, 23504, 23492, 23481, 23469, 23457, 23445, 23434, 23422, 23410, 23398, 23387, 23375, 23363, 23351, 23340, 23328, 23316, 23304, 23293, 23281, 23269, 23257, 23246, 23234, 23222],
  [23210, 23199, 23187, 23175, 23163, 23152, 23140, 23128, 23116, 23105, 23093, 23081, 23069, 23058, 23046, 23034, 23022, 23011, 22999, 22987, 22975, 22963, 22952, 22940, 22928, 22916, 22905, 22893, 22881, 22869, 22858, 22846],
  [22834, 22822, 22810, 22799, 22787, 22775, 22763, 22751, 22740, 22728, 22716, 22704, 22693, 22681, 22669, 22657, 22645, 22634, 22622, 22610, 22598, 22586, 22575, 22563, 22551, 22539, 22527, 22516, 22504, 22492, 22480, 22468],
  [22457, 22445, 22433, 22421, 22409, 22398, 22386, 22374, 22362, 22350, 22339, 22327, 22315, 22303, 22291, 22279, 22268, 22256, 22244, 22232, 22220, 22209, 22197, 22185, 22173, 22161, 22149, 22138, 22126, 22114, 22102, 22090],
  [22078, 22067, 22055, 22043, 22031, 22019, 22007, 21996, 21984, 21972, 21960, 21948, 21936, 21925, 21913, 21901, 21889, 21877, 21865, 21853, 21842, 21830, 21818, 21806, 21794, 21782, 21771, 21759, 21747, 21735, 21723, 21711],
  [21699, 21688, 21676, 21664, 21652, 21640, 21628, 21616, 21604, 21593, 21581, 21569, 21557, 21545, 21533, 21521, 21510, 21498, 21486, 21474, 21462, 21450, 21438, 21426, 21415, 21403, 21391, 21379, 21367, 21355, 21343, 21331],
  [21320, 21308, 21296, 21284, 21272, 21260, 21248, 21236, 21224, 21213, 21201, 21189, 21177, 21165, 21153, 21141, 21129, 21117, 21106, 21094, 21082, 21070, 21058, 21046, 21034, 21022, 21010, 20998, 20987, 20975, 20963, 20951],
  [20939, 20927, 20915, 20903, 20891, 20879, 20867, 20856, 20844, 20832, 20820, 20808, 20796, 20784, 20772, 20760, 20748, 20736, 20724, 20713, 20701, 20689, 20677, 20665, 20653, 20641, 20629, 20617, 20605, 20593, 20581, 20569],
  [20557, 20546, 20534, 20522, 20510, 20498, 20486, 20474, 20462, 20450, 20438, 20426, 20414, 20402, 20390, 20378, 20366, 20354, 20343, 20331, 20319, 20307, 20295, 20283, 20271, 20259, 20247, 20235, 20223, 20211, 20199, 20187],
  [20175, 20163, 20151, 20139, 20127, 20115, 20103, 20092, 20080, 20068, 20056, 20044, 20032, 20020, 20008, 19996, 19984, 19972, 19960, 19948, 19936, 19924, 19912, 19900, 19888, 19876, 19864, 19852, 19840, 19828, 19816, 19804],
  [19792, 19780, 19768, 19756, 19744, 19732, 19720, 19708, 19696, 19684, 19672, 19660, 19648, 19636, 19624, 19612, 19600, 19589, 19577, 19565, 19553, 19541, 19529, 19517, 19505, 19493, 19481, 19469, 19457, 19445, 19433, 19421],
  [19409, 19397, 19385, 19373, 19361, 19349, 19337, 19325, 19313, 19300, 19288, 19276, 19264, 19252, 19240, 19228, 19216, 19204, 19192, 19180, 19168, 19156, 19144, 19132, 19120, 19108, 19096, 19084, 19072, 19060, 19048, 19036]]

/-- TWC[6656..7167], 16 rows of 32 entries (R160). -/
def twcBlock13 : List (List Nat) := [
  [19024, 19012, 19000, 18988, 18976, 18964, 18952, 18940, 18928, 18916, 18904, 18892, 18880, 18868, 18856, 18844, 18832, 18820, 18808, 18795, 18783, 18771, 18759, 18747, 18735, 18723, 18711, 18699, 18687, 18675, 18663, 18651],
  [18639, 18627, 18615, 18603, 18591, 18579, 18567, 18555, 18543, 18530, 18518, 18506, 18494, 18482, 18470, 18458, 18446, 18434, 18422, 18410, 18398, 18386, 18374, 18362, 18350, 18338, 18325, 18313, 18301, 18289, 18277, 18265],
  [18253, 18241, 18229, 18217, 18205, 18193, 18181, 18169, 18156, 18144, 18132, 18120, 18108, 18096, 18084, 18072, 18060, 18048, 18036, 18024, 18012, 17999, 17987, 17975, 17963, 17951, 17939, 17927, 17915, 17903, 17891, 17879],
  [17867, 17854, 17842, 17830, 17818, 17806, 17794, 17782, 17770, 17758, 17746, 17733, 17721, 17709, 17697, 17685, 17673, 17661, 17649, 17637, 17625, 17612, 17600, 17588, 17576, 17564, 17552, 17540, 17528, 17516, 17504, 17491],
  [17479, 17467, 17455, 17443, 17431, 17419, 17407, 17394, 17382, 17370, 17358, 17346, 17334, 17322, 17310, 17298, 17285, 17273, 17261, 17249, 17237, 17225, 17213, 17201, 17188, 17176, 17164, 17152, 17140, 17128, 17116, 17104],
  [17091, 17079, 17067, 17055, 17043, 17031, 17019, 17006, 16994, 16982, 16970, 16958, 16946, 16934, 16922, 16909, 16897, 16885, 16873, 16861, 16849, 16837, 16824, 16812, 16800, 16788, 16776, 16764, 16751, 16739, 16727, 16715],
  [16703, 16691, 16679, 16666, 16654, 16642, 16630, 16618, 16606, 16593, 16581, 16569, 16557, 16545, 16533, 16521, 16508, 16496, 16484, 16472, 16460, 16448, 16435, 16423, 16411, 16399, 16387, 16375, 16362, 16350, 16338, 16326],
  [16314, 16302, 16289, 16277, 16265, 16253, 16241, 16229, 16216, 16204, 16192, 16180, 16168, 16155, 16143, 16131, 16119, 16107, 16095, 16082, 16070, 16058, 16046, 16034, 16021, 16009, 15997, 15985, 15973, 15961, 15948, 15936],
  [15924, 15912, 15900, 15887, 15875, 15863, 15851, 15839, 15826, 15814, 15802, 15790, 15778, 15765, 15753, 15741, 15729, 15717, 15704, 15692, 15680, 15668, 15656, 15643, 15631, 15619, 15607, 15595, 15582, 15570, 15558, 15546],
  [15534, 15521, 15509, 15497, 15485, 15473, 15460, 15448, 15436, 15424, 15411, 15399, 15387, 15375, 15363, 15350, 15338, 15326, 15314, 15302, 15289, 15277, 15265, 15253, 15240, 15228, 15216, 15204, 15192, 15179, 15167, 15155],
  [15143, 15130, 15118, 15106, 15094, 15081, 15069, 15057, 15045, 15033, 15020, 15008, 14996, 14984, 14971, 14959, 14947, 14935, 14922, 14910, 14898, 14886, 14874, 14861, 14849, 14837, 14825, 14812, 14800, 14788, 14776, 14763],
  [14751, 14739, 14727, 14714, 14702, 14690, 14678, 14665, 14653, 14641, 14629, 14616, 14604, 14592, 14580, 14567, 14555, 14543, 14531, 14518, 14506, 14494, 14482, 14469, 14457, 14445, 14433, 14420, 14408, 14396, 14384, 14371],
  [14359, 14347, 14334, 14322, 14310, 14298, 14285, 14273, 14261, 14249, 14236, 14224, 14212, 14200, 14187, 14175, 14163, 14151, 14138, 14126, 14114, 14101, 14089, 14077, 14065, 14052, 14040, 14028, 14016, 14003, 13991, 13979],
  [13966, 13954, 13942, 13930, 13917, 13905, 13893, 13880, 13868, 13856, 13844, 13831, 13819, 13807, 13794, 13782, 13770, 13758, 13745, 13733, 13721, 13708, 13696, 13684, 13672, 13659, 13647, 13635, 13622, 13610, 13598, 13586],
  [13573, 13561, 13549, 13536, 13524, 13512, 13499, 13487, 13475, 13463, 13450, 13438, 13426, 13413, 13401, 13389, 13376, 13364, 13352, 13340, 13327, 13315, 13303, 13290, 13278, 13266, 13253, 13241, 13229, 13217, 13204, 13192],
  [13180, 13167, 13155, 13143, 13130, 13118, 13106, 13093, 13081, 13069, 13056, 13044, 13032, 13020, 13007, 12995, 12983, 12970, 12958, 12946, 12933, 12921, 12909, 12896, 12884, 12872, 12859, 12847, 12835, 12822, 12810, 12798]]

/-- TWC[7168..7679], 16 rows of 32 entries (R160). -/
def twcBlock14 : List (List Nat) := [
  [12785, 12773, 12761, 12748, 12736, 12724, 12711, 12699, 12687, 12674, 12662, 12650, 12638, 12625, 12613, 12601, 12588, 12576, 12564, 12551, 12539, 12527, 12514, 12502, 12490, 12477, 12465, 12452, 12440, 12428, 12415, 12403],
  [12391, 12378, 12366, 12354, 12341, 12329, 12317, 12304, 12292, 12280, 12267, 12255, 12243, 12230, 12218, 12206, 12193, 12181, 12169, 12156, 12144, 12132, 12119, 12107, 12095, 12082, 12070, 12057, 12045, 12033, 12020, 12008],
  [11996, 11983, 11971, 11959, 11946, 11934, 11922, 11909, 11897, 11884, 11872, 11860, 11847, 11835, 11823, 11810, 11798, 11786, 11773, 11761, 11749, 11736, 11724, 11711, 11699, 11687, 11674, 11662, 11650, 11637, 11625, 11613],
  [11600, 11588, 11575, 11563, 11551, 11538, 11526, 11514, 11501, 11489, 11476, 11464, 11452, 11439, 11427, 11415, 11402, 11390, 11377, 11365, 11353, 11340, 11328, 11316, 11303, 11291, 11278, 11266, 11254, 11241, 11229, 11217],
  [11204, 11192, 11179, 11167, 11155, 11142, 11130, 11117, 11105, 11093, 11080, 11068, 11056, 11043, 11031, 11018, 11006, 10994, 10981, 10969, 10956, 10944, 10932, 10919, 10907, 10894, 10882, 10870, 10857, 10845, 10833, 10820],
  [10808, 10795, 10783, 10771, 10758, 10746, 10733, 10721, 10709, 10696, 10684, 10671, 10659, 10647, 10634, 10622, 10609, 10597, 10585, 10572, 10560, 10547, 10535, 10523, 10510, 10498, 10485, 10473, 10461, 10448, 10436, 10423],
  [10411, 10399, 10386, 10374, 10361, 10349, 10336, 10324, 10312, 10299, 10287, 10274, 10262, 10250, 10237, 10225, 10212, 10200, 10188, 10175, 10163, 10150, 10138, 10125, 10113, 10101, 10088, 10076, 10063, 10051, 10039, 10026],
  [10014, 10001, 9989, 9976, 9964, 9952, 9939, 9927, 9914, 9902, 9890, 9877, 9865, 9852, 9840, 9827, 9815, 9803, 9790, 9778, 9765, 9753, 9740, 9728, 9716, 9703, 9691, 9678, 9666, 9653, 9641, 9629],
  [9616, 9604, 9591, 9579, 9566, 9554, 9542, 9529, 9517, 9504, 9492, 9479, 9467, 9455, 9442, 9430, 9417, 9405, 9392, 9380, 9367, 9355, 9343, 9330, 9318, 9305, 9293, 9280, 9268, 9256, 9243, 9231],
  [9218, 9206, 9193, 9181, 9168, 9156, 9144, 9131, 9119, 9106, 9094, 9081, 9069, 9056, 9044, 9032, 9019, 9007, 8994, 8982, 8969, 8957, 8944, 8932, 8919, 8907, 8895, 8882, 8870, 8857, 8845, 8832],
  [8820, 8807, 8795, 8783, 8770, 8758, 8745, 8733, 8720, 8708, 8695, 8683, 8670, 8658, 8646, 8633, 8621, 8608, 8596, 8583, 8571, 8558, 8546, 8533, 8521, 8508, 8496, 8484, 8471, 8459, 8446, 8434],
  [8421, 8409, 8396, 8384, 8371, 8359, 8346, 8334, 8322, 8309, 8297, 8284, 8272, 8259, 8247, 8234, 8222, 8209, 8197, 8184, 8172, 8159, 8147, 8135, 8122, 8110, 8097, 8085, 8072, 8060, 8047, 8035],
  [8022, 8010, 7997, 7985, 7972, 7960, 7947, 7935, 7923, 7910, 7898, 7885, 7873, 7860, 7848, 7835, 7823, 7810, 7798, 7785, 7773, 7760, 7748, 7735, 7723, 7710, 7698, 7685, 7673, 7660, 7648, 7636],
  [7623, 7611, 7598, 7586, 7573, 7561, 7548, 7536, 7523, 7511, 7498, 7486, 7473, 7461, 7448, 7436, 7423, 7411, 7398, 7386, 7373, 7361, 7348, 7336, 7323, 7311, 7298, 7286, 7273, 7261, 7249, 7236],
  [7224, 7211, 7199, 7186, 7174, 7161, 7149, 7136, 7124, 7111, 7099, 7086, 7074, 7061, 7049, 7036, 7024, 7011, 6999, 6986, 6974, 6961, 6949, 6936, 6924, 6911, 6899, 6886, 6874, 6861, 6849, 6836],
  [6824, 6811, 6799, 6786, 6774, 6761, 6749, 6736, 6724, 6711, 6699, 6686, 6674, 6661, 6649, 6636, 6624, 6611, 6599, 6586, 6574, 6561, 6549, 6536, 6524, 6511, 6499, 6486, 6474, 6461, 6449, 6436]]

/-- TWC[7680..8191], 16 rows of 32 entries (R160). -/
def twcBlock15 : List (List Nat) := [
  [6424, 6411, 6399, 6386, 6374, 6361, 6349, 6336, 6324, 6311, 6299, 6286, 6274, 6261, 6249, 6236, 6224, 6211, 6199, 6186, 6173, 6161, 6148, 6136, 6123, 6111, 6098, 6086, 6073, 6061, 6048, 6036],
  [6023, 6011, 5998, 5986, 5973, 5961, 5948, 5936, 5923, 5911, 5898, 5886, 5873, 5861, 5848, 5836, 5823, 5811, 5798, 5786, 5773, 5761, 5748, 5735, 5723, 5710, 5698, 5685, 5673, 5660, 5648, 5635],
  [5623, 5610, 5598, 5585, 5573, 5560, 5548, 5535, 5523, 5510, 5498, 5485, 5473, 5460, 5448, 5435, 5422, 5410, 5397, 5385, 5372, 5360, 5347, 5335, 5322, 5310, 5297, 5285, 5272, 5260, 5247, 5235],
  [5222, 5210, 5197, 5184, 5172, 5159, 5147, 5134, 5122, 5109, 5097, 5084, 5072, 5059, 5047, 5034, 5022, 5009, 4997, 4984, 4972, 4959, 4946, 4934, 4921, 4909, 4896, 4884, 4871, 4859, 4846, 4834],
  [4821, 4809, 4796, 4784, 4771, 4758, 4746, 4733, 4721, 4708, 4696, 4683, 4671, 4658, 4646, 4633, 4621, 4608, 4596, 4583, 4570, 4558, 4545, 4533, 4520, 4508, 4495, 4483, 4470, 4458, 4445, 4433],
  [4420, 4407, 4395, 4382, 4370, 4357, 4345, 4332, 4320, 4307, 4295, 4282, 4270, 4257, 4244, 4232, 4219, 4207, 4194, 4182, 4169, 4157, 4144, 4132, 4119, 4107, 4094, 4081, 4069, 4056, 4044, 4031],
  [4019, 4006, 3994, 3981, 3969, 3956, 3943, 3931, 3918, 3906, 3893, 3881, 3868, 3856, 3843, 3831, 3818, 3805, 3793, 3780, 3768, 3755, 3743, 3730, 3718, 3705, 3693, 3680, 3667, 3655, 3642, 3630],
  [3617, 3605, 3592, 3580, 3567, 3555, 3542, 3529, 3517, 3504, 3492, 3479, 3467, 3454, 3442, 3429, 3417, 3404, 3391, 3379, 3366, 3354, 3341, 3329, 3316, 3304, 3291, 3278, 3266, 3253, 3241, 3228],
  [3216, 3203, 3191, 3178, 3165, 3153, 3140, 3128, 3115, 3103, 3090, 3078, 3065, 3053, 3040, 3027, 3015, 3002, 2990, 2977, 2965, 2952, 2940, 2927, 2914, 2902, 2889, 2877, 2864, 2852, 2839, 2827],
  [2814, 2801, 2789, 2776, 2764, 2751, 2739, 2726, 2714, 2701, 2688, 2676, 2663, 2651, 2638, 2626, 2613, 2601, 2588, 2575, 2563, 2550, 2538, 2525, 2513, 2500, 2488, 2475, 2462, 2450, 2437, 2425],
  [2412, 2400, 2387, 2375, 2362, 2349, 2337, 2324, 2312, 2299, 2287, 2274, 2261, 2249, 2236, 2224, 2211, 2199, 2186, 2174, 2161, 2148, 2136, 2123, 2111, 2098, 2086, 2073, 2061, 2048, 2035, 2023],
  [2010, 1998, 1985, 1973, 1960, 1948, 1935, 1922, 1910, 1897, 1885, 1872, 1860, 1847, 1834, 1822, 1809, 1797, 1784, 1772, 1759, 1747, 1734, 1721, 1709, 1696, 1684, 1671, 1659, 1646, 1633, 1621],
  [1608, 1596, 1583, 1571, 1558, 1546, 1533, 1520, 1508, 1495, 1483, 1470, 1458, 1445, 1432, 1420, 1407, 1395, 1382, 1370, 1357, 1345, 1332, 1319, 1307, 1294, 1282, 1269, 1257, 1244, 1231, 1219],
  [1206, 1194, 1181, 1169, 1156, 1143, 1131, 1118, 1106, 1093, 1081, 1068, 1056, 1043, 1030, 1018, 1005, 993, 980, 968, 955, 942, 930, 917, 905, 892, 880, 867, 854, 842, 829, 817],
  [804, 792, 779, 767, 754, 741, 729, 716, 704, 691, 679, 666, 653, 641, 628, 616, 603, 591, 578, 565, 553, 540, 528, 515, 503, 490, 478, 465, 452, 440, 427, 415],
  [402, 390, 377, 364, 352, 339, 327, 314, 302, 289, 276, 264, 251, 239, 226, 214, 201, 188, 176, 163, 151, 138, 126, 113, 101, 88, 75, 63, 50, 38, 25, 13]]

/-- The 16 blocks of the quarter wave, in order. -/
def twcBlocks : List (List (List Nat)) := [twcBlock00, twcBlock01, twcBlock02, twcBlock03, twcBlock04, twcBlock05, twcBlock06, twcBlock07,
  twcBlock08, twcBlock09, twcBlock10, twcBlock11, twcBlock12, twcBlock13, twcBlock14, twcBlock15]

/-- TWC[j] for 0 <= j <= 8192: entry j mod 32 of row (j / 32) mod 16 of block j / 512, and 0 at j = 8192. -/
def twcQuarter (j : Nat) : Nat := ((twcBlocks.getD (j / 512) []).getD (j / 32 % 16) []).getD (j % 32) 0

/-- TWC[j], the cosine ROM: `TWC[j] = -TWC[16384 - j]` above the quarter (R160, R161). -/
def twc (j : Nat) : Int :=
  if j ≤ 8192 then (twcQuarter j : Int)
  else if j < Config.hMax then -(twcQuarter (Config.hMax - j) : Int)
  else 0

/-- TWS[j], the sine ROM: `TWS[j] = TWC[8192 - j]` in the quarter, `TWS[j] = TWS[16384 - j]` above it (R160,
R161). -/
def tws (j : Nat) : Int :=
  if j ≤ 8192 then (twcQuarter (8192 - j) : Int)
  else if j < Config.hMax then (twcQuarter (j - 8192) : Int)
  else 0

end Sys2Proof.Machine
end

