-- ==== Sys2Proof/Machine/Datapath.lean ====
section
/-! DEFINITION. The butterfly datapath (41_fft.md R163 to R167): the schedule of stages and the final permutation for
any butterfly, and the fixed-point butterfly of the hardware. -/

namespace Sys2Proof.Machine

/-- One complex word, raw values (41_fft.md R164). -/
structure Cplx where
  re : Int
  im : Int
  deriving DecidableEq, Repr, Inhabited

/-- A butterfly takes elements a and b and answers the new a, the new b, and whether a result overflowed. -/
abbrev Butterfly (α : Type) := α → α → (α × α) × Bool

/-- A series under transformation and the overflow seen so far (`ovf` of 41_fft.md R162). -/
abbrev Series (α : Type) := List α × Bool

/-- `butterfly(a, b, j)` in place: both right-hand sides use the values before the writes (41_fft.md R164). -/
def applyPair {α : Type} [Inhabited α] (bf : Butterfly α) (a b : Nat) (x : Series α) : Series α :=
  let r := bf (x.1.getD a default) (x.1.getD b default)
  ((x.1.set b r.1.2).set a r.1.1, x.2 || r.2)

/-- The values k takes in a stage, in order: those of 0..n-1 in the lower half of their group, that is with bit
`shift` zero (41_fft.md R163; half = 2^shift). -/
def lowerIndices (n shift : Nat) : List Nat := (List.range n).filter (fun k => decide (k / 2 ^ shift % 2 = 0))

/-- One stage: for each k the pair (k, k + half) with the butterfly selected by t = BRT[k >> shift] (41_fft.md
R163). -/
def runStage {α : Type} [Inhabited α] (bf : Nat → Butterfly α) (brt : Nat → Nat) (n shift : Nat)
    (x : Series α) : Series α :=
  (lowerIndices n shift).foldl (fun y k => applyPair (bf (brt (k / 2 ^ shift))) k (k + 2 ^ shift) y) x

/-- Stages 1..p: shift goes from p - 1 down to 0 (41_fft.md R163). -/
def runStages {α : Type} [Inhabited α] (bf : Nat → Butterfly α) (brt : Nat → Nat) (p : Nat) (x : Series α) :
    Series α :=
  (List.range p).reverse.foldl (fun y shift => runStage bf brt (2 ^ p) shift y) x

/-- `swap x[k] with x[r]`. -/
def swapAt {α : Type} [Inhabited α] (x : List α) (k r : Nat) : List α :=
  (x.set k (x.getD r default)).set r (x.getD k default)

/-- The final permutation: each pair {k, BRT[k]} with BRT[k] > k is swapped once (41_fft.md R165). -/
def permute {α : Type} [Inhabited α] (brt : Nat → Nat) (n : Nat) (x : List α) : List α :=
  (List.range n).foldl (fun y k => if k < brt k then swapAt y k (brt k) else y) x

/-- The fixed-point butterfly with twiddle c, s (41_fft.md R164): exact products and sums, one rounding each for
tr and ti, four results reduced to 48 bits; overflow when one of them did not fit (R166). -/
def fixedButterfly (c s : Int) : Butterfly Cplx := fun a b =>
  let tr := rshr (b.re * c + b.im * s) 16
  let ti := rshr (b.im * c - b.re * s) 16
  ((⟨wrap48 (a.re + tr), wrap48 (a.im + ti)⟩, ⟨wrap48 (a.re - tr), wrap48 (a.im - ti)⟩),
    !(fits48 (a.re - tr) && fits48 (a.im - ti) && fits48 (a.re + tr) && fits48 (a.im + ti)))

/-- The butterfly selected by t at exponent p: ROM index j = t * 2^(15 - p), the sine negated for the inverse
(41_fft.md R163, R164). -/
def romButterfly (inv : Bool) (p t : Nat) : Butterfly Cplx :=
  let j := t * 2 ^ (Config.pMax - p)
  fixedButterfly (twc j) (if inv then -(tws j) else tws j)

/-- Scaling by 1/N: `rshr(x, p)` of both parts (41_fft.md R167). -/
def scale (p : Nat) (x : Cplx) : Cplx := ⟨rshr x.re p, rshr x.im p⟩

/-- XFORM on a series of 2^p elements: stages, permutation, and for the forward transform the scaling (41_fft.md
R162). -/
def transformSeries (inv : Bool) (brt : Nat → Nat) (p : Nat) (x : List Cplx) : Series Cplx :=
  let y := runStages (romButterfly inv p) brt p (x, false)
  let z := permute brt (2 ^ p) y.1
  (if inv then z else z.map (scale p), y.2)

end Sys2Proof.Machine
end

