-- ==== Sys2Proof/Machine/ArrayOps.lean ====
section
/-! DEFINITION. The state changes of the array operations, each shared by a command and by the RUN phases that make
"exactly the state change of the corresponding command" (42_hps_detector.md R218), and by nothing else. -/

namespace Sys2Proof.Machine

/-- POPUL's loop: RE takes the samples times 65536, IM takes 0 (41_fft.md R158). -/
def State.populate (s : State) : State :=
  { s with
    mems := { s.mems with
      re := s.mems.re.fill s.regs.n (fun i => BitVec.ofInt Config.dataW (s.mems.blkAt i * (Config.one : Nat)))
      im := s.mems.im.fill s.regs.n (fun _ => 0#48) } }

/-- RE and IM as a series of N complex words (10_state.md R53). -/
def State.series (s : State) : List Cplx := (List.range s.regs.n).map (fun i => ⟨s.mems.reAt i, s.mems.imAt i⟩)

/-- The transformed series and its overflow (41_fft.md R162). -/
def State.transformed (s : State) (inv : Bool) : Series Cplx :=
  transformSeries inv s.mems.brtAt s.regs.power.toNat s.series

/-- XFORM: RE and IM take the transformed series, EVT.OVF is set on overflow (41_fft.md R162, R166). -/
def State.transform (s : State) (inv : Bool) : State :=
  let y := s.transformed inv
  ({ s with
    mems := { s.mems with
      re := s.mems.re.fill s.regs.n (fun i => BitVec.ofInt Config.dataW (y.1.getD i default).re)
      im := s.mems.im.fill s.regs.n (fun i => BitVec.ofInt Config.dataW (y.1.getD i default).im) } }).setEventIf .ovf y.2

/-- The magnitude of element i, isqrt of the exact sum of squares (41_fft.md R170). -/
def Mems.magnitudeAt (ms : Mems) (i : Nat) : Nat :=
  isqrt (ms.reAt i * ms.reAt i + ms.imAt i * ms.imAt i).toNat

/-- MAG: S1 takes the magnitudes of the lower half, SPEC_SEQ counts modulo 2^32, EVT.SPECTRUM is set (41_fft.md
R170). -/
def State.magnitude (s : State) : State :=
  ({ s with
    mems := { s.mems with s1 := s.mems.s1.fill s.regs.h (fun i => BitVec.ofNat Config.specW (s.mems.magnitudeAt i)) }
    regs := { s.regs with specSeq := s.regs.specSeq + 1#32 } }).setEvent .spectrum

/-- Word i of the downsampled copy of S1 by `f` (41_fft.md R173). -/
def State.downsampledAt (s : State) (f i : Nat) : SpectrumWord :=
  BitVec.ofNat Config.specW (downsampleAt s.mems.s1At s.regs.h f i)

/-- DOWNS into S2 (41_fft.md R174). -/
def State.downsampleS2 (s : State) (f : Nat) : State :=
  { s with mems := { s.mems with s2 := s.mems.s2.fill s.regs.h (s.downsampledAt f) } }

/-- DOWNS into S3 (41_fft.md R174). -/
def State.downsampleS3 (s : State) (f : Nat) : State :=
  { s with mems := { s.mems with s3 := s.mems.s3.fill s.regs.h (s.downsampledAt f) } }

/-- HPS: HPS_IDX takes the index of the maximal product inside the scan window (42_hps_detector.md R205). -/
def State.findFundamental (s : State) : State :=
  { s with
    regs := { s.regs with
      hpsIdx := BitVec.ofNat 16 (hpsArgmax s.mems.hpsProduct s.regs.minIdx.toNat s.regs.maxIdx.toNat) } }

end Sys2Proof.Machine
end

