-- ==== Sys2Proof/Machine/Detector.lean ====
section
/-! DEFINITION. The detector family: DINIT, HPS, SSF and the start of RUN (42_hps_detector.md). The phases of RUN
are in Machine/Run.lean. -/

namespace Sys2Proof.Machine

/-- A bound of the scan window in bins: floor(hz * N / (fs * 65536)), for hz >= 0 and fs > 0 (42_hps_detector.md
R201). -/
def windowBound (hz : Int) (n fs : Nat) : Nat := hz.toNat * n / (fs * Config.one)

/-- The lower bound of the scan window (42_hps_detector.md R201). -/
def Regs.windowLo (r : Regs) : Nat := windowBound r.minHzSigned r.n r.rate

/-- The upper bound of the scan window (42_hps_detector.md R201). -/
def Regs.windowHi (r : Regs) : Nat := windowBound r.maxHzSigned r.n r.rate

/-- DINIT's validity conditions, both CFG_WINDOW checks (42_hps_detector.md R201). -/
def Regs.windowOk (r : Regs) : Bool :=
  decide (r.rate ≠ 0) && decide (0 ≤ r.minHzSigned) && decide (0 ≤ r.maxHzSigned) &&
    decide (r.windowLo < r.windowHi) && decide (r.windowHi ≤ r.h)

/-- DINIT (42_hps_detector.md R201). -/
def execDinit (s : State) : Host.Outcome State Fault Refusal :=
  if !s.regs.ready then .next (s.raise .cmdNotReady)
  else if !s.regs.windowOk then .next (s.raise .cfgWindow)
  else
    .next
      ({ s with
        regs := { s.regs with
          minIdx := BitVec.ofNat 16 s.regs.windowLo
          maxIdx := BitVec.ofNat 16 s.regs.windowHi
          detReady := true } } : State).finish

/-- HPS (42_hps_detector.md R205): needs READY and DET_READY. -/
def execHps (s : State) : Host.Outcome State Fault Refusal :=
  if !(s.regs.ready && s.regs.detReady) then .next (s.raise .cmdNotReady)
  else .next s.findFundamental.finish

/-- SSF (42_hps_detector.md R208): both results are written whether or not the pair is accepted. -/
def execSsf (s : State) : Host.Outcome State Fault Refusal :=
  let r := ssFilter s.regs.arg0Signed s.regs.arg1Signed s.regs.threshSigned
  .next
    ({ s with
      regs := { s.regs with res0 := (BitVec.ofBool r.1).setWidth 32, res1 := BitVec.ofInt 32 r.2 } } : State).finish

/-- RUN (42_hps_detector.md R213): the engine's execution step only starts the sequencer; BUSY stays 1. -/
def execRun (s : State) : Host.Outcome State Fault Refusal :=
  if !(s.regs.ready && s.regs.detReady) then .next (s.raise .cmdNotReady)
  else .next { s with regs := { s.regs with running := true, seqPc := .top } }

end Sys2Proof.Machine
end

