-- ==== Sys2Proof/Machine/Fft.lean ====
section
/-! DEFINITION. The FFT family: INIT, POPUL, XFORM, MAG, DOWNS, B2F (41_fft.md). The checks stand in the order of
30_encoding.md R108: readiness, then the command's own argument checks. -/

namespace Sys2Proof.Machine

/-- INIT's effect for a valid exponent: BRT is built, BLK, RE, IM are cleared over N words and S1, S2, S3, RSPEC
over H words, BLK_LEN is 0, POWER and READY are bound (41_fft.md R152, R153). -/
def State.construct (s : State) (p : Nat) : State :=
  { s with
    mems := { s.mems with
      brt := s.mems.brt.fill (2 ^ p) (fun i => BitVec.ofNat 15 (bitrev p i))
      blk := s.mems.blk.fill (2 ^ p) (fun _ => 0#16)
      re := s.mems.re.fill (2 ^ p) (fun _ => 0#48)
      im := s.mems.im.fill (2 ^ p) (fun _ => 0#48)
      s1 := s.mems.s1.fill (2 ^ p / 2) (fun _ => 0#48)
      s2 := s.mems.s2.fill (2 ^ p / 2) (fun _ => 0#48)
      s3 := s.mems.s3.fill (2 ^ p / 2) (fun _ => 0#48)
      rspec := s.mems.rspec.fill (2 ^ p / 2) (fun _ => 0#48) }
    regs := { s.regs with blkLen := 0#16, power := BitVec.ofNat 4 p, ready := true } }

/-- INIT (41_fft.md R152): READY must be 0, the exponent between 0 and 15. -/
def execInit (s : State) : Host.Outcome State Fault Refusal :=
  if s.regs.ready then .next (s.raise .cmdReinit)
  else if s.regs.pwrSigned < 0 ∨ (Config.pMax : Nat) < s.regs.pwrSigned then .next (s.raise .cfgPower)
  else .next (s.construct s.regs.pwrSigned.toNat).finish

/-- POPUL (41_fft.md R158): the block's length must be N. -/
def execPopul (s : State) : Host.Outcome State Fault Refusal :=
  if !s.regs.ready then .next (s.raise .cmdNotReady)
  else if s.regs.blkLen.toNat ≠ s.regs.n then .next (s.raise .argLen)
  else .next s.populate.finish

/-- XFORM (41_fft.md R162); an overflow is not an error (R166). -/
def execXform (inv : Bool) (s : State) : Host.Outcome State Fault Refusal :=
  if !s.regs.ready then .next (s.raise .cmdNotReady)
  else .next (s.transform inv).finish

/-- MAG (41_fft.md R170). -/
def execMag (s : State) : Host.Outcome State Fault Refusal :=
  if !s.regs.ready then .next (s.raise .cmdNotReady)
  else .next s.magnitude.finish

/-- DOWNS S2, factor (41_fft.md R174): readiness first, then the factor must be positive. -/
def execDownsS2 (factor : Int) (s : State) : Host.Outcome State Fault Refusal :=
  if !s.regs.ready then .next (s.raise .cmdNotReady)
  else if factor ≤ 0 then .next (s.raise .cfgFactor)
  else .next (s.downsampleS2 factor.toNat).finish

/-- DOWNS S3, factor (41_fft.md R174). -/
def execDownsS3 (factor : Int) (s : State) : Host.Outcome State Fault Refusal :=
  if !s.regs.ready then .next (s.raise .cmdNotReady)
  else if factor ≤ 0 then .next (s.raise .cfgFactor)
  else .next (s.downsampleS3 factor.toNat).finish

/-- B2F (41_fft.md R172): no readiness; ARG1 must not be 0 and the result must fit Q15.16. -/
def execB2f (s : State) : Host.Outcome State Fault Refusal :=
  if s.regs.arg1Unsigned = 0 then .next (s.raise .argDiv0)
  else if 2 ^ 31 ≤ bin2freq s.regs.arg0Unsigned s.regs.arg1Unsigned s.regs.arg2Unsigned then
    .next (s.raise .argRange)
  else
    .next
      ({ s with
        regs := { s.regs with
          res0 := BitVec.ofNat 32
            (bin2freq s.regs.arg0Unsigned s.regs.arg1Unsigned s.regs.arg2Unsigned) } } : State).finish

end Sys2Proof.Machine
end

