-- ==== Sys2Proof/Machine/Fifo.lean ====
section
/-! DEFINITION. The FIFO family: PUSH, COMMIT, REMOVE (40_fifo.md). A beat that p_ready refuses, and a REMOVE that
waits, change nothing: the agent is blocked (R131, R134; assumption log 6). -/

namespace Sys2Proof.Machine

/-- `if WP < 32768: STG[WP] <- d` (40_fifo.md R132, R133). -/
def State.stage (s : State) (d : Int) : State :=
  if s.regs.wp.toNat < Config.nMax then
    { s with mems := { s.mems with stg := s.mems.stg.write s.regs.wp.toNat (BitVec.ofInt Config.sampleW d) } }
  else s

/-- `WP <- v` (10_state.md R48). -/
def State.setWp (s : State) (v : Nat) : State := { s with regs := { s.regs with wp := BitVec.ofNat 16 v } }

/-- PUSH d (40_fifo.md R132): staged and counted, the count sticking at 65535; flushed while READY = 0 and
STOP = 1. -/
def execPush (d : Int) (s : State) : Host.Outcome State Fault Refusal :=
  if !s.pReady false then .next s
  else if s.regs.ready then .next ((s.stage d).setWp (min (s.regs.wp.toNat + 1) Config.wpMax))
  else .next (s.setEvent .pDrop)

/-- A COMMIT of the wrong length: EVT.P_LENERR and the pulse on p_err, nothing to the engine (40_fifo.md R133). -/
def State.lengthError (s : State) : State :=
  { s.setEvent .pLenErr with ports := { s.ports with pErr := true } }

/-- The insert itself: SLOT takes STG[0..N-1], SLOT_LEN takes N, PENDING is set (40_fifo.md R133). -/
def State.insertBlock (s : State) : State :=
  { s with
    mems := { s.mems with slot := s.mems.slot.fill s.regs.n s.mems.stg.read }
    regs := { s.regs with slotLen := BitVec.ofNat 16 s.regs.n, pending := true } }

/-- COMMIT d (40_fifo.md R133): the block's length is checked, then the pending test; after any COMMIT WP = 0. -/
def execCommit (d : Int) (s : State) : Host.Outcome State Fault Refusal :=
  if !s.pReady true then .next s
  else if !s.regs.ready then .next ((s.setEvent .pDrop).setWp 0)
  else if s.regs.wp.toNat + 1 ≠ s.regs.n then .next ((s.stage d).lengthError.setWp 0)
  else if s.regs.pending then .next (((s.stage d).setEvent .pDrop).setWp 0)
  else .next ((s.stage d).insertBlock.setWp 0)

/-- REMOVE (40_fifo.md R134): needs READY; waits while PENDING = 0 and STOP = 0; takes the pending block, or is
cancelled by STOP with EVT.STOPPED. -/
def execRemove (s : State) : Host.Outcome State Fault Refusal :=
  if !s.regs.ready then .next (s.raise .cmdNotReady)
  else if s.regs.pending then .next s.removeBlock.finish
  else if s.regs.stop then .next (s.setEvent .stopped).finish
  else .next s

end Sys2Proof.Machine
end

