-- ==== Sys2Proof/Machine/NoteTable.lean ====
section
/-! DEFINITION. The note table and the functions over it: names and case folding, the nearest note, the tuning
direction (43_note.md R240 to R247). -/

namespace Sys2Proof.Machine

/-- The 36 entries (name, T[i] raw), C3 to B5 in ascending order (R242); a name is packed ASCII, its first
character in bits 7:0 (R241). -/
def noteTable : List (BitVec 24 × Nat) := [
  (0x003343#24, 8572764),
  (0x332343#24, 9082634),
  (0x003344#24, 9622651),
  (0x332344#24, 10194780),
  (0x003345#24, 10800988),
  (0x003346#24, 11443241),
  (0x332346#24, 12124160),
  (0x003347#24, 12845056),
  (0x332347#24, 13608550),
  (0x003341#24, 14417920),
  (0x332341#24, 15275131),
  (0x003342#24, 16183460),
  (0x003443#24, 17146184),
  (0x342343#24, 18165268),
  (0x003444#24, 19245302),
  (0x342344#24, 20390216),
  (0x003445#24, 21602632),
  (0x003446#24, 22887137),
  (0x342346#24, 24247665),
  (0x003447#24, 25690112),
  (0x342347#24, 27217101),
  (0x003441#24, 28835840),
  (0x342341#24, 30550262),
  (0x003442#24, 32366920),
  (0x003543#24, 34291712),
  (0x352343#24, 36331192),
  (0x003544#24, 38491259),
  (0x352344#24, 40779776),
  (0x003545#24, 43205263),
  (0x003546#24, 45774275),
  (0x352346#24, 48495985),
  (0x003547#24, 51379569),
  (0x352347#24, 54434857),
  (0x003541#24, 57671680),
  (0x352341#24, 61101179),
  (0x003542#24, 64734495)]

/-- NAME[i] (R240). -/
def noteName (i : Nat) : BitVec 24 := (noteTable.getD i (0#24, 0)).1

/-- T[i], Q15.16 raw (R240). -/
def noteFreq (i : Nat) : Int := ((noteTable.getD i (0#24, 0)).2 : Nat)

/-- Folding of one byte: 'a' to 'z' become 'A' to 'Z', every other byte stays (R243). -/
def foldByte (b : BitVec 8) : BitVec 8 :=
  if 0x61 ≤ b.toNat ∧ b.toNat ≤ 0x7A then b - 0x20#8 else b

/-- `fold(w)`: each of the four bytes folded (R243). -/
def foldName (w : BitVec 32) : BitVec 32 :=
  foldByte (w.extractLsb' 24 8) ++ foldByte (w.extractLsb' 16 8) ++ foldByte (w.extractLsb' 8 8) ++
    foldByte (w.extractLsb' 0 8)

/-- A name word in a 32-bit register: bits 31:24 zero (R241). -/
def nameWord (i : Nat) : BitVec 32 := (noteName i).setWidth 32

/-- The smallest index in 0..35 whose name matches `w`, if there is one (R247). -/
def noteByName (w : BitVec 32) : Option Nat :=
  (List.range Config.notes).find? (fun i => decide (foldName (nameWord i) = foldName w))

/-- The loop of `find_note` on [lo, hi] (R244): it ends at the smallest index with T[index] >= f. Each round
at least halves hi - lo, so the first argument, the number of rounds left, does not cut it short. -/
def insertionPoint : Nat → Nat → Nat → Int → Nat
  | 0, lo, _, _ => lo
  | rounds + 1, lo, hi, f =>
    if lo < hi then
      if noteFreq ((lo + hi) / 2) < f then insertionPoint rounds ((lo + hi) / 2 + 1) hi f
      else insertionPoint rounds lo ((lo + hi) / 2) f
    else lo

/-- Of the entries around the insertion point the nearer one, the lower on a tie (R244). -/
def nearerOf (ip : Nat) (f : Int) : Nat :=
  if noteFreq ip = f then ip
  else if f - noteFreq (ip - 1) ≤ noteFreq ip - f then ip - 1 else ip

/-- `find_note(f)` (R244): clamped to the extreme entries, otherwise the entry nearest to `f`. -/
def findNote (f : Int) : Nat :=
  if noteFreq 35 < f then 35
  else if f < noteFreq 0 then 0
  else nearerOf (insertionPoint Config.notes 0 35 f) f

/-- `tuning_dir_idx(i, f, eps)`: 1 InTune, 0 Flat, 2 Sharp (R246). -/
def tuningDir (i : Nat) (f eps : Int) : Nat :=
  if ((f - noteFreq i).natAbs : Int) < eps then 1
  else if f - noteFreq i < 0 then 0
  else 2

end Sys2Proof.Machine
end

