-- ==== Sys2Proof/Machine/Note.lean ====
section
/-! DEFINITION. The note family: FNOTE, TDIR (43_note.md). -/

namespace Sys2Proof.Machine

/-- FNOTE (43_note.md R245): RES0 takes the packed name, RES1 the index. -/
def execFnote (s : State) : Host.Outcome State Fault Refusal :=
  if s.regs.arg0Signed < 0 then .next (s.raise .argNegFreq)
  else
    .next
      ({ s with
        regs := { s.regs with
          res0 := nameWord (findNote s.regs.arg0Signed)
          res1 := BitVec.ofNat 32 (findNote s.regs.arg0Signed) } } : State).finish

/-- TDIR (43_note.md R247): the frequency is checked before the name; RES1 is not written. -/
def execTdir (s : State) : Host.Outcome State Fault Refusal :=
  if s.regs.arg1Signed < 0 then .next (s.raise .argNegFreq)
  else
    match noteByName s.regs.arg0 with
    | none => .next (s.raise .argNote)
    | some i =>
      .next
        ({ s with
          regs := { s.regs with
            res0 := BitVec.ofNat 32 (tuningDir i s.regs.arg1Signed s.regs.epsilonSigned) } } : State).finish

end Sys2Proof.Machine
end

