-- ==== Sys2Proof/Syntax.lean ====
section
/-! DEFINITION. The instructions: the 14 engine commands and the two producer-port operations (00_scope.md R3,
30_encoding.md R105, R110), one constructor for each row of spec/opcode_table.json. -/

namespace Sys2Proof

/-- One constructor per row of spec/opcode_table.json. An operand is the integer the spec calls the operand
value (R104: `sext_16(factor)`; R110: `sext_16(p_data)`); `Instr.wellFormed` bounds it. -/
inductive Instr where
  /-- NOP (44_control.md R260). -/
  | nop
  /-- INIT: construct the FFT engine for the exponent in PWR_CFG (41_fft.md R152). -/
  | init
  /-- DINIT: derive the scan window (42_hps_detector.md R201). -/
  | dinit
  /-- REMOVE: take the pending block out of the FIFO, waiting for one (40_fifo.md R134). -/
  | remove
  /-- POPUL: load BLK into RE, zero IM (41_fft.md R158). -/
  | popul
  /-- XFORM: the transform, inverse when `inv` (41_fft.md R162). -/
  | xform (inv : Bool)
  /-- MAG: the magnitude spectrum into S1 (41_fft.md R170). -/
  | mag
  /-- DOWNS with dst = 0x02: the downsampled copy of S1 into S2 (41_fft.md R174). -/
  | downsS2 (factor : Int)
  /-- DOWNS with dst = 0x03: the downsampled copy of S1 into S3 (41_fft.md R174). -/
  | downsS3 (factor : Int)
  /-- HPS: the harmonic-product maximum (42_hps_detector.md R205). -/
  | hps
  /-- B2F: bin index to frequency (41_fft.md R172). -/
  | b2f
  /-- SSF: the steady-state filter (42_hps_detector.md R208). -/
  | ssf
  /-- FNOTE: the note nearest to a frequency (43_note.md R245). -/
  | fnote
  /-- TDIR: flat, in tune or sharp against a named note (43_note.md R247). -/
  | tdir
  /-- RUN: start the detection cycle (42_hps_detector.md R213). -/
  | run
  /-- PUSH: a producer beat with p_last = 0 (40_fifo.md R132). -/
  | push (d : Int)
  /-- COMMIT: a producer beat with p_last = 1 (40_fifo.md R133). -/
  | commit (d : Int)
  deriving DecidableEq, Repr

/-- The word of an instruction: 32 bits written to CMD (R100), or a 17-bit producer beat
`{p_last, p_data}` (R110). -/
inductive Encoding where
  | command (w : CommandWord)
  | beat (b : BitVec 17)
  deriving DecidableEq, Repr

/-- Why a command word is illegal, the three cases of 30_encoding.md R107. Each is executed as
CommandError(CMD_ILLEGAL). -/
inductive Illegal where
  /-- (a) the opcode is none of the 14 of R105. -/
  | opcode
  /-- (b) a `zero` field of the format is not zero. -/
  | zeroField
  /-- (c) DOWNS with a dst other than 0x02 or 0x03. -/
  | dst
  deriving DecidableEq, Repr

end Sys2Proof
end

