-- ==== Sys2Proof/Machine/Dispatch.lean ====
section
/-! DEFINITION. One arm per instruction. -/

namespace Sys2Proof.Machine

def exec (i : Instr) (s : State) : Host.Outcome State Fault Refusal :=
  match i with
  | .nop => Sys2Proof.Machine.execNop s
  | .init => Sys2Proof.Machine.execInit s
  | .dinit => Sys2Proof.Machine.execDinit s
  | .remove => Sys2Proof.Machine.execRemove s
  | .popul => Sys2Proof.Machine.execPopul s
  | .xform inv => Sys2Proof.Machine.execXform inv s
  | .mag => Sys2Proof.Machine.execMag s
  | .downsS2 factor => Sys2Proof.Machine.execDownsS2 factor s
  | .downsS3 factor => Sys2Proof.Machine.execDownsS3 factor s
  | .hps => Sys2Proof.Machine.execHps s
  | .b2f => Sys2Proof.Machine.execB2f s
  | .ssf => Sys2Proof.Machine.execSsf s
  | .fnote => Sys2Proof.Machine.execFnote s
  | .tdir => Sys2Proof.Machine.execTdir s
  | .run => Sys2Proof.Machine.execRun s
  | .push d => Sys2Proof.Machine.execPush d s
  | .commit d => Sys2Proof.Machine.execCommit d s

end Sys2Proof.Machine
end

