-- ==== Sys2Proof/Decode.lean ====
section
/-! DEFINITION. The decoder of command words and producer beats (30_encoding.md R100 to R107, R110), total on any
bits and rejecting by name, and after it the encoder written from the same tables. -/

namespace Sys2Proof

/-- The field `op`, bits 31:24 (R100). -/
def opField (w : CommandWord) : BitVec 8 := w.extractLsb' 24 8

/-- The field `zero` of format Z, bits 23:0 (R102). -/
def zeroFieldZ (w : CommandWord) : BitVec 24 := w.extractLsb' 0 24

/-- The field `zero` of format X, bits 23:1 (R103). -/
def zeroFieldX (w : CommandWord) : BitVec 23 := w.extractLsb' 1 23

/-- The field `inv` of format X, bit 0 (R103). -/
def invField (w : CommandWord) : Bool := w.getLsbD 0

/-- The field `dst` of format D, bits 23:16 (R104). -/
def dstField (w : CommandWord) : BitVec 8 := w.extractLsb' 16 8

/-- The field `factor` of format D, bits 15:0 (R104). -/
def factorField (w : CommandWord) : BitVec 16 := w.extractLsb' 0 16

/-- A word of format Z is legal only with its `zero` field zero (R102, R107 b). -/
def decodeZ (i : Instr) (w : CommandWord) : Except Illegal Instr :=
  if zeroFieldZ w = 0#24 then .ok i else .error .zeroField

/-- Format X, XFORM only (R103). -/
def decodeX (w : CommandWord) : Except Illegal Instr :=
  if zeroFieldX w = 0#23 then .ok (.xform (invField w)) else .error .zeroField

/-- Format D, DOWNS only: `dst` selects S2 or S3, the factor is a signed immediate (R104, R107 c). -/
def decodeD (w : CommandWord) : Except Illegal Instr :=
  if dstField w = 0x02#8 then .ok (.downsS2 (factorField w).toInt)
  else if dstField w = 0x03#8 then .ok (.downsS3 (factorField w).toInt)
  else .error .dst

/-- The opcode map (R105): the decoder looks at `op` alone to choose the format (R100). -/
def decodeCommand (w : CommandWord) : Except Illegal Instr :=
  match (opField w).toNat with
  | 0x00 => decodeZ .nop w
  | 0x01 => decodeZ .init w
  | 0x02 => decodeZ .dinit w
  | 0x10 => decodeZ .remove w
  | 0x11 => decodeZ .popul w
  | 0x12 => decodeX w
  | 0x13 => decodeZ .mag w
  | 0x14 => decodeD w
  | 0x15 => decodeZ .hps w
  | 0x16 => decodeZ .b2f w
  | 0x17 => decodeZ .ssf w
  | 0x20 => decodeZ .fnote w
  | 0x21 => decodeZ .tdir w
  | 0x30 => decodeZ .run w
  | _ => .error .opcode

/-- A producer beat `{p_last, p_data}`: every pattern is legal (R110). -/
def decodeBeat (b : BitVec 17) : Instr :=
  if b.getLsbD 16 then .commit (b.extractLsb' 0 16).toInt else .push (b.extractLsb' 0 16).toInt

/-- Decoding of either kind of word. -/
def decode : Encoding → Except Illegal Instr
  | .command w => decodeCommand w
  | .beat b => .ok (decodeBeat b)

/-- The instruction read from an opcode-table row's bits. A row of at most 24 bits is a 17-bit producer beat in
whole bytes, whose seven spare bits are zero; any wider row is a 32-bit command word (R100, R110; assumption
log 14). The buses carry whole words, so no byte order enters (20_memory.md R83). -/
def decodeTableWord (nbits w : Nat) : Option Instr :=
  if nbits ≤ 24 then
    if w < 2 ^ 17 then some (decodeBeat (BitVec.ofNat 17 w)) else none
  else if w < 2 ^ 32 then
    match decodeCommand (BitVec.ofNat Config.cmdW w) with
    | .ok i => some i
    | .error _ => none
  else none

/-- A word of format Z (R102). -/
def encodeZ (op : BitVec 8) : Encoding := .command (op ++ 0#24)

/-- A word of format X (R103). -/
def encodeX (op : BitVec 8) (inv : Bool) : Encoding := .command (op ++ 0#23 ++ BitVec.ofBool inv)

/-- A word of format D: the assembler stores `zext_16(factor)` (R104, R111). -/
def encodeD (op dst : BitVec 8) (factor : Int) : Encoding :=
  .command (op ++ dst ++ BitVec.ofInt 16 factor)

/-- A producer beat (R110). -/
def encodeP (last : Bool) (d : Int) : Encoding := .beat (BitVec.ofBool last ++ BitVec.ofInt 16 d)

/-- The word of a well-formed instruction (R102 to R105, R110). -/
def encode : Instr → Encoding
  | .nop => encodeZ 0x00#8
  | .init => encodeZ 0x01#8
  | .dinit => encodeZ 0x02#8
  | .remove => encodeZ 0x10#8
  | .popul => encodeZ 0x11#8
  | .xform inv => encodeX 0x12#8 inv
  | .mag => encodeZ 0x13#8
  | .downsS2 factor => encodeD 0x14#8 0x02#8 factor
  | .downsS3 factor => encodeD 0x14#8 0x03#8 factor
  | .hps => encodeZ 0x15#8
  | .b2f => encodeZ 0x16#8
  | .ssf => encodeZ 0x17#8
  | .fnote => encodeZ 0x20#8
  | .tdir => encodeZ 0x21#8
  | .run => encodeZ 0x30#8
  | .push d => encodeP false d
  | .commit d => encodeP true d

end Sys2Proof
end

