-- ==== Sys2Proof/Machine/HostBus.lean ====
section
/-! DEFINITION. The host bus: address map, which accesses are refused, reads and writes (20_memory.md R70 to R81,
10_state.md R47). -/

namespace Sys2Proof.Machine

/-- The registers on the bus, in the order of their addresses 0x00 to 0x1F (10_state.md R47). -/
inductive HostReg where
  | id | ctrl | status | evt | irqEn | cmd | errCode | errInfo
  | pwrCfg | sampleRate | minHz | maxHz | thresh | epsilon | minIdx | maxIdx
  | arg0 | arg1 | arg2 | res0 | res1 | blkLen | fA | fB
  | hpsIdx | resName | resIdx | resFreq | resDir | resSeq | specSeq | discCnt
  deriving DecidableEq, Repr

/-- The memory windows on the bus (20_memory.md R75). -/
inductive Window where
  | blk | re | im | brt | s1 | s2 | s3 | rspec | twc | tws
  deriving DecidableEq, Repr

/-- What a word address names (20_memory.md R75). -/
inductive Target where
  | reg (r : HostReg)
  | unmapped
  | window (w : Window) (i : Nat)
  deriving DecidableEq, Repr

/-- The register at an address below 0x20 (10_state.md R47). -/
def hostRegAt : Nat → Option HostReg
  | 0x00 => some .id
  | 0x01 => some .ctrl
  | 0x02 => some .status
  | 0x03 => some .evt
  | 0x04 => some .irqEn
  | 0x05 => some .cmd
  | 0x06 => some .errCode
  | 0x07 => some .errInfo
  | 0x08 => some .pwrCfg
  | 0x09 => some .sampleRate
  | 0x0A => some .minHz
  | 0x0B => some .maxHz
  | 0x0C => some .thresh
  | 0x0D => some .epsilon
  | 0x0E => some .minIdx
  | 0x0F => some .maxIdx
  | 0x10 => some .arg0
  | 0x11 => some .arg1
  | 0x12 => some .arg2
  | 0x13 => some .res0
  | 0x14 => some .res1
  | 0x15 => some .blkLen
  | 0x16 => some .fA
  | 0x17 => some .fB
  | 0x18 => some .hpsIdx
  | 0x19 => some .resName
  | 0x1A => some .resIdx
  | 0x1B => some .resFreq
  | 0x1C => some .resDir
  | 0x1D => some .resSeq
  | 0x1E => some .specSeq
  | 0x1F => some .discCnt
  | _ => none

/-- The address map (20_memory.md R75): index i of a window is at base + i. -/
def targetOf (a : Addr) : Target :=
  if a.toNat < 0x08000 then
    match hostRegAt a.toNat with
    | some r => .reg r
    | none => .unmapped
  else if a.toNat < 0x10000 then .window .blk (a.toNat - 0x08000)
  else if a.toNat < 0x18000 then .window .re (a.toNat - 0x10000)
  else if a.toNat < 0x20000 then .window .im (a.toNat - 0x18000)
  else if a.toNat < 0x28000 then .window .brt (a.toNat - 0x20000)
  else if a.toNat < 0x2C000 then .window .s1 (a.toNat - 0x28000)
  else if a.toNat < 0x30000 then .window .s2 (a.toNat - 0x2C000)
  else if a.toNat < 0x34000 then .window .s3 (a.toNat - 0x30000)
  else if a.toNat < 0x38000 then .window .rspec (a.toNat - 0x34000)
  else if a.toNat < 0x3C000 then .window .twc (a.toNat - 0x38000)
  else .window .tws (a.toNat - 0x3C000)

/-- May the host write the register (10_state.md R47; the others are read-only, 20_memory.md R74 case 2)?
F_A, F_B and HPS_IDX are read-only by R74, R44 and R47, though R95 gives them to the host for writing while BUSY = 0:
DESIGN CHOICE, unsafe (assumption log 28). -/
def HostReg.writable : HostReg → Bool
  | .id => false
  | .ctrl => true
  | .status => false
  | .evt => true
  | .irqEn => true
  | .cmd => true
  | .errCode => false
  | .errInfo => false
  | .pwrCfg => true
  | .sampleRate => true
  | .minHz => true
  | .maxHz => true
  | .thresh => true
  | .epsilon => true
  | .minIdx => false
  | .maxIdx => false
  | .arg0 => true
  | .arg1 => true
  | .arg2 => true
  | .res0 => false
  | .res1 => false
  | .blkLen => true
  | .fA => false
  | .fB => false
  | .hpsIdx => false
  | .resName => false
  | .resIdx => false
  | .resFreq => false
  | .resDir => false
  | .resSeq => false
  | .specSeq => false
  | .discCnt => false

/-- May the host write the register while BUSY = 1 (20_memory.md R80, R81)? -/
def HostReg.writableWhileBusy (r : HostReg) : Bool :=
  decide (r = .ctrl) || decide (r = .evt) || decide (r = .irqEn)

/-- May the host write the window (20_memory.md R74 case 2, R75)? -/
def Window.writable : Window → Bool
  | .blk | .re | .im | .s1 | .s2 | .s3 => true
  | .brt | .rspec | .twc | .tws => false

/-- The window's valid length: N or H while READY = 1 and nothing before (20_memory.md R78); the ROMs always
(R77). An access at or above it is refused. -/
def Regs.validLength (r : Regs) : Window → Nat
  | .blk | .re | .im | .brt => if r.ready then r.n else 0
  | .s1 | .s2 | .s3 | .rspec => if r.ready then r.h else 0
  | .twc | .tws => Config.hMax

/-- Is a read refused (20_memory.md R74 cases 1, 4, 5)? -/
def Regs.readRefused (r : Regs) : Target → Bool
  | .reg _ => false
  | .unmapped => true
  | .window w i => decide (r.validLength w ≤ i)

/-- Is a write refused (20_memory.md R74), a write to CMD with a non-zero bit in 63:32 included (30_encoding.md
R114)? -/
def Regs.writeRefused (r : Regs) (v : BusData) : Target → Bool
  | .reg h => !h.writable || (r.busy && !h.writableWhileBusy) || (decide (h = .cmd) && decide (v.extractLsb' 32 32 ≠ 0#32))
  | .unmapped => true
  | .window w i => !w.writable || r.busy || decide (r.validLength w ≤ i)

/-- STATUS, the live copies of other state (10_state.md R23): POWER 19:16, SEQ_PC 12:8, PENDING 4, RUNNING 3, BUSY
2, DET_READY 1, READY 0. -/
def Regs.status (r : Regs) : BitVec 20 :=
  r.power ++ 0#3 ++ r.seqPc.number ++ 0#3 ++ BitVec.ofBool r.pending ++ BitVec.ofBool r.running ++
    BitVec.ofBool r.busy ++ BitVec.ofBool r.detReady ++ BitVec.ofBool r.ready

/-- The register's pattern zero-extended to 64 bits (10_state.md R30). SRST always reads 0 (R22). -/
def Regs.readReg (r : Regs) : HostReg → BusData
  | .id => Config.idWord.setWidth Config.busW
  | .ctrl => (0#1 ++ BitVec.ofBool r.stop).setWidth Config.busW
  | .status => r.status.setWidth Config.busW
  | .evt => r.evt.setWidth Config.busW
  | .irqEn => r.irqEn.setWidth Config.busW
  | .cmd => r.cmdreg.setWidth Config.busW
  | .errCode => r.errCode.setWidth Config.busW
  | .errInfo => r.errInfo.setWidth Config.busW
  | .pwrCfg => r.pwrCfg.setWidth Config.busW
  | .sampleRate => r.sampleRate.setWidth Config.busW
  | .minHz => r.minHz.setWidth Config.busW
  | .maxHz => r.maxHz.setWidth Config.busW
  | .thresh => r.thresh.setWidth Config.busW
  | .epsilon => r.epsilon.setWidth Config.busW
  | .minIdx => r.minIdx.setWidth Config.busW
  | .maxIdx => r.maxIdx.setWidth Config.busW
  | .arg0 => r.arg0.setWidth Config.busW
  | .arg1 => r.arg1.setWidth Config.busW
  | .arg2 => r.arg2.setWidth Config.busW
  | .res0 => r.res0.setWidth Config.busW
  | .res1 => r.res1.setWidth Config.busW
  | .blkLen => r.blkLen.setWidth Config.busW
  | .fA => r.fA.setWidth Config.busW
  | .fB => r.fB.setWidth Config.busW
  | .hpsIdx => r.hpsIdx.setWidth Config.busW
  | .resName => r.resName.setWidth Config.busW
  | .resIdx => r.resIdx.setWidth Config.busW
  | .resFreq => r.resFreq.setWidth Config.busW
  | .resDir => r.resDir.setWidth Config.busW
  | .resSeq => r.resSeq.setWidth Config.busW
  | .specSeq => r.specSeq.setWidth Config.busW
  | .discCnt => r.discCnt.setWidth Config.busW

/-- The pattern of a signed ROM word on the bus (20_memory.md R76). -/
def twiddlePattern (v : Int) : TwiddleWord := BitVec.ofInt Config.twW v

/-- A window word's pattern zero-extended to 64 bits (20_memory.md R76). -/
def Mems.readWindow (ms : Mems) (w : Window) (i : Nat) : BusData :=
  match w with
  | .blk => (ms.blk.read i).setWidth Config.busW
  | .re => (ms.re.read i).setWidth Config.busW
  | .im => (ms.im.read i).setWidth Config.busW
  | .brt => (ms.brt.read i).setWidth Config.busW
  | .s1 => (ms.s1.read i).setWidth Config.busW
  | .s2 => (ms.s2.read i).setWidth Config.busW
  | .s3 => (ms.s3.read i).setWidth Config.busW
  | .rspec => (ms.rspec.read i).setWidth Config.busW
  | .twc => (twiddlePattern (twc i)).setWidth Config.busW
  | .tws => (twiddlePattern (tws i)).setWidth Config.busW

/-- The word an accepted read returns (20_memory.md R72). -/
def State.readTarget (s : State) : Target → BusData
  | .reg r => s.regs.readReg r
  | .unmapped => 0#64
  | .window w i => s.mems.readWindow w i

/-- A write to CTRL: bit 1 set is the soft reset whatever bit 0 is (44_control.md R263), otherwise bit 0 is STOP
(R261, R262). -/
def State.writeCtrl (s : State) (v : BusData) : State :=
  if v.getLsbD 1 then s.softReset else { s with regs := { s.regs with stop := v.getLsbD 0 } }

/-- A write to CMD issues the command (30_encoding.md R101). -/
def State.issue (s : State) (w : CommandWord) : State := { s with regs := { s.regs with cmdreg := w, busy := true } }

/-- An accepted write to a register: the low W bits of the data (10_state.md R30), with the side effects of
20_memory.md R73. A read-only register is never written (R74). -/
def State.writeReg (s : State) (v : BusData) : HostReg → State
  | .ctrl => s.writeCtrl v
  | .evt => s.clearEvents (v.setWidth 9)
  | .irqEn => { s with regs := { s.regs with irqEn := v.setWidth 9 } }
  | .cmd => s.issue (v.setWidth Config.cmdW)
  | .pwrCfg => { s with regs := { s.regs with pwrCfg := v.setWidth 8 } }
  | .sampleRate => { s with regs := { s.regs with sampleRate := v.setWidth Config.rateW, detReady := false } }
  | .minHz => { s with regs := { s.regs with minHz := v.setWidth Config.freqW, detReady := false } }
  | .maxHz => { s with regs := { s.regs with maxHz := v.setWidth Config.freqW, detReady := false } }
  | .thresh => { s with regs := { s.regs with thresh := v.setWidth Config.freqW } }
  | .epsilon => { s with regs := { s.regs with epsilon := v.setWidth Config.freqW } }
  | .arg0 => { s with regs := { s.regs with arg0 := v.setWidth 32 } }
  | .arg1 => { s with regs := { s.regs with arg1 := v.setWidth 32 } }
  | .arg2 => { s with regs := { s.regs with arg2 := v.setWidth 32 } }
  | .blkLen => { s with regs := { s.regs with blkLen := v.setWidth 16 } }
  | .id => s
  | .status => s
  | .errCode => s
  | .errInfo => s
  | .minIdx => s
  | .maxIdx => s
  | .res0 => s
  | .res1 => s
  | .fA => s
  | .fB => s
  | .hpsIdx => s
  | .resName => s
  | .resIdx => s
  | .resFreq => s
  | .resDir => s
  | .resSeq => s
  | .specSeq => s
  | .discCnt => s

/-- An accepted write to a window word: the low W bits of the data (20_memory.md R76). A read-only window is never
written (R74). -/
def Mems.writeWindow (ms : Mems) (v : BusData) (w : Window) (i : Nat) : Mems :=
  match w with
  | .blk => { ms with blk := ms.blk.write i (v.setWidth Config.sampleW) }
  | .re => { ms with re := ms.re.write i (v.setWidth Config.dataW) }
  | .im => { ms with im := ms.im.write i (v.setWidth Config.dataW) }
  | .s1 => { ms with s1 := ms.s1.write i (v.setWidth Config.specW) }
  | .s2 => { ms with s2 := ms.s2.write i (v.setWidth Config.specW) }
  | .s3 => { ms with s3 := ms.s3.write i (v.setWidth Config.specW) }
  | .brt => ms
  | .rspec => ms
  | .twc => ms
  | .tws => ms

/-- The effect of an accepted write (20_memory.md R73). -/
def State.writeTarget (s : State) (v : BusData) : Target → State
  | .reg r => s.writeReg v r
  | .unmapped => s
  | .window w i => { s with mems := s.mems.writeWindow v w i }

/-- The response of the access made in this step. -/
def State.respond (s : State) (r : BusResponse) : State := { s with ports := { s.ports with hResp := some r } }

/-- `HostRead(a)` (20_memory.md R72): refused it answers ERROR with data 0; it never changes the block's state. -/
def State.hostRead (s : State) (a : Addr) : State :=
  if s.regs.readRefused (targetOf a) then s.respond { err := true, rdata := some 0#64 }
  else s.respond { err := false, rdata := some (s.readTarget (targetOf a)) }

/-- `HostWrite(a, v)` (20_memory.md R73): refused it answers ERROR and changes nothing. -/
def State.hostWrite (s : State) (a : Addr) (v : BusData) : State :=
  if s.regs.writeRefused v (targetOf a) then s.respond { err := true, rdata := none }
  else (s.writeTarget v (targetOf a)).respond { err := false, rdata := none }

/-- One host access. -/
def State.hostAccess (s : State) : HostReq → State
  | .read a => s.hostRead a
  | .write a v => s.hostWrite a v

end Sys2Proof.Machine
end

