-- ==== Sys2Proof/Machine/Run.lean ====
section
/-! DEFINITION. The phases of RUN (42_hps_detector.md R214 to R222): one engine step each, ending with its successor
in SEQ_PC. -/

namespace Sys2Proof.Machine

/-- TOP: STOP is polled (R215). -/
def phaseTop (s : State) : State := if s.regs.stop then s.exitRun else s.goTo .remA

/-- REM_A and REM_B: a pending block is taken; with none pending STOP ends the command, and otherwise the engine
is blocked and nothing changes (R216; assumption log 6). -/
def phaseRem (successor : Phase) (s : State) : State :=
  if s.regs.pending then s.removeBlock.goTo successor
  else if s.regs.stop then s.exitRun
  else s

/-- POP_A and POP_B: POPUL's state change, its error handled inside RUN (R217, 60_exceptions.md R284). -/
def phasePop (successor : Phase) (s : State) : State :=
  if s.regs.blkLen.toNat ≠ s.regs.n then s.raiseInRun .argLen else s.populate.goTo successor

/-- FFT_A and FFT_B: that of XFORM F (R218). -/
def phaseFft (successor : Phase) (s : State) : State := (s.transform false).goTo successor

/-- MAG_A and MAG_B: that of MAG (R218). -/
def phaseMag (successor : Phase) (s : State) : State := s.magnitude.goTo successor

/-- DS2_A and DS2_B: that of DOWNS S2, 2 (R218). -/
def phaseDs2 (successor : Phase) (s : State) : State := (s.downsampleS2 2).goTo successor

/-- DS3_A and DS3_B: that of DOWNS S3, 3 (R218). -/
def phaseDs3 (successor : Phase) (s : State) : State := (s.downsampleS3 3).goTo successor

/-- HPS_A and HPS_B (R219). -/
def phaseHps (successor : Phase) (s : State) : State := s.findFundamental.goTo successor

/-- The frequency of HPS_IDX with numBins = N (R219). -/
def Regs.fundamentalFreq (r : Regs) : Freq := BitVec.ofNat Config.freqW (bin2freq r.rate r.n r.hpsIdx.toNat)

/-- B2F_A (R219). -/
def phaseB2fA (s : State) : State :=
  ({ s with regs := { s.regs with fA := s.regs.fundamentalFreq } } : State).goTo .remB

/-- B2F_B (R219). -/
def phaseB2fB (s : State) : State :=
  ({ s with regs := { s.regs with fB := s.regs.fundamentalFreq } } : State).goTo .filt

/-- The steady-state filter on F_A and F_B (R220, R221). -/
def Regs.filtered (r : Regs) : Bool × Int := ssFilter r.fA.toInt r.fB.toInt r.threshSigned

/-- FILT: an accepted pair goes on to EMIT, a rejected one is discarded silently (R220). -/
def phaseFilt (s : State) : State := if s.regs.filtered.1 then s.goTo .emit else s.discardCycle

/-- The detection-result registers take the resolved average; RSPEC takes S1; RES_SEQ counts modulo 2^32 (R221). -/
def State.publish (s : State) (idx : Nat) (avg : Int) : State :=
  { s with
    mems := { s.mems with rspec := s.mems.rspec.fill s.regs.h s.mems.s1.read }
    regs := { s.regs with
      resName := noteName idx
      resIdx := BitVec.ofNat 6 idx
      resFreq := BitVec.ofInt Config.freqW avg
      resDir := BitVec.ofNat 2 (tuningDir idx avg s.regs.epsilonSigned)
      resSeq := s.regs.resSeq + 1#32 } }

/-- EMIT: RES_OVR when a result is still unread, then the result is published and RESULT set (R221). -/
def phaseEmit (s : State) : State :=
  ((((s.setEventIf .resOvr (s.regs.flag .result)).publish (findNote s.regs.filtered.2)
    s.regs.filtered.2).setEvent .result).goTo .top)

/-- The engine step of a running RUN: the phase named by SEQ_PC (60_exceptions.md R281, 42_hps_detector.md R214). -/
def runPhase (s : State) : Host.Outcome State Fault Refusal :=
  match s.regs.seqPc with
  | .idle => .fault .idlePhase
  | .top => .next (phaseTop s)
  | .remA => .next (phaseRem .popA s)
  | .popA => .next (phasePop .fftA s)
  | .fftA => .next (phaseFft .magA s)
  | .magA => .next (phaseMag .ds2A s)
  | .ds2A => .next (phaseDs2 .ds3A s)
  | .ds3A => .next (phaseDs3 .hpsA s)
  | .hpsA => .next (phaseHps .b2fA s)
  | .b2fA => .next (phaseB2fA s)
  | .remB => .next (phaseRem .popB s)
  | .popB => .next (phasePop .fftB s)
  | .fftB => .next (phaseFft .magB s)
  | .magB => .next (phaseMag .ds2B s)
  | .ds2B => .next (phaseDs2 .ds3B s)
  | .ds3B => .next (phaseDs3 .hpsB s)
  | .hpsB => .next (phaseHps .b2fB s)
  | .b2fB => .next (phaseB2fB s)
  | .filt => .next (phaseFilt s)
  | .emit => .next (phaseEmit s)

end Sys2Proof.Machine
end

