-- ==== Sys2Proof/Machine/Fetch.lean ====
section
/-! DEFINITION. What the next step is: whose turn it is (20_memory.md R90), which instruction the engine or the
producer port runs (60_exceptions.md R281, R300), and what a step that runs none does. -/

namespace Sys2Proof.Machine

/-- The next step: an instruction run on a state, or a step that runs no instruction. -/
inductive Fetched where
  /-- A command in CMDREG, or an accepted beat. -/
  | run (i : Instr) (s : State)
  /-- A host access, a phase of RUN, an illegal word's error, an edge of rst, or a turn whose agent is not
  enabled. -/
  | done (o : Host.Outcome State Fault Refusal)
  deriving Repr

/-- Whose turn it is; when the list is used up the engine moves (assumption log 4). -/
def State.nextTurn (s : State) : Turn := s.env.turns.headD .engine

/-- The state in which the turn is taken: the turn is used up and the outputs are quiet until the step drives them
(assumption log 7). -/
def State.takeTurn (s : State) : State :=
  { s with ports := Ports.quiet, env := { s.env with turns := s.env.turns.tail } }

/-- The engine step (60_exceptions.md R281): idle, a phase of RUN, an illegal word's CMD_ILLEGAL, or the command. -/
def fetchEngine (s : State) : Fetched :=
  if !s.regs.busy then .done (.next s)
  else if s.regs.running then .done (runPhase s)
  else
    match decodeCommand s.regs.cmdreg with
    | .error _ => .done (.next (s.raise .cmdIllegal))
    | .ok i => .run i s

/-- The beat after the one presented becomes the next. -/
def State.dropBeat (s : State) : State := { s with env := { s.env with beats := s.env.beats.tail } }

/-- The producer's step: the presented beat is consumed when p_ready = 1, and stays presented otherwise
(40_fifo.md R131). -/
def fetchProducer (s : State) : Fetched :=
  match s.env.beats with
  | [] => .done (.next s)
  | b :: _ => if s.pReady (b.getLsbD 16) then .run (decodeBeat b) s.dropBeat else .done (.next s)

/-- The host's step: its next access, accepted but while rst = 1 (60_exceptions.md R300, 70_reset_and_hazards.md
R310). -/
def hostTurn (s : State) : State :=
  if s.hReady then
    match s.env.hostQ with
    | [] => s
    | r :: rest => ({ s with env := { s.env with hostQ := rest } } : State).hostAccess r
  else s

/-- rst rises: the outputs are quiet and no agent takes a step until it falls (70_reset_and_hazards.md R310). -/
def State.rstRise (s : State) : State := { s with env := { s.env with rst := true } }

/-- rst falls: the registers are at their reset values and the memories hold whatever they came up with
(70_reset_and_hazards.md R310, 10_state.md R61). Without rst = 1 before it there is no falling edge and nothing
changes (assumption log 9). -/
def State.rstFall (s : State) (contents : Mems) : State :=
  if s.env.rst then { s with regs := Regs.reset, mems := contents, env := { s.env with rst := false } } else s

/-- The next step of the machine. -/
def fetch (s : State) : Fetched :=
  match s.nextTurn with
  | .engine => if s.env.rst then .done (.next s.takeTurn) else fetchEngine s.takeTurn
  | .producer => fetchProducer s.takeTurn
  | .host => .done (.next (hostTurn s.takeTurn))
  | .rstRise => .done (.next s.takeTurn.rstRise)
  | .rstFall contents => .done (.next (s.takeTurn.rstFall contents))

/-- CMDREG holds `w`, accepted and not yet executed, and it is the engine's turn (30_encoding.md R101; assumption
log 13). -/
def State.placeCommand (s : State) (w : CommandWord) : State :=
  { s with
    regs := { s.regs with cmdreg := w, busy := true, running := false, seqPc := .idle }
    env := { s.env with turns := .engine :: s.env.turns, rst := false } }

/-- The producer presents `b`, and it is its turn (20_memory.md R85; assumption log 13). -/
def State.placeBeat (s : State) (b : BitVec 17) : State :=
  { s with env := { s.env with turns := .producer :: s.env.turns, beats := b :: s.env.beats, rst := false } }

end Sys2Proof.Machine
end

