-- ==== Sys2Proof/Machine/Step.lean ====
section
/-! DEFINITION. One step of the machine, and the placing of an instruction where the next step takes it. -/

namespace Sys2Proof.Machine

/-- One atomic step (00_scope.md R17): the instruction that `fetch` gives, or the step that runs none. -/
def step (s : State) : Host.Outcome State Fault Refusal :=
  match fetch s with
  | .run i t => exec i t
  | .done o => o

/-- The instruction with these bits placed where the next step takes it: a producer beat for a row of at most 24
bits, otherwise a command word in CMDREG (assumption log 13, 14). -/
def State.withFetchWord (s : State) (nbits w : Nat) : State :=
  if nbits ≤ 24 then s.placeBeat (BitVec.ofNat 17 w) else s.placeCommand (BitVec.ofNat Config.cmdW w)

end Sys2Proof.Machine
end

