-- ==== Sys2Proof/Safety.lean ====
section
/-! DEFINITION. The terms in which claims about runs are stated: the invariants of the machine, the state an engine
error leaves, which accesses the host may not make, and when two states look the same from outside. -/

namespace Sys2Proof.Machine

/-- It is the engine's turn and rst is low. -/
def State.engineMoves (s : State) : Prop := s.nextTurn = .engine ∧ s.env.rst = false

/-- The state in which the step taken at `s` happens: one turn is used up, the outputs are quiet. -/
def State.atTurn (s : State) : State :=
  { s with ports := { pErr := false, hResp := none }, env := { s.env with turns := s.env.turns.tail } }

/-- The state an engine error outside RUN leaves: four writes and nothing else (60_exceptions.md R283). -/
def afterError (s : State) (code : BitVec 8) : State :=
  { s with
    regs := { s.regs with
      errCode := code
      errInfo := 0#5 ++ s.regs.cmdreg
      evt := s.regs.evt ||| 0x002#9
      busy := false } }

/-- The codes ERR_CODE can hold (60_exceptions.md R271): 0 and the eleven codes. -/
def errorCodes : List (BitVec 8) :=
  [0x00#8, 0x11#8, 0x12#8, 0x13#8, 0x21#8, 0x22#8, 0x23#8, 0x24#8, 0x25#8, 0x31#8, 0x32#8, 0x33#8]

/-- `m'` reads as `f` below `n` and as `m` from `n` on. -/
def Memory.Filled {w : Nat} (m' m : Memory w) (n : Nat) (f : Nat → BitVec w) : Prop :=
  ∀ i, m'.read i = if i < n then f i else m.read i

/-- The two memories read the same below `n`. -/
def Memory.AgreeBelow {w : Nat} (m m' : Memory w) (n : Nat) : Prop := ∀ i < n, m.read i = m'.read i

/-! ### Invariants -/

/-- Every memory is canonical and within its depth, also those a reset still to come brings, and a removal cannot
write beyond the depth. -/
def State.MemoryOk (s : State) : Prop :=
  s.mems.wf = true ∧ s.regs.slotLen.toNat ≤ Config.nMax ∧ ∀ c, Turn.rstFall c ∈ s.env.turns → c.wf = true

/-- The control registers hang together (10_state.md R31, R32, R34, R45; 60_exceptions.md R271). -/
structure Regs.ControlOk (r : Regs) : Prop where
  /-- RUNNING = 1 implies BUSY = 1 (R34). -/
  running_busy : r.running = true → r.busy = true
  /-- SEQ_PC is 0 exactly while RUNNING = 0 (R31). -/
  phase_running : r.seqPc = .idle ↔ r.running = false
  /-- While RUNNING = 1 CMDREG is RUN (60_exceptions.md R284). -/
  run_word : r.running = true → r.cmdreg = 0x30000000#32
  /-- Before INIT: POWER = 0, no window, no block, nothing staged (R32, R33, 40_fifo.md R130). -/
  unready : r.ready = false → r.power = 0#4 ∧ r.detReady = false ∧ r.pending = false ∧ r.wp = 0#16
  /-- ERR_CODE holds one of the codes of R271. -/
  err_code : r.errCode ∈ errorCodes
  /-- Direction 3 is never produced (43_note.md R246). -/
  res_dir : r.resDir ≠ 3#2
  /-- RES_IDX is an index of the note table (R45). -/
  res_idx : r.resIdx.toNat < Config.notes

/-- A pending block exists only after INIT and has length N (40_fifo.md R135). -/
def Regs.FifoOk (r : Regs) : Prop := r.pending = true → r.ready = true ∧ r.slotLen.toNat = r.n

/-- DET_READY = 1 only with the scan window that DINIT derives from the current registers (10_state.md R33). -/
def Regs.ScanWindowOk (r : Regs) : Prop :=
  r.detReady = true →
    r.ready = true ∧ r.windowOk = true ∧ r.minIdx.toNat = r.windowLo ∧ r.maxIdx.toNat = r.windowHi

/-- After INIT the table BRT holds the bit reversal of the bound exponent (41_fft.md R153). -/
def State.BitReversalOk (s : State) : Prop :=
  s.regs.ready = true → ∀ i < s.regs.n, (s.mems.brt.read i).toNat = bitrev s.regs.power.toNat i

/-- Inside RUN (42_hps_detector.md R217, R219, R221): the detector is built, a block just taken has length N, the
index being converted lies inside the spectrum, frequencies are not negative, and EMIT has an accepted pair. -/
structure Regs.CycleOk (r : Regs) : Prop where
  built : r.running = true → r.ready = true ∧ r.detReady = true
  block : r.seqPc = .popA ∨ r.seqPc = .popB → r.blkLen.toNat = r.n
  index : r.seqPc = .b2fA ∨ r.seqPc = .b2fB → r.hpsIdx.toNat < r.h
  freqs : 0 ≤ r.fA.toInt ∧ 0 ≤ r.fB.toInt
  accepted : r.seqPc = .emit → ((r.fB.toInt - r.fA.toInt).natAbs : Int) < r.thresh.toInt

/-! ### Host accesses -/

/-- The word address is unmapped, or names a window word that does not exist now (20_memory.md R74 cases 1, 4, 5;
R75, R78). -/
def Regs.NoWordAt (r : Regs) (a : Nat) : Prop :=
  (0x20 ≤ a ∧ a < 0x8000) ∨
  (0x8000 ≤ a ∧ a < 0x38000 ∧ r.ready = false) ∨
  (0x8000 ≤ a ∧ a < 0x28000 ∧ 2 ^ r.power.toNat ≤ a % 0x8000) ∨
  (0x28000 ≤ a ∧ a < 0x38000 ∧ 2 ^ r.power.toNat / 2 ≤ a % 0x4000)

/-- The addresses of the read-only registers ID, STATUS, ERR_CODE, ERR_INFO, MIN_IDX, MAX_IDX, RES0, RES1, F_A, F_B,
HPS_IDX, RES_NAME, RES_IDX, RES_FREQ, RES_DIR, RES_SEQ, SPEC_SEQ, DISC_CNT (20_memory.md R74 case 2, 10_state.md
R47; F_A, F_B and HPS_IDX against R95, assumption log 28). -/
def readOnlyRegisters : List Nat :=
  [0x00, 0x02, 0x06, 0x07, 0x0E, 0x0F, 0x13, 0x14, 0x16, 0x17, 0x18, 0x19, 0x1A, 0x1B, 0x1C, 0x1D, 0x1E, 0x1F]

/-- The address names a read-only register, or lies in the windows BRT, RSPEC, TWC, TWS (20_memory.md R74 case 2). -/
def ReadOnlyAt (a : Nat) : Prop :=
  a ∈ readOnlyRegisters ∨ (0x20000 ≤ a ∧ a < 0x28000) ∨ 0x34000 ≤ a

/-! ### What can be seen from outside -/

/-- Two memories' contents are the same wherever a rule can read them: BLK, RE, IM, BRT below N and the spectra below
H once READY = 1, the staged words of STG below WP, and SLOT while a block is pending (10_state.md R49, R61). -/
structure SameVisible (r : Regs) (ms ms' : Mems) : Prop where
  blk : r.ready = true → ms.blk.AgreeBelow ms'.blk r.n
  re : r.ready = true → ms.re.AgreeBelow ms'.re r.n
  im : r.ready = true → ms.im.AgreeBelow ms'.im r.n
  brt : r.ready = true → ms.brt.AgreeBelow ms'.brt r.n
  s1 : r.ready = true → ms.s1.AgreeBelow ms'.s1 r.h
  s2 : r.ready = true → ms.s2.AgreeBelow ms'.s2 r.h
  s3 : r.ready = true → ms.s3.AgreeBelow ms'.s3 r.h
  rspec : r.ready = true → ms.rspec.AgreeBelow ms'.rspec r.h
  stg : r.ready = true → ms.stg.AgreeBelow ms'.stg (min r.wp.toNat Config.nMax)
  slot : r.pending = true → ms.slot.AgreeBelow ms'.slot r.slotLen.toNat

/-- The entry of the note table nearest to `f`, the lower one on a tie (43_note.md R244). -/
def NearestNote (f : Int) (i : Nat) : Prop :=
  i < 36 ∧ ∀ j < 36, (f - noteFreq i).natAbs < (f - noteFreq j).natAbs ∨
    ((f - noteFreq i).natAbs = (f - noteFreq j).natAbs ∧ i ≤ j)

/-- What the open parameter RT_TOL bounds (92_eei_decisions.md, 41_fft.md R168): for every power and block, POPUL, XFORM
F and XFORM I give the block back within `e` sample steps. Whether it holds for RT_TOL is an assumption a claim may
take; the spec proves only p <= 2. -/
def RoundTripWithin (e : ℚ) : Prop :=
  ∀ (p : Nat) (samples : List Sample), p ≤ Config.pMax → samples.length = 2 ^ p →
    let y := (transformSeries true (bitrev p) p
      (transformSeries false (bitrev p) p (samples.map (fun d => ⟨d.toInt * Config.one, 0⟩))).1).1
    ∀ i < 2 ^ p, |((y.getD i default).re : ℚ) / Config.one - (samples.getD i 0#16).toInt| ≤ e ∧
      |((y.getD i default).im : ℚ) / Config.one| ≤ e

/-- RT_TOL is such a bound: the parameter's meaning. -/
def RtTolHolds : Prop := RoundTripWithin Config.rtTol

/-- The first index in [lo, hi) at which the product of the three spectra is largest (42_hps_detector.md R204). -/
def FirstMaximum (ms : Mems) (lo hi best : Nat) : Prop :=
  lo ≤ best ∧ best < hi ∧
    ∀ i, lo ≤ i → i < hi →
      let p := fun k => (ms.s1.read k).toNat * (ms.s2.read k).toNat * (ms.s3.read k).toNat
      p i < p best ∨ (p i = p best ∧ best ≤ i)

end Sys2Proof.Machine
end

