-- ==== Sys2Proof/WellFormed.lean ====
section
/-! DEFINITION. Which instructions have an encoding: the operand ranges of 30_encoding.md R104, R110, R111. -/

namespace Sys2Proof

/-- The range of a signed 16-bit immediate: -32768 <= v <= 32767 (R104, R110). -/
def inS16 (v : Int) : Bool := decide (-32768 ≤ v) && decide (v ≤ 32767)

/-- An instruction is well formed when its immediate fits the 16-bit field of its format: the factor of DOWNS
(R104, R111) and the sample of PUSH and COMMIT (R110). The others have no operand that could be out of range. -/
def Instr.wellFormed : Instr → Bool
  | .downsS2 factor => inS16 factor
  | .downsS3 factor => inS16 factor
  | .push d => inS16 d
  | .commit d => inS16 d
  | .nop => true
  | .init => true
  | .dinit => true
  | .remove => true
  | .popul => true
  | .xform _ => true
  | .mag => true
  | .hps => true
  | .b2f => true
  | .ssf => true
  | .fnote => true
  | .tdir => true
  | .run => true

end Sys2Proof
end

