-- ==== Sys2Proof/Certificates/Slice0/Obligations.lean ====
section
/-! DEFINITION. The statements about TUNER-CORE, one for each rule or group of rules of spec/ named in its docstring.
A record update `{ s.regs with … }` on the right of an equation is the frame: every register not named in it is
unchanged. A memory not named in `{ s.mems with … }` is unchanged as data, and `Memory.Filled` says that no word of a
named one changes outside the written range. -/

open Sys2Proof Sys2Proof.Machine

/-! ### Encoding -/

/-- Decoding the word of a well-formed instruction gives the instruction back, every operand at every value
(30_encoding.md sections 2 and 3, R110). -/
def Obligations.DecodeEncodeRoundTrip : Prop :=
  ∀ i : Instr, i.wellFormed = true → decode (encode i) = .ok i

/-- Each legal word is the encoding of the one well-formed instruction it decodes to (30_encoding.md sections 2
to 4). -/
def Obligations.EncodeDecodeRoundTrip : Prop :=
  ∀ (e : Encoding) (i : Instr), decode e = .ok i → i.wellFormed = true ∧ encode i = e

/-- R107: a word is illegal exactly in the three cases; executing one raises CMD_ILLEGAL and changes no other state;
the number of legal words is 131086. -/
def Obligations.IllegalWordsAreRefused : Prop :=
  (∀ w : BitVec 32,
    (∃ e, decodeCommand w = .error e) ↔
      (w.toNat / 2 ^ 24 ∉ [0x00, 0x01, 0x02, 0x10, 0x11, 0x12, 0x13, 0x14, 0x15, 0x16, 0x17, 0x20, 0x21, 0x30] ∨
        (w.toNat / 2 ^ 24 ≠ 0x12 ∧ w.toNat / 2 ^ 24 ≠ 0x14 ∧ w.toNat % 2 ^ 24 ≠ 0) ∨
        (w.toNat / 2 ^ 24 = 0x12 ∧ w.toNat % 2 ^ 24 / 2 ≠ 0) ∨
        (w.toNat / 2 ^ 24 = 0x14 ∧ w.toNat / 2 ^ 16 % 2 ^ 8 ≠ 0x02 ∧ w.toNat / 2 ^ 16 % 2 ^ 8 ≠ 0x03))) ∧
  (∀ (s : State) (e : Illegal),
    s.engineMoves → s.regs.busy = true → s.regs.running = false → decodeCommand s.regs.cmdreg = .error e →
      step s = .next (afterError s.atTurn 0x31#8)) ∧
  ((Finset.range (2 ^ 32)).filter (fun n => (decodeCommand (BitVec.ofNat 32 n)).toBool = true)).card = 131086

/-- The examples of R111, and one word of each format and port written out from R102 to R105 and R110. -/
def Obligations.SpecWordsDecode : Prop :=
  decodeCommand 0x12000001#32 = .ok (.xform true) ∧
  decodeCommand 0x14030003#32 = .ok (.downsS3 3) ∧
  decodeCommand 0x1402FFFF#32 = .ok (.downsS2 (-1)) ∧
  decodeCommand 0x10000000#32 = .ok .remove ∧
  decodeCommand 0x16000000#32 = .ok .b2f ∧
  decodeCommand 0x21000000#32 = .ok .tdir ∧
  decodeCommand 0x30000000#32 = .ok .run ∧
  decodeBeat 0x0FFFB#17 = .push (-5) ∧
  decodeBeat 0x18000#17 = .commit (-32768)

/-! ### What a step does -/

/-- A step runs the decoded instruction (60_exceptions.md section 2, 40_fifo.md section 2): the command in CMDREG at
the engine's turn, the presented beat at the producer's when p_ready = 1, the phase in SEQ_PC while RUNNING = 1; and at the
host's turn, while rst = 0, it makes the host's next access (20_memory.md R72, R73). Around it a step uses up the turn
(and the beat or the access) and quiets the outputs. The turn of an idle engine, of a host with no access and of a
producer with no beat passes. The turns and the two queues are the model's (assumption log 4, 5, 7), and that a turn
passes with nothing changed is log 6. -/
def Obligations.StepRunsDecodedInstruction : Prop :=
  ∀ s : State,
    (∀ i, s.engineMoves → s.regs.busy = true → s.regs.running = false → decodeCommand s.regs.cmdreg = .ok i →
      step s = exec i s.atTurn) ∧
    (∀ b rest, s.nextTurn = .producer → s.env.beats = b :: rest → s.pReady (b.getLsbD 16) = true →
      step s = exec (decodeBeat b) { s.atTurn with env := { s.atTurn.env with beats := rest } }) ∧
    (s.engineMoves → s.regs.busy = true → s.regs.running = true → step s = runPhase s.atTurn) ∧
    (s.engineMoves → s.regs.busy = false → step s = .next s.atTurn) ∧
    (∀ a rest, s.nextTurn = .host → s.env.rst = false → s.env.hostQ = .read a :: rest →
      step s = .next (({ s.atTurn with env := { s.atTurn.env with hostQ := rest } } : State).hostRead a)) ∧
    (∀ a v rest, s.nextTurn = .host → s.env.rst = false → s.env.hostQ = .write a v :: rest →
      step s = .next (({ s.atTurn with env := { s.atTurn.env with hostQ := rest } } : State).hostWrite a v)) ∧
    (s.nextTurn = .host → s.env.hostQ = [] → step s = .next s.atTurn) ∧
    (s.nextTurn = .producer → s.env.beats = [] → step s = .next s.atTurn)

/-- R131: p_ready, and a beat presented while it is 0 is not consumed and no state changes. -/
def Obligations.RefusedBeatStaysPresented : Prop :=
  ∀ s : State, s.env.rst = false →
    (s.pReady false = if s.regs.ready = true then true else s.regs.stop) ∧
    (s.pReady true =
      if s.regs.ready = true then (decide (s.regs.pending = false) || s.regs.stop) else s.regs.stop) ∧
    (∀ b rest, s.nextTurn = .producer → s.env.beats = b :: rest → s.pReady (b.getLsbD 16) = false →
      step s = .next s.atTurn)

/-- R106: what each command needs, and the code it is refused with. -/
def Obligations.ReadinessRequirements : Prop :=
  ∀ s : State,
    (s.regs.ready = false →
      ∀ i ∈ [Instr.dinit, .remove, .popul, .xform false, .xform true, .mag, .hps, .run],
        exec i s = .next (afterError s 0x32#8)) ∧
    (s.regs.ready = false →
      ∀ f, exec (.downsS2 f) s = .next (afterError s 0x32#8) ∧ exec (.downsS3 f) s = .next (afterError s 0x32#8)) ∧
    (s.regs.detReady = false → ∀ i ∈ [Instr.hps, .run], exec i s = .next (afterError s 0x32#8)) ∧
    (s.regs.ready = true → exec .init s = .next (afterError s 0x33#8)) ∧
    (∀ i ∈ [Instr.nop, .init, .b2f, .ssf, .fnote, .tdir], ∀ t, exec i s = .next t →
      t.regs.errCode = 0x32#8 → s.regs.errCode = 0x32#8)

/-! ### The commands -/

/-- R260. -/
def Obligations.NopOnlyEnds : Prop :=
  encode .nop = .command 0x00000000#32 ∧
  ∀ s : State, exec .nop s = .next { s with regs := { s.regs with evt := s.regs.evt ||| 0x001#9, busy := false } }

/-- R152: INIT binds the exponent, builds BRT and clears the working memories, or is refused with nothing else
changed. -/
def Obligations.InitBindsOrRefuses : Prop :=
  encode .init = .command 0x01000000#32 ∧
  ∀ s : State,
    (s.regs.ready = true → exec .init s = .next (afterError s 0x33#8)) ∧
    (s.regs.ready = false → s.regs.pwrCfg.toInt < 0 ∨ 15 < s.regs.pwrCfg.toInt →
      exec .init s = .next (afterError s 0x11#8)) ∧
    (∀ p : Nat, s.regs.ready = false → s.regs.pwrCfg.toInt = (p : Int) → p ≤ 15 →
      ∃ t, exec .init s = .next t ∧
        t.regs = { s.regs with
          blkLen := 0#16, power := BitVec.ofNat 4 p, ready := true, evt := s.regs.evt ||| 0x001#9, busy := false } ∧
        t.ports = s.ports ∧ t.env = s.env ∧ t.mems.stg = s.mems.stg ∧ t.mems.slot = s.mems.slot ∧
        t.mems.brt.Filled s.mems.brt (2 ^ p) (fun i => BitVec.ofNat 15 (bitrev p i)) ∧
        t.mems.blk.Filled s.mems.blk (2 ^ p) (fun _ => 0#16) ∧
        t.mems.re.Filled s.mems.re (2 ^ p) (fun _ => 0#48) ∧
        t.mems.im.Filled s.mems.im (2 ^ p) (fun _ => 0#48) ∧
        t.mems.s1.Filled s.mems.s1 (2 ^ p / 2) (fun _ => 0#48) ∧
        t.mems.s2.Filled s.mems.s2 (2 ^ p / 2) (fun _ => 0#48) ∧
        t.mems.s3.Filled s.mems.s3 (2 ^ p / 2) (fun _ => 0#48) ∧
        t.mems.rspec.Filled s.mems.rspec (2 ^ p / 2) (fun _ => 0#48))

/-- R201: DINIT derives the window, both bounds rounded down, or refuses an invalid one with nothing else changed.
That DET_READY is 0 when it refuses a window is R201's own inference from R33; it is stated for the states in which
DET_READY = 1 means the current window (`Regs.ScanWindowOk`, which StepKeepsScanWindowOk says every step keeps). -/
def Obligations.DinitDerivesWindow : Prop :=
  encode .dinit = .command 0x02000000#32 ∧
  ∀ s : State,
    let fs : Int := s.regs.sampleRate.toNat
    let loHz := s.regs.minHz.toInt
    let hiHz := s.regs.maxHz.toInt
    let n : Int := 2 ^ s.regs.power.toNat
    let lo := loHz * n / (fs * 65536)
    let hi := hiHz * n / (fs * 65536)
    (s.regs.ready = false → exec .dinit s = .next (afterError s 0x32#8)) ∧
    (s.regs.ready = true → fs = 0 ∨ loHz < 0 ∨ hiHz < 0 → exec .dinit s = .next (afterError s 0x13#8)) ∧
    (s.regs.ready = true → ¬ (fs = 0 ∨ loHz < 0 ∨ hiHz < 0) → ¬ (lo < hi ∧ hi ≤ n / 2) →
      exec .dinit s = .next (afterError s 0x13#8)) ∧
    (s.regs.ready = true → ¬ (fs = 0 ∨ loHz < 0 ∨ hiHz < 0) → lo < hi ∧ hi ≤ n / 2 →
      exec .dinit s = .next
        { s with
          regs := { s.regs with
            minIdx := BitVec.ofInt 16 lo, maxIdx := BitVec.ofInt 16 hi, detReady := true,
            evt := s.regs.evt ||| 0x001#9, busy := false } }) ∧
    (s.regs.ready = true → s.regs.ScanWindowOk →
      fs = 0 ∨ loHz < 0 ∨ hiHz < 0 ∨ ¬ (lo < hi ∧ hi ≤ n / 2) → s.regs.detReady = false)

/-- R134, R135: REMOVE takes the pending block, is cancelled by STOP, or waits. R134 says that the waiting step is not
enabled; that its turn then is a step with nothing changed is the model's reading (assumption log 6, DEDUCED). -/
def Obligations.RemoveTakesBlockOrWaits : Prop :=
  encode .remove = .command 0x10000000#32 ∧
  ∀ s : State,
    (s.regs.ready = false → exec .remove s = .next (afterError s 0x32#8)) ∧
    (s.regs.ready = true → s.regs.pending = true →
      ∃ t, exec .remove s = .next t ∧
        t.regs = { s.regs with
          blkLen := s.regs.slotLen, pending := false, evt := s.regs.evt ||| 0x001#9, busy := false } ∧
        t.mems = { s.mems with blk := t.mems.blk } ∧ t.ports = s.ports ∧ t.env = s.env ∧
        t.mems.blk.Filled s.mems.blk s.regs.slotLen.toNat s.mems.slot.read) ∧
    (s.regs.ready = true → s.regs.pending = false → s.regs.stop = true →
      exec .remove s = .next { s with regs := { s.regs with evt := s.regs.evt ||| 0x009#9, busy := false } }) ∧
    (s.regs.ready = true → s.regs.pending = false → s.regs.stop = false → exec .remove s = .next s)

/-- R158: POPUL loads the samples times 65536 and zeros the imaginary part, or refuses a wrong length. -/
def Obligations.PopulLoadsBlock : Prop :=
  encode .popul = .command 0x11000000#32 ∧
  ∀ s : State,
    let n := 2 ^ s.regs.power.toNat
    (s.regs.ready = false → exec .popul s = .next (afterError s 0x32#8)) ∧
    (s.regs.ready = true → s.regs.blkLen.toNat ≠ n → exec .popul s = .next (afterError s 0x23#8)) ∧
    (s.regs.ready = true → s.regs.blkLen.toNat = n →
      ∃ t, exec .popul s = .next t ∧
        t.regs = { s.regs with evt := s.regs.evt ||| 0x001#9, busy := false } ∧
        t.mems = { s.mems with re := t.mems.re, im := t.mems.im } ∧ t.ports = s.ports ∧ t.env = s.env ∧
        (∀ i < n, (t.mems.re.read i).toInt = (s.mems.blk.read i).toInt * 65536 ∧ t.mems.im.read i = 0#48) ∧
        (∀ i, n ≤ i → t.mems.re.read i = s.mems.re.read i ∧ t.mems.im.read i = s.mems.im.read i))

/-- XFORM (41_fft.md sections 4 and 5). The butterfly of R164 and R166: ROM index t * 2^(15 - p), the sine negated for
the inverse, exact products with one rounding each, the four results reduced to 48 bits, overflow exactly when one was
out of range. A stage of R163: each pair (k, k + 2^shift) once, from the values before it, the overflows collected. The
scaling of R167. And the command: RE and IM below N take the transformed series exactly, no value being lost in storing
it; EVT.OVF is set on an overflow and nothing else changes; at p = 0 not even RE and IM change. -/
def Obligations.XformStoresTransformedSeries : Prop :=
  (∀ (inv : Bool) (p t : Nat) (a b : Cplx), p ≤ 15 → 2 * t < 2 ^ p →
    let c := twc (t * 2 ^ (15 - p))
    let s := if inv = true then -tws (t * 2 ^ (15 - p)) else tws (t * 2 ^ (15 - p))
    let tr := (b.re * c + b.im * s + 32768) / 65536
    let ti := (b.im * c - b.re * s + 32768) / 65536
    let r := romButterfly inv p t a b
    (∀ q ∈ [(r.1.1.re, a.re + tr), (r.1.1.im, a.im + ti), (r.1.2.re, a.re - tr), (r.1.2.im, a.im - ti)],
      q.1 % 2 ^ 48 = q.2 % 2 ^ 48 ∧ -2 ^ 47 ≤ q.1 ∧ q.1 < 2 ^ 47) ∧
    (r.2 = true ↔ ∃ v ∈ [a.re + tr, a.im + ti, a.re - tr, a.im - ti], v < -2 ^ 47 ∨ 2 ^ 47 ≤ v)) ∧
  (∀ (bf : Nat → Butterfly Cplx) (brt : Nat → Nat) (p shift : Nat) (x : List Cplx) (ovf : Bool),
    x.length = 2 ^ p → shift < p →
    let y := runStage bf brt (2 ^ p) shift (x, ovf)
    let pair := fun k => bf (brt (k / 2 ^ shift)) (x.getD k default) (x.getD (k + 2 ^ shift) default)
    y.1.length = 2 ^ p ∧
    (∀ k < 2 ^ p, k / 2 ^ shift % 2 = 0 →
      y.1.getD k default = (pair k).1.1 ∧ y.1.getD (k + 2 ^ shift) default = (pair k).1.2) ∧
    (y.2 = true ↔ ovf = true ∨ ∃ k < 2 ^ p, k / 2 ^ shift % 2 = 0 ∧ (pair k).2 = true)) ∧
  (∀ (p : Nat) (x : Cplx),
    scale p x = if p = 0 then x else ⟨(x.re + 2 ^ (p - 1)) / 2 ^ p, (x.im + 2 ^ (p - 1)) / 2 ^ p⟩) ∧
  ∀ (s : State) (inv : Bool),
    let n := 2 ^ s.regs.power.toNat
    let x := (List.range n).map (fun i => (⟨(s.mems.re.read i).toInt, (s.mems.im.read i).toInt⟩ : Cplx))
    let y := transformSeries inv (fun i => (s.mems.brt.read i).toNat) s.regs.power.toNat x
    (s.regs.ready = false → exec (.xform inv) s = .next (afterError s 0x32#8)) ∧
    (s.regs.ready = true →
      ∃ t, exec (.xform inv) s = .next t ∧
        t.regs = { s.regs with
          evt := s.regs.evt ||| (if y.2 = true then 0x010#9 else 0x000#9) ||| 0x001#9, busy := false } ∧
        t.mems = { s.mems with re := t.mems.re, im := t.mems.im } ∧ t.ports = s.ports ∧ t.env = s.env ∧
        y.1.length = n ∧
        (∀ i < n, (t.mems.re.read i).toInt = (y.1.getD i default).re ∧
          (t.mems.im.read i).toInt = (y.1.getD i default).im) ∧
        (∀ i, n ≤ i → t.mems.re.read i = s.mems.re.read i ∧ t.mems.im.read i = s.mems.im.read i) ∧
        (s.regs.power = 0#4 → s.BitReversalOk → y.2 = false ∧
          ∀ i, t.mems.re.read i = s.mems.re.read i ∧ t.mems.im.read i = s.mems.im.read i))

/-- R170: each word of S1 below H is the floor square root of re² + im². -/
def Obligations.MagWritesMagnitudes : Prop :=
  encode .mag = .command 0x13000000#32 ∧
  ∀ s : State,
    let h := 2 ^ s.regs.power.toNat / 2
    (s.regs.ready = false → exec .mag s = .next (afterError s 0x32#8)) ∧
    (s.regs.ready = true →
      ∃ t, exec .mag s = .next t ∧
        t.regs = { s.regs with
          specSeq := s.regs.specSeq + 1#32, evt := s.regs.evt ||| 0x101#9, busy := false } ∧
        t.mems = { s.mems with s1 := t.mems.s1 } ∧ t.ports = s.ports ∧ t.env = s.env ∧
        (∀ i < h, (t.mems.s1.read i).toNat =
          Nat.sqrt ((s.mems.re.read i).toInt ^ 2 + (s.mems.im.read i).toInt ^ 2).toNat) ∧
        (∀ i, h ≤ i → t.mems.s1.read i = s.mems.s1.read i))

/-- R173, R174: the destination takes the means of `factor` consecutive words of S1, rounded down, and the neutral
value 65536 from floor(H / factor) on; a factor <= 0 is refused after the readiness check. -/
def Obligations.DownsWritesMeans : Prop :=
  (∀ f : Int, -32768 ≤ f → f ≤ 32767 →
    encode (.downsS2 f) = .command (BitVec.ofInt 32 (0x14020000 + f % 65536)) ∧
    encode (.downsS3 f) = .command (BitVec.ofInt 32 (0x14030000 + f % 65536))) ∧
  ∀ (s : State) (f : Int),
    let h := 2 ^ s.regs.power.toNat / 2
    let k := f.toNat
    let word := fun i => if i < h / k then (∑ j ∈ Finset.range k, (s.mems.s1.read (i * k + j)).toNat) / k else 65536
    let done := { s.regs with evt := s.regs.evt ||| 0x001#9, busy := false }
    (s.regs.ready = false →
      exec (.downsS2 f) s = .next (afterError s 0x32#8) ∧ exec (.downsS3 f) s = .next (afterError s 0x32#8)) ∧
    (s.regs.ready = true → f ≤ 0 →
      exec (.downsS2 f) s = .next (afterError s 0x12#8) ∧ exec (.downsS3 f) s = .next (afterError s 0x12#8)) ∧
    (s.regs.ready = true → 0 < f →
      (∃ t, exec (.downsS2 f) s = .next t ∧ t.regs = done ∧ t.mems = { s.mems with s2 := t.mems.s2 } ∧
        t.ports = s.ports ∧ t.env = s.env ∧
        (∀ i < h, (t.mems.s2.read i).toNat = word i) ∧ (∀ i, h ≤ i → t.mems.s2.read i = s.mems.s2.read i)) ∧
      (∃ t, exec (.downsS3 f) s = .next t ∧ t.regs = done ∧ t.mems = { s.mems with s3 := t.mems.s3 } ∧
        t.ports = s.ports ∧ t.env = s.env ∧
        (∀ i < h, (t.mems.s3.read i).toNat = word i) ∧ (∀ i, h ≤ i → t.mems.s3.read i = s.mems.s3.read i)))

/-- R204, R205: HPS_IDX takes the first index of the window with the largest exact product. -/
def Obligations.HpsFindsFirstMaximum : Prop :=
  encode .hps = .command 0x15000000#32 ∧
  ∀ s : State,
    (s.regs.ready = false ∨ s.regs.detReady = false → exec .hps s = .next (afterError s 0x32#8)) ∧
    (s.regs.ready = true → s.regs.detReady = true → s.regs.minIdx.toNat < s.regs.maxIdx.toNat →
      ∃ best, FirstMaximum s.mems s.regs.minIdx.toNat s.regs.maxIdx.toNat best ∧
        exec .hps s = .next
          { s with
            regs := { s.regs with
              hpsIdx := BitVec.ofNat 16 best, evt := s.regs.evt ||| 0x001#9, busy := false } })

/-- R171, R172: RES0 takes floor(index * rate * 65536 / bins), or the command is refused. -/
def Obligations.B2fConvertsIndex : Prop :=
  encode .b2f = .command 0x16000000#32 ∧
  ∀ s : State,
    let f := s.regs.arg2.toNat * s.regs.arg0.toNat * 65536 / s.regs.arg1.toNat
    (s.regs.arg1 = 0#32 → exec .b2f s = .next (afterError s 0x24#8)) ∧
    (s.regs.arg1 ≠ 0#32 → 2 ^ 31 ≤ f → exec .b2f s = .next (afterError s 0x25#8)) ∧
    (s.regs.arg1 ≠ 0#32 → f < 2 ^ 31 →
      exec .b2f s = .next
        { s with
          regs := { s.regs with res0 := BitVec.ofNat 32 f, evt := s.regs.evt ||| 0x001#9, busy := false } })

/-- R207, R208: RES0 takes the strict comparison, RES1 the average rounded down, which always fits. -/
def Obligations.SsfFiltersAndAverages : Prop :=
  encode .ssf = .command 0x17000000#32 ∧
  ∀ s : State,
    let a := s.regs.arg0.toInt
    let b := s.regs.arg1.toInt
    let accept := ((b - a).natAbs : Int) < s.regs.thresh.toInt
    let avg := (a + b) / 2
    (accept →
      exec .ssf s = .next
        { s with
          regs := { s.regs with
            res0 := 1#32, res1 := BitVec.ofInt 32 avg, evt := s.regs.evt ||| 0x001#9, busy := false } }) ∧
    (¬ accept →
      exec .ssf s = .next
        { s with
          regs := { s.regs with
            res0 := 0#32, res1 := BitVec.ofInt 32 avg, evt := s.regs.evt ||| 0x001#9, busy := false } }) ∧
    (BitVec.ofInt 32 avg).toInt = avg

/-- The note table and the search over it. The table (R240 to R242): 36 entries from C3 to B5, strictly ascending; entry
i is pitch class i mod 12 of octave 3 + floor(i / 12), its name packed with the first character lowest and 0x23 for a
sharp; its frequency is the pitch with A4 = 440 Hz rounded to two decimals, times 65536 rounded to the nearest integer
(R242's contents are the spec's own, from general knowledge; assumption log 18). The search (R244, R245): RES0 and RES1
take the name and index of the nearest table entry, the lower one on a tie; a negative frequency is refused. -/
def Obligations.FnoteFindsNearestNote : Prop :=
  encode .fnote = .command 0x20000000#32 ∧
  noteTable.length = 36 ∧ noteName 0 = 0x003343#24 ∧ noteName 35 = 0x003542#24 ∧
  (∀ i j, i < j → j < 36 → noteFreq i < noteFreq j) ∧
  (∀ q ∈ [(0, 0x43, false), (1, 0x43, true), (2, 0x44, false), (3, 0x44, true), (4, 0x45, false), (5, 0x46, false),
      (6, 0x46, true), (7, 0x47, false), (8, 0x47, true), (9, 0x41, false), (10, 0x41, true), (11, 0x42, false)],
    ∀ octave ∈ [3, 4, 5],
      let i : Nat := 12 * (octave - 3) + q.1
      (noteName i).toNat =
        if q.2.2 = true then q.2.1 + 2 ^ 8 * 0x23 + 2 ^ 16 * (0x30 + octave) else q.2.1 + 2 ^ 8 * (0x30 + octave)) ∧
  (∀ i : Nat, i < 36 → ∃ hundredths : Nat,
    |(hundredths : ℝ) - 100 * (440 * 2 ^ (((i : ℝ) - 21) / 12))| < 1 / 2 ∧
    |(noteFreq i : ℝ) - hundredths / 100 * 65536| < 1 / 2) ∧
  ∀ s : State,
    (s.regs.arg0.toInt < 0 → exec .fnote s = .next (afterError s 0x21#8)) ∧
    (0 ≤ s.regs.arg0.toInt →
      ∃ i, NearestNote s.regs.arg0.toInt i ∧
        exec .fnote s = .next
          { s with
            regs := { s.regs with
              res0 := (noteName i).setWidth 32, res1 := BitVec.ofNat 32 i,
              evt := s.regs.evt ||| 0x001#9, busy := false } })

/-- R243, R246, R247: RES0 takes the direction against the named note, whichever entry that is; the frequency is
checked before the name. Names match when their words are equal with every byte of a small letter made capital; a word
with a bit in 31:24 matches none. -/
def Obligations.TdirClassifies : Prop :=
  encode .tdir = .command 0x21000000#32 ∧
  (∀ (w : BitVec 32), ∀ k < 4,
    let b := w.toNat / 2 ^ (8 * k) % 2 ^ 8
    (foldName w).toNat / 2 ^ (8 * k) % 2 ^ 8 = if 0x61 ≤ b ∧ b ≤ 0x7A then b - 0x20 else b) ∧
  (∀ w : BitVec 32, 2 ^ 24 ≤ w.toNat → ∀ i < 36, foldName ((noteName i).setWidth 32) ≠ foldName w) ∧
  ∀ s : State,
    (s.regs.arg1.toInt < 0 → exec .tdir s = .next (afterError s 0x21#8)) ∧
    (0 ≤ s.regs.arg1.toInt →
      (∀ i < 36, foldName ((noteName i).setWidth 32) ≠ foldName s.regs.arg0) →
      exec .tdir s = .next (afterError s 0x22#8)) ∧
    (∀ i < 36, 0 ≤ s.regs.arg1.toInt → foldName ((noteName i).setWidth 32) = foldName s.regs.arg0 →
      let d := s.regs.arg1.toInt - noteFreq i
      exec .tdir s = .next
        { s with
          regs := { s.regs with
            res0 := if (d.natAbs : Int) < s.regs.epsilon.toInt then 1#32 else if d < 0 then 0#32 else 2#32,
            evt := s.regs.evt ||| 0x001#9, busy := false } })

/-- R213: the execution step of RUN only starts the sequencer; from then on an engine step executes the phase named by
SEQ_PC. -/
def Obligations.RunStartsSequencer : Prop :=
  encode .run = .command 0x30000000#32 ∧
  ∀ s : State,
    (s.regs.ready = false ∨ s.regs.detReady = false → exec .run s = .next (afterError s 0x32#8)) ∧
    (s.regs.ready = true → s.regs.detReady = true →
      exec .run s = .next { s with regs := { s.regs with running := true, seqPc := .top } }) ∧
    (s.engineMoves → s.regs.busy = true → s.regs.running = true → step s = runPhase s.atTurn)

/-! ### The producer's beats -/

/-- R132: an accepted PUSH is staged and counted, the count sticking at 65535, or flushed while READY = 0; a refused
one changes nothing. -/
def Obligations.PushStagesSample : Prop :=
  (∀ b : BitVec 17, b.getLsbD 16 = false → decodeBeat b = .push (b.setWidth 16).toInt) ∧
  ∀ (s : State) (d : Int),
    (s.pReady false = false → exec (.push d) s = .next s) ∧
    (s.pReady false = true → s.regs.ready = false →
      exec (.push d) s = .next { s with regs := { s.regs with evt := s.regs.evt ||| 0x080#9 } }) ∧
    (s.env.rst = false → s.regs.ready = true →
      ∃ t, exec (.push d) s = .next t ∧
        t.regs = { s.regs with wp := if s.regs.wp = 0xFFFF#16 then 0xFFFF#16 else s.regs.wp + 1#16 } ∧
        t.mems = { s.mems with stg := t.mems.stg } ∧ t.ports = s.ports ∧ t.env = s.env ∧
        (s.regs.wp.toNat < 32768 → ∀ i,
          t.mems.stg.read i = if i = s.regs.wp.toNat then BitVec.ofInt 16 d else s.mems.stg.read i) ∧
        (32768 ≤ s.regs.wp.toNat → t.mems.stg = s.mems.stg))

/-- R133: an accepted COMMIT inserts a block of length N when none is pending, drops a wrong one with P_LENERR and
p_err, and discards under STOP; WP = 0 after it; a refused one changes nothing. -/
def Obligations.CommitInsertsBlock : Prop :=
  (∀ b : BitVec 17, b.getLsbD 16 = true → decodeBeat b = .commit (b.setWidth 16).toInt) ∧
  ∀ (s : State) (d : Int),
    let n := 2 ^ s.regs.power.toNat
    let staged := fun i =>
      if i = s.regs.wp.toNat ∧ i < 32768 then BitVec.ofInt 16 d else s.mems.stg.read i
    (s.pReady true = false → exec (.commit d) s = .next s) ∧
    (s.pReady true = true → s.regs.ready = false →
      exec (.commit d) s = .next { s with regs := { s.regs with evt := s.regs.evt ||| 0x080#9, wp := 0#16 } }) ∧
    (s.pReady true = true → s.regs.ready = true → s.regs.wp.toNat + 1 ≠ n →
      ∃ t, exec (.commit d) s = .next t ∧
        t.regs = { s.regs with evt := s.regs.evt ||| 0x040#9, wp := 0#16 } ∧
        t.ports = { s.ports with pErr := true } ∧ t.env = s.env ∧
        t.mems = { s.mems with stg := t.mems.stg } ∧ ∀ i, t.mems.stg.read i = staged i) ∧
    (s.pReady true = true → s.regs.ready = true → s.regs.wp.toNat + 1 = n → s.regs.pending = true →
      ∃ t, exec (.commit d) s = .next t ∧
        t.regs = { s.regs with evt := s.regs.evt ||| 0x080#9, wp := 0#16 } ∧
        t.ports = s.ports ∧ t.env = s.env ∧
        t.mems = { s.mems with stg := t.mems.stg } ∧ ∀ i, t.mems.stg.read i = staged i) ∧
    (s.env.rst = false → s.regs.ready = true → s.regs.wp.toNat + 1 = n → s.regs.pending = false →
      ∃ t, exec (.commit d) s = .next t ∧
        t.regs = { s.regs with slotLen := BitVec.ofNat 16 n, pending := true, wp := 0#16 } ∧
        t.ports = s.ports ∧ t.env = s.env ∧
        t.mems = { s.mems with stg := t.mems.stg, slot := t.mems.slot } ∧
        (∀ i, t.mems.stg.read i = staged i) ∧ t.mems.slot.Filled s.mems.slot n staged)

/-- The pending block is never overwritten or shortened by a later step (40_fifo.md section 4): while PENDING stays
1, SLOT and SLOT_LEN stay, whatever the host, the producer, the engine or rst do. -/
def Obligations.PendingBlockStaysIntact : Prop :=
  ∀ s t : State, step s = .next t → s.regs.pending = true → t.regs.pending = true →
    t.mems.slot = s.mems.slot ∧ t.regs.slotLen = s.regs.slotLen

/-- R283: an engine step outside RUN is an error, which leaves exactly the four writes, or leaves ERR_CODE, ERR_INFO
and EVT.ERROR as they were. -/
def Obligations.EngineErrorsArePrecise : Prop :=
  ∀ s t : State, s.engineMoves → s.regs.running = false → step s = .next t →
    (∃ code ∈ errorCodes, code ≠ 0x00#8 ∧ t = afterError s.atTurn code) ∨
    (t.regs.errCode = s.regs.errCode ∧ t.regs.errInfo = s.regs.errInfo ∧
      t.regs.evt.getLsbD 1 = s.regs.evt.getLsbD 1)

/-! ### The phases of RUN -/

/-- R215: TOP polls STOP; the exit is the one of R222. -/
def Obligations.TopPollsStop : Prop :=
  ∀ s : State, s.regs.seqPc = .top →
    (s.regs.stop = true →
      runPhase s = .next
        { s with
          regs := { s.regs with
            running := false, seqPc := .idle, busy := false, evt := s.regs.evt ||| 0x009#9 } }) ∧
    (s.regs.stop = false → runPhase s = .next { s with regs := { s.regs with seqPc := .remA } })

/-- R216: a remove phase takes a pending block, is cancelled by STOP, or waits. R216 says that the waiting phase is not
enabled and the engine blocked; that its turn then is a step with nothing changed is the model's reading (assumption
log 6, DEDUCED). -/
def Obligations.RemovePhaseTakesBlockOrWaits : Prop :=
  ∀ s : State, s.regs.seqPc = .remA ∨ s.regs.seqPc = .remB →
    (s.regs.pending = true →
      ∃ t, runPhase s = .next t ∧
        t.regs = { s.regs with
          blkLen := s.regs.slotLen, pending := false,
          seqPc := if s.regs.seqPc = .remA then .popA else .popB } ∧
        t.mems = { s.mems with blk := t.mems.blk } ∧ t.ports = s.ports ∧ t.env = s.env ∧
        t.mems.blk.Filled s.mems.blk s.regs.slotLen.toNat s.mems.slot.read) ∧
    (s.regs.pending = false → s.regs.stop = true →
      runPhase s = .next
        { s with
          regs := { s.regs with
            running := false, seqPc := .idle, busy := false, evt := s.regs.evt ||| 0x009#9 } }) ∧
    (s.regs.pending = false → s.regs.stop = false → runPhase s = .next s)

/-- R217, R284: a populate phase loads the block, or discards the cycle with ARG_LEN and RUN goes on. -/
def Obligations.PopulatePhaseLoadsOrDiscards : Prop :=
  ∀ s : State, s.regs.seqPc = .popA ∨ s.regs.seqPc = .popB →
    let n := 2 ^ s.regs.power.toNat
    (s.regs.blkLen.toNat ≠ n →
      runPhase s = .next
        { s with
          regs := { s.regs with
            errCode := 0x23#8,
            errInfo := (if s.regs.seqPc = .popA then 3#5 else 11#5) ++ s.regs.cmdreg,
            evt := s.regs.evt ||| 0x002#9, discCnt := s.regs.discCnt + 1#32, seqPc := .top } }) ∧
    (s.regs.blkLen.toNat = n →
      ∃ t, runPhase s = .next t ∧
        t.regs = { s.regs with seqPc := if s.regs.seqPc = .popA then .fftA else .fftB } ∧
        t.mems = { s.mems with re := t.mems.re, im := t.mems.im } ∧ t.ports = s.ports ∧ t.env = s.env ∧
        (∀ i < n, (t.mems.re.read i).toInt = (s.mems.blk.read i).toInt * 65536 ∧ t.mems.im.read i = 0#48) ∧
        (∀ i, n ≤ i → t.mems.re.read i = s.mems.re.read i ∧ t.mems.im.read i = s.mems.im.read i))

/-- R218: each FFT, MAG, DS2 and DS3 phase makes exactly the state change of its command, but DONE is not set, BUSY
stays and SEQ_PC takes the successor; the HPS phases likewise (R219). -/
def Obligations.PhasesActAsTheirCommands : Prop :=
  ∀ s : State, s.regs.ready = true → s.regs.detReady = true →
    ∀ q ∈ [(Phase.fftA, Instr.xform false, Phase.magA), (.fftB, .xform false, .magB),
        (.magA, .mag, .ds2A), (.magB, .mag, .ds2B),
        (.ds2A, .downsS2 2, .ds3A), (.ds2B, .downsS2 2, .ds3B),
        (.ds3A, .downsS3 3, .hpsA), (.ds3B, .downsS3 3, .hpsB),
        (.hpsA, .hps, .b2fA), (.hpsB, .hps, .b2fB)],
      s.regs.seqPc = q.1 →
      ∃ t u, exec q.2.1 s = .next t ∧ runPhase s = .next u ∧
        u.mems = t.mems ∧ u.ports = t.ports ∧ u.env = t.env ∧
        t.regs = { u.regs with evt := u.regs.evt ||| 0x001#9, busy := false, seqPc := s.regs.seqPc } ∧
        u.regs.busy = s.regs.busy ∧ u.regs.seqPc = q.2.2 ∧ u.regs.evt.getLsbD 0 = s.regs.evt.getLsbD 0

/-- The B2F phases (42_hps_detector.md section 5): the frequency of HPS_IDX is exact, index * rate * 2^(16 - p), not
negative, and goes to F_A or F_B. -/
def Obligations.FundamentalPhaseIsExact : Prop :=
  ∀ s : State, s.regs.hpsIdx.toNat < 2 ^ s.regs.power.toNat / 2 →
    ∃ f : BitVec 32,
      f.toInt = (s.regs.hpsIdx.toNat * s.regs.sampleRate.toNat * 2 ^ (16 - s.regs.power.toNat) : Nat) ∧
      (s.regs.seqPc = .b2fA → runPhase s = .next { s with regs := { s.regs with fA := f, seqPc := .remB } }) ∧
      (s.regs.seqPc = .b2fB → runPhase s = .next { s with regs := { s.regs with fB := f, seqPc := .filt } })

/-- R220: an accepted pair goes on to EMIT; a rejected one leaves a trace in DISC_CNT only. -/
def Obligations.FilterPhaseAcceptsOrDiscards : Prop :=
  ∀ s : State, s.regs.seqPc = .filt →
    let accept := ((s.regs.fB.toInt - s.regs.fA.toInt).natAbs : Int) < s.regs.thresh.toInt
    (accept → runPhase s = .next { s with regs := { s.regs with seqPc := .emit } }) ∧
    (¬ accept →
      runPhase s = .next
        { s with regs := { s.regs with discCnt := s.regs.discCnt + 1#32, seqPc := .top } })

/-- R221: EMIT publishes the nearest note, the average, the direction and the spectrum, and records an unread
result. -/
def Obligations.EmitPublishesResult : Prop :=
  ∀ s : State, s.regs.seqPc = .emit → 0 ≤ s.regs.fA.toInt → 0 ≤ s.regs.fB.toInt →
    let avg := (s.regs.fA.toInt + s.regs.fB.toInt) / 2
    ∃ i t, NearestNote avg i ∧ runPhase s = .next t ∧
      (let d := avg - noteFreq i
       t.regs = { s.regs with
          resName := noteName i, resIdx := BitVec.ofNat 6 i, resFreq := BitVec.ofInt 32 avg,
          resDir := if (d.natAbs : Int) < s.regs.epsilon.toInt then 1#2 else if d < 0 then 0#2 else 2#2,
          resSeq := s.regs.resSeq + 1#32,
          evt := s.regs.evt ||| (if s.regs.evt.getLsbD 2 = true then 0x024#9 else 0x004#9),
          seqPc := .top }) ∧
      t.mems = { s.mems with rspec := t.mems.rspec } ∧ t.ports = s.ports ∧ t.env = s.env ∧
      t.mems.rspec.Filled s.mems.rspec (2 ^ s.regs.power.toNat / 2) s.mems.s1.read

/-- The control flow of the sequencer (45_arithmetic.md section 3): a phase's step ends in its successor, in TOP or
at the exit where the table of 42_hps_detector.md section 5 says so, or stays where it waits. -/
def Obligations.PhaseSuccessors : Prop :=
  ∀ s t : State, runPhase s = .next t →
    (s.regs.seqPc, t.regs.seqPc) ∈
      [(Phase.top, Phase.remA), (.top, .idle), (.remA, .popA), (.remA, .idle), (.remA, .remA),
        (.popA, .fftA), (.popA, .top), (.fftA, .magA), (.magA, .ds2A), (.ds2A, .ds3A), (.ds3A, .hpsA),
        (.hpsA, .b2fA), (.b2fA, .remB), (.remB, .popB), (.remB, .idle), (.remB, .remB), (.popB, .fftB),
        (.popB, .top), (.fftB, .magB), (.magB, .ds2B), (.ds2B, .ds3B), (.ds3B, .hpsB), (.hpsB, .b2fB),
        (.b2fB, .filt), (.filt, .emit), (.filt, .top), (.emit, .top)] ∧
    (t.regs.seqPc = .idle →
      t = { s with
        regs := { s.regs with
          running := false, seqPc := .idle, busy := false, evt := s.regs.evt ||| 0x009#9 } })

/-- R222: RUN ends only by its exit, seen at TOP or in a cancelled remove phase, or by a reset; the exit changes
nothing else. -/
def Obligations.RunEndsOnlyByExitOrReset : Prop :=
  ∀ s t : State, s.regs.ControlOk → step s = .next t → s.regs.running = true → t.regs.running = false →
    (s.regs.stop = true ∧
      (s.regs.seqPc = .top ∨ ((s.regs.seqPc = .remA ∨ s.regs.seqPc = .remB) ∧ s.regs.pending = false)) ∧
      t = { s.atTurn with
        regs := { s.regs with
          running := false, seqPc := .idle, busy := false, evt := s.regs.evt ||| 0x009#9 } }) ∨
    t.regs = Regs.reset

/-! ### The host bus -/

/-- R74, R114: a host access gets the ERROR response, and changes nothing, exactly in the listed cases; a refused
read has data 0. That F_A, F_B and HPS_IDX are among the read-only registers at every time, as R74, R44 and R47 say and
R95 does not, is the model's choice (assumption log 28, DESIGN CHOICE). -/
def Obligations.HostAccessRefusedExactly : Prop :=
  ∀ (s t : State) (r : HostReq) (rest : List HostReq),
    s.nextTurn = .host → s.env.rst = false → s.env.hostQ = r :: rest → step s = .next t →
      let refused := match r with
        | .read a => s.regs.NoWordAt a.toNat
        | .write a v =>
          s.regs.NoWordAt a.toNat ∨ ReadOnlyAt a.toNat ∨
            (s.regs.busy = true ∧ a.toNat ∉ [0x01, 0x03, 0x04]) ∨ (a.toNat = 0x05 ∧ 2 ^ 32 ≤ v.toNat)
      ((∃ d, t.ports.hResp = some ⟨true, d⟩) ↔ refused) ∧
      (refused → t.regs = s.regs ∧ t.mems = s.mems ∧
        ((∃ a, r = .read a) → t.ports.hResp = some ⟨true, some 0#64⟩)) ∧
      t.env = { s.env with turns := s.env.turns.tail, hostQ := rest }

/-- R72, R23, R76: a read changes no register and no memory, accepted or not; an accepted one returns the word, and
what the words read as: CTRL with SRST 0, the STATUS fields at their bits, every other register, and window words
zero-extended from their widths. -/
def Obligations.HostReadReturnsWordAndChangesNothing : Prop :=
  ∀ s : State,
    (∀ a : Addr,
      ∃ resp, s.hostRead a = { s with ports := { s.ports with hResp := some resp } } ∧
        (s.regs.NoWordAt a.toNat → resp = ⟨true, some 0#64⟩) ∧
        (¬ s.regs.NoWordAt a.toNat → resp = ⟨false, some (s.readTarget (targetOf a))⟩)) ∧
    (s.readTarget (targetOf 0x00#18)).toNat = 0x54554E31 ∧
    (s.readTarget (targetOf 0x01#18)).toNat = s.regs.stop.toNat ∧
    (s.readTarget (targetOf 0x02#18)).toNat =
      s.regs.ready.toNat + 2 * s.regs.detReady.toNat + 4 * s.regs.busy.toNat + 8 * s.regs.running.toNat +
        16 * s.regs.pending.toNat + 2 ^ 8 * s.regs.seqPc.number.toNat + 2 ^ 16 * s.regs.power.toNat ∧
    (∀ q ∈ [(0x03#18, s.regs.evt.toNat), (0x04#18, s.regs.irqEn.toNat), (0x05#18, s.regs.cmdreg.toNat),
        (0x06#18, s.regs.errCode.toNat), (0x07#18, s.regs.errInfo.toNat), (0x08#18, s.regs.pwrCfg.toNat),
        (0x09#18, s.regs.sampleRate.toNat), (0x0A#18, s.regs.minHz.toNat), (0x0B#18, s.regs.maxHz.toNat),
        (0x0C#18, s.regs.thresh.toNat), (0x0D#18, s.regs.epsilon.toNat), (0x0E#18, s.regs.minIdx.toNat),
        (0x0F#18, s.regs.maxIdx.toNat), (0x10#18, s.regs.arg0.toNat), (0x11#18, s.regs.arg1.toNat),
        (0x12#18, s.regs.arg2.toNat), (0x13#18, s.regs.res0.toNat), (0x14#18, s.regs.res1.toNat),
        (0x15#18, s.regs.blkLen.toNat), (0x16#18, s.regs.fA.toNat), (0x17#18, s.regs.fB.toNat),
        (0x18#18, s.regs.hpsIdx.toNat), (0x19#18, s.regs.resName.toNat), (0x1A#18, s.regs.resIdx.toNat),
        (0x1B#18, s.regs.resFreq.toNat), (0x1C#18, s.regs.resDir.toNat), (0x1D#18, s.regs.resSeq.toNat),
        (0x1E#18, s.regs.specSeq.toNat), (0x1F#18, s.regs.discCnt.toNat)],
      (s.readTarget (targetOf q.1)).toNat = q.2) ∧
    (∀ a : Addr, 0x08000 ≤ a.toNat → a.toNat < 0x10000 →
      (s.readTarget (targetOf a)).toNat = (s.mems.blk.read (a.toNat - 0x08000)).toNat) ∧
    (∀ a : Addr, 0x10000 ≤ a.toNat → a.toNat < 0x18000 →
      (s.readTarget (targetOf a)).toNat = (s.mems.re.read (a.toNat - 0x10000)).toNat) ∧
    (∀ a : Addr, 0x18000 ≤ a.toNat → a.toNat < 0x20000 →
      (s.readTarget (targetOf a)).toNat = (s.mems.im.read (a.toNat - 0x18000)).toNat) ∧
    (∀ a : Addr, 0x20000 ≤ a.toNat → a.toNat < 0x28000 →
      (s.readTarget (targetOf a)).toNat = (s.mems.brt.read (a.toNat - 0x20000)).toNat) ∧
    (∀ a : Addr, 0x28000 ≤ a.toNat → a.toNat < 0x2C000 →
      (s.readTarget (targetOf a)).toNat = (s.mems.s1.read (a.toNat - 0x28000)).toNat) ∧
    (∀ a : Addr, 0x2C000 ≤ a.toNat → a.toNat < 0x30000 →
      (s.readTarget (targetOf a)).toNat = (s.mems.s2.read (a.toNat - 0x2C000)).toNat) ∧
    (∀ a : Addr, 0x30000 ≤ a.toNat → a.toNat < 0x34000 →
      (s.readTarget (targetOf a)).toNat = (s.mems.s3.read (a.toNat - 0x30000)).toNat) ∧
    (∀ a : Addr, 0x34000 ≤ a.toNat → a.toNat < 0x38000 →
      (s.readTarget (targetOf a)).toNat = (s.mems.rspec.read (a.toNat - 0x34000)).toNat) ∧
    (∀ a : Addr, 0x38000 ≤ a.toNat → a.toNat < 0x3C000 →
      ((s.readTarget (targetOf a)).toNat : Int) = twc (a.toNat - 0x38000) % 2 ^ 18) ∧
    (∀ a : Addr, 0x3C000 ≤ a.toNat →
      ((s.readTarget (targetOf a)).toNat : Int) = tws (a.toNat - 0x3C000) % 2 ^ 18)

/-- What an accepted register write stores while the engine is idle (20_memory.md section 1, 10_state.md sections 4
and 7): the low W bits, and SAMPLE_RATE, MIN_HZ, MAX_HZ clear DET_READY whatever the value. -/
def Obligations.HostWritesStoreLowBits : Prop :=
  ∀ (s : State) (v : BusData), s.regs.busy = false →
    let wr := fun (a : Addr) (r : Regs) =>
      s.hostWrite a v = { s with regs := r, ports := { s.ports with hResp := some ⟨false, none⟩ } }
    wr 0x04#18 { s.regs with irqEn := v.setWidth 9 } ∧
    wr 0x08#18 { s.regs with pwrCfg := v.setWidth 8 } ∧
    wr 0x09#18 { s.regs with sampleRate := v.setWidth 16, detReady := false } ∧
    wr 0x0A#18 { s.regs with minHz := v.setWidth 32, detReady := false } ∧
    wr 0x0B#18 { s.regs with maxHz := v.setWidth 32, detReady := false } ∧
    wr 0x0C#18 { s.regs with thresh := v.setWidth 32 } ∧
    wr 0x0D#18 { s.regs with epsilon := v.setWidth 32 } ∧
    wr 0x10#18 { s.regs with arg0 := v.setWidth 32 } ∧
    wr 0x11#18 { s.regs with arg1 := v.setWidth 32 } ∧
    wr 0x12#18 { s.regs with arg2 := v.setWidth 32 } ∧
    wr 0x15#18 { s.regs with blkLen := v.setWidth 16 }

/-- A word written through a window is read back with its low W bits, and every other word of every memory and every
register stays (20_memory.md section 2). -/
def Obligations.WindowWriteThenRead : Prop :=
  ∀ (s : State) (a : Addr) (v : BusData), 0x8000 ≤ a.toNat → a.toNat < 0x34000 →
    ¬ (0x20000 ≤ a.toNat ∧ a.toNat < 0x28000) → s.regs.busy = false → ¬ s.regs.NoWordAt a.toNat →
      let t := s.hostWrite a v
      t.ports.hResp = some ⟨false, none⟩ ∧ t.regs = s.regs ∧ t.env = s.env ∧
      t.mems.brt = s.mems.brt ∧ t.mems.rspec = s.mems.rspec ∧ t.mems.stg = s.mems.stg ∧ t.mems.slot = s.mems.slot ∧
      (t.readTarget (targetOf a)).toNat = v.toNat % 2 ^ (if a.toNat < 0x10000 then 16 else 48) ∧
      ∀ b : Addr, b ≠ a → t.readTarget (targetOf b) = s.readTarget (targetOf b)

/-- R101, R114: a write to CMD while idle issues the command and changes nothing else, and the engine's next step
executes it; with a non-zero bit in 63:32, or while busy, it gets ERROR and none is issued. -/
def Obligations.CmdWriteIssuesCommand : Prop :=
  ∀ (s : State) (v : BusData),
    (s.regs.busy = false → v.toNat < 2 ^ 32 →
      s.hostWrite 0x05#18 v =
        { s with
          regs := { s.regs with cmdreg := BitVec.ofNat 32 v.toNat, busy := true }
          ports := { s.ports with hResp := some ⟨false, none⟩ } }) ∧
    (s.regs.busy = false → v.toNat < 2 ^ 32 → s.regs.running = false → s.engineMoves →
      let t := s.hostWrite 0x05#18 v
      (∀ i, decodeCommand (BitVec.ofNat 32 v.toNat) = .ok i → step t = exec i t.atTurn) ∧
      (∀ e, decodeCommand (BitVec.ofNat 32 v.toNat) = .error e → step t = .next (afterError t.atTurn 0x31#8))) ∧
    (s.regs.busy = true ∨ 2 ^ 32 ≤ v.toNat →
      s.hostWrite 0x05#18 v = { s with ports := { s.ports with hResp := some ⟨true, none⟩ } })

/-- R261, R262, R263: a write to CTRL, accepted at any time, sets or clears STOP and nothing else, or with bit 1 set
puts every register at its reset value and keeps the memories. -/
def Obligations.CtrlWriteStopsOrResets : Prop :=
  ∀ (s : State) (v : BusData),
    (v.getLsbD 1 = false →
      s.hostWrite 0x01#18 v =
        { s with
          regs := { s.regs with stop := v.getLsbD 0 }
          ports := { s.ports with hResp := some ⟨false, none⟩ } }) ∧
    (v.getLsbD 1 = true →
      s.hostWrite 0x01#18 v =
        { s with regs := State.reset.regs, ports := { s.ports with hResp := some ⟨false, none⟩ } }) ∧
    (s.readTarget (targetOf 0x01#18)).getLsbD 1 = false

/-- R265, R286: WR IRQ_EN stores the low nine bits and nothing else, at any time; irq is the OR of the enabled flags
(0 while rst = 1, R310). -/
def Obligations.InterruptEnableAndLine : Prop :=
  ∀ s : State,
    (∀ v : BusData,
      s.hostWrite 0x04#18 v =
        { s with
          regs := { s.regs with irqEn := v.setWidth 9 }
          ports := { s.ports with hResp := some ⟨false, none⟩ } }) ∧
    (s.irq = true ↔ s.env.rst = false ∧ ∃ k < 9, s.regs.evt.getLsbD k = true ∧ s.regs.irqEn.getLsbD k = true)

/-! ### Rules about the whole machine -/

/-- R264: W1C EVT clears the flags of its mask and nothing else, at any time, and an event flag becomes 0 only so or by
a reset. -/
def Obligations.EventsAreSticky : Prop :=
  (∀ (s : State) (v : BusData),
    s.hostWrite 0x03#18 v =
      { s with
        regs := { s.regs with evt := s.regs.evt &&& ~~~(v.setWidth 9) }
        ports := { s.ports with hResp := some ⟨false, none⟩ } }) ∧
  ∀ (s t : State) (k : Nat), step s = .next t → s.regs.evt.getLsbD k = true → t.regs.evt.getLsbD k = false →
    (∃ v rest, s.nextTurn = .host ∧ s.env.hostQ = .write 0x03#18 v :: rest ∧ v.getLsbD k = true) ∨
    (∃ v rest, s.nextTurn = .host ∧ s.env.hostQ = .write 0x01#18 v :: rest ∧ v.getLsbD 1 = true) ∨
    (∃ c, s.nextTurn = .rstFall c ∧ s.env.rst = true)

/-- No step of the engine or of the producer writes CTRL.STOP, IRQ_EN, CMDREG, a configuration register or ARG0 to
ARG2 (10_state.md sections 2, 3 and 7). -/
def Obligations.EngineLeavesHostRegisters : Prop :=
  ∀ s t : State, s.nextTurn = .engine ∨ s.nextTurn = .producer → step s = .next t →
    t.regs.stop = s.regs.stop ∧ t.regs.irqEn = s.regs.irqEn ∧ t.regs.cmdreg = s.regs.cmdreg ∧
    t.regs.pwrCfg = s.regs.pwrCfg ∧ t.regs.sampleRate = s.regs.sampleRate ∧ t.regs.minHz = s.regs.minHz ∧
    t.regs.maxHz = s.regs.maxHz ∧ t.regs.thresh = s.regs.thresh ∧ t.regs.epsilon = s.regs.epsilon ∧
    t.regs.arg0 = s.regs.arg0 ∧ t.regs.arg1 = s.regs.arg1 ∧ t.regs.arg2 = s.regs.arg2

/-- Every command but REMOVE and RUN ends in the one engine step that executes it (70_reset_and_hazards.md
section 4). -/
def Obligations.CommandsEndInOneStep : Prop :=
  ∀ s : State, s.engineMoves → s.regs.busy = true → s.regs.running = false →
    decodeCommand s.regs.cmdreg ≠ .ok .remove → decodeCommand s.regs.cmdreg ≠ .ok .run →
      ∃ t, step s = .next t ∧ t.regs.busy = false ∧
        (t.regs.evt.getLsbD 0 = true ∨ t.regs.evt.getLsbD 1 = true)

/-- A RUN ends when STOP is held: with no step of another agent in between, within 20 engine steps
(70_reset_and_hazards.md section 4: at most one more full cycle). That the engine moves at each step once the list of
turns is used up is the model's choice (assumption log 4). -/
def Obligations.HeldStopEndsRun : Prop :=
  ∀ s : State, s.env.turns = [] → s.env.rst = false → s.regs.ControlOk → s.regs.running = true →
    s.regs.stop = true →
      ∃ k ≤ 20, ∃ t, Host.Core.run Sys2Proof.core k s = .next t ∧ t.regs.running = false ∧ t.regs.busy = false ∧
        t.regs.seqPc = .idle ∧ t.regs.evt.getLsbD 0 = true ∧ t.regs.evt.getLsbD 3 = true

/-- R310, R60: when rst falls every register has the reset value of the spec; while rst = 1 nothing is accepted, no
agent takes a step, and the outputs are 0. That the turn of the falling edge carries the memories' unspecified contents
is the model's choice (assumption log 3, DESIGN CHOICE), and that rst is a level held in State, so that a turn taken
while it is 1 changes nothing, its reading of R310 (assumption log 8, DEDUCED). -/
def Obligations.HardwareReset : Prop :=
  (∀ (s : State) (c : Mems), s.nextTurn = .rstFall c → s.env.rst = true →
    ∃ t, step s = .next t ∧ t.mems = c ∧ t.irq = false ∧ t.env.rst = false ∧
      t.regs =
        { stop := false, ready := false, detReady := false, busy := false, running := false, pending := false,
          seqPc := .idle, power := 0, evt := 0, irqEn := 0, cmdreg := 0, errCode := 0, errInfo := 0, pwrCfg := 12,
          sampleRate := 8000, minHz := 0x00320000, maxHz := 0x03DE0000, thresh := 0x000A0000,
          epsilon := 0x00010000, minIdx := 0, maxIdx := 0, arg0 := 0, arg1 := 0, arg2 := 0, res0 := 0, res1 := 0,
          blkLen := 0, fA := 0, fB := 0, hpsIdx := 0, resName := 0, resIdx := 0, resFreq := 0, resDir := 0,
          resSeq := 0, specSeq := 0, discCnt := 0, wp := 0, slotLen := 0 }) ∧
  (∀ s : State, s.env.rst = true → s.nextTurn = .host ∨ s.nextTurn = .producer ∨ s.nextTurn = .engine →
    step s = .next s.atTurn ∧ s.irq = false ∧ s.hReady = false ∧ ∀ last, s.pReady last = false) ∧
  (∀ s : State, s.nextTurn = .rstRise → ∃ t, step s = .next t ∧ t.env.rst = true ∧ t.ports.pErr = false)

/-! ### Invariants -/

/-- The reset state satisfies every invariant below. For `MemoryOk` this rests on the model's choices: the canonical form
(assumption log 1), memories that list nothing at reset (log 2, DESIGN CHOICE, unsafe) and no turns to come (log 4). -/
def Obligations.ResetSatisfiesInvariants : Prop :=
  State.reset.MemoryOk ∧ State.reset.regs.ControlOk ∧ State.reset.regs.FifoOk ∧ State.reset.regs.ScanWindowOk ∧
    State.reset.BitReversalOk ∧ State.reset.regs.CycleOk

/-- Every step keeps the memories canonical and within their depths (10_state.md section 10; the canonical form is
the model's own, assumption log 1 and 2). -/
def Obligations.StepKeepsMemoryOk : Prop :=
  ∀ s t : State, s.MemoryOk → step s = .next t → t.MemoryOk

/-- Every step keeps the control registers consistent (10_state.md sections 4 and 6, 60_exceptions.md section 1). -/
def Obligations.StepKeepsControlOk : Prop :=
  ∀ s t : State, s.regs.ControlOk → step s = .next t → t.regs.ControlOk

/-- Every step keeps: a pending block exists only after INIT and has length N (40_fifo.md sections 1 and 3). -/
def Obligations.StepKeepsFifoOk : Prop :=
  ∀ s t : State, s.regs.FifoOk → step s = .next t → t.regs.FifoOk

/-- Every step keeps: DET_READY = 1 only with the window that DINIT derives from the current registers (10_state.md
section 4). -/
def Obligations.StepKeepsScanWindowOk : Prop :=
  ∀ s t : State, s.regs.ScanWindowOk → step s = .next t → t.regs.ScanWindowOk

/-- Every step keeps: after INIT the table BRT is the bit reversal (10_state.md section 10, 41_fft.md section 2). -/
def Obligations.StepKeepsBitReversalOk : Prop :=
  ∀ s t : State, s.BitReversalOk → step s = .next t → t.BitReversalOk

/-- Every step keeps the consistency of a running cycle; so the error branch of POP_A and POP_B is never taken
(42_hps_detector.md section 5). That the host cannot write F_A and F_B is the model's choice (assumption log 28). -/
def Obligations.StepKeepsCycleOk : Prop :=
  ∀ s t : State, s.regs.ControlOk → s.regs.FifoOk → s.regs.ScanWindowOk → s.regs.CycleOk →
    step s = .next t → t.regs.CycleOk ∧ (s.regs.seqPc = .popA ∨ s.regs.seqPc = .popB →
      t.regs.errCode = s.regs.errCode ∨ t.regs = Regs.reset)

/-- No instruction faults or is refused in any state, and no step of a state with consistent control registers is. -/
def Obligations.StepAlwaysContinues : Prop :=
  (∀ (i : Instr) (s : State), ∃ t, exec i s = .next t) ∧
  ∀ s : State, s.regs.ControlOk → ∃ t, step s = .next t

/-- What the memories hold beyond the valid lengths, and anywhere before INIT, is not observable: two machines that
differ only there take the same step, give the same outputs and still differ only there (10_state.md sections 10
and 11). -/
def Obligations.HiddenWordsAreUnobservable : Prop :=
  ∀ (s t : State) (ms : Mems),
    s.regs.ControlOk → s.regs.ScanWindowOk → s.regs.CycleOk → SameVisible s.regs s.mems ms →
    step s = .next t →
      ∃ ms', step { s with mems := ms } = .next { t with mems := ms' } ∧ SameVisible t.regs t.mems ms'

/-! ### The transform -/

/-- R154, the spec's own inference from R153: for every power the table is an involution and a permutation of [0, 2^p).
And the definition of bitrev_p by its bits (00_scope.md R14). -/
def Obligations.BitReversalIsInvolution : Prop :=
  ∀ p i : Nat, i < 2 ^ p →
    bitrev p i < 2 ^ p ∧ bitrev p (bitrev p i) = i ∧
    (∀ b < p, (bitrev p i).testBit (p - 1 - b) = i.testBit b) ∧
    (∀ j < 2 ^ p, bitrev p j = bitrev p i → j = i)

/-- R160: every ROM entry is the integer nearest to 65536 times the cosine or sine, and lies in [-65536, 65536]. -/
def Obligations.TwiddleRomIsNearest : Prop :=
  ∀ j : Nat, j < 16384 →
    |(twc j : ℝ) - 65536 * Real.cos (2 * Real.pi * j / 32768)| < 1 / 2 ∧
    |(tws j : ℝ) - 65536 * Real.sin (2 * Real.pi * j / 32768)| < 1 / 2 ∧
    |twc j| ≤ 65536 ∧ |tws j| ≤ 65536

/-- R168: with exact complex arithmetic in place of the rounded one, the model's own loops of stages and the final
permutation compute the unscaled discrete Fourier sum for every power, forward with e^(-iθ) and inverse with e^(+iθ).
The model's transform is these loops with the ROM butterfly, followed in the forward direction alone by the scaling; and
the scaling is by 1/N: of both parts it answers the integer nearest to the part over 2^p, the upper one on a tie
(R162, R167). -/
def Obligations.ScheduleComputesFourierTransform : Prop :=
  (∀ (inv : Bool) (p : Nat) (x : List ℂ), x.length = 2 ^ p →
    let sign : ℂ := if inv then 1 else -1
    let root := fun t : Nat => Complex.exp (sign * (2 * Real.pi * Complex.I * t / 2 ^ p))
    let bf : Nat → Butterfly ℂ := fun t a b => ((a + root t * b, a - root t * b), false)
    let y := permute (bitrev p) (2 ^ p) (runStages bf (bitrev p) p (x, false)).1
    y.length = 2 ^ p ∧ ∀ k < 2 ^ p, y.getD k 0 = ∑ n ∈ Finset.range (2 ^ p), x.getD n 0 * root (n * k)) ∧
  (∀ (inv : Bool) (brt : Nat → Nat) (p : Nat) (x : List Cplx),
    let z := runStages (romButterfly inv p) brt p (x, false)
    let y := permute brt (2 ^ p) z.1
    transformSeries inv brt p x = (if inv = true then y else y.map (scale p), z.2)) ∧
  ∀ (p : Nat) (x : Cplx), ∀ q ∈ [((scale p x).re, x.re), ((scale p x).im, x.im)],
    -(1 / 2 : ℚ) < q.1 - q.2 / 2 ^ p ∧ (q.1 - q.2 / 2 ^ p : ℚ) ≤ 1 / 2

/-- A forward transform of samples as POPUL writes them never overflows (41_fft.md section 5, R166's claim). -/
def Obligations.ForwardTransformOfSamplesFits : Prop :=
  ∀ (p : Nat) (samples : List (BitVec 16)), p ≤ 15 → samples.length = 2 ^ p →
    (transformSeries false (bitrev p) p (samples.map (fun d => ⟨d.toInt * 65536, 0⟩))).2 = false

/-- For p <= 2 a forward and then an inverse transform give samples loaded by POPUL back exactly, without overflow
(41_fft.md section 5, R168's claim). -/
def Obligations.ShortTransformsRoundTrip : Prop :=
  ∀ (p : Nat) (samples : List (BitVec 16)), p ≤ 2 → samples.length = 2 ^ p →
    let x := samples.map (fun d => (⟨d.toInt * 65536, 0⟩ : Cplx))
    let y := transformSeries false (bitrev p) p x
    let z := transformSeries true (bitrev p) p y.1
    z.1 = x ∧ y.2 = false ∧ z.2 = false
end

