-- ==== Sys2Proof/Laws/Arith.lean ====
section
/-! SUPPORT. The arithmetic primitives against Mathlib's: the wrap to 48 bits, the floor square
root, and the search of HPS. -/

namespace Sys2Proof.Machine

/-- `fits48` is the range of Q31.16 (00_scope.md R13). -/
theorem fits48_iff (v : Int) : fits48 v = true ↔ -2 ^ 47 ≤ v ∧ v < 2 ^ 47 := by
  simp only [fits48, Bool.and_eq_true, decide_eq_true_eq]
  norm_num
  omega

/-- What `wrap48` answers: a value in range, congruent to its argument (00_scope.md R14). -/
theorem wrap48_congr_and_fits (v : Int) : wrap48 v % 2 ^ 48 = v % 2 ^ 48 ∧ fits48 (wrap48 v) = true := by
  rw [fits48_iff]
  simp only [wrap48, sextInt, Config.dataW]
  norm_num
  split <;> omega

/-- A value in range stays. -/
theorem wrap48_of_fits (v : Int) (h : fits48 v = true) : wrap48 v = v := by
  rw [fits48_iff] at h
  simp only [wrap48, sextInt, Config.dataW]
  norm_num at h ⊢
  split <;> omega

/-- The bit-by-bit root between two bounds is the floor square root. -/
theorem isqrtBits_eq_sqrt (b v r : Nat) (low : r * r ≤ v) (high : v < (r + 2 ^ b) * (r + 2 ^ b)) :
    isqrtBits b v r = Nat.sqrt v := by
  induction b generalizing r with
  | zero =>
    simp only [isqrtBits]
    exact Nat.eq_sqrt.2 ⟨low, by simpa using high⟩
  | succ b ih =>
    unfold isqrtBits
    split
    · refine ih _ ‹_› ?_
      rw [pow_succ] at high
      convert high using 2 <;> ring
    · exact ih _ low (by omega)

/-- `isqrt` is the floor square root (00_scope.md R14). -/
theorem isqrt_eq_sqrt (v : Nat) : isqrt v = Nat.sqrt v := by
  refine isqrtBits_eq_sqrt _ _ _ (Nat.zero_le _) ?_
  have h : v < 2 ^ (2 * (Nat.log2 v / 2 + 1)) :=
    lt_of_lt_of_le Nat.lt_log2_self (Nat.pow_le_pow_right (by norm_num) (by omega))
  rw [two_mul, pow_add] at h
  simpa using h

/-- What the loop of `hpsArgmax` keeps: the best so far, and that it is the first maximum of the indices seen. -/
theorem hpsBetter_fold (product : Nat → Nat) (lo len : Nat) :
    let r := (List.range' (lo + 1) len).foldl (hpsBetter product) (lo, product lo)
    r.2 = product r.1 ∧ lo ≤ r.1 ∧ r.1 < lo + 1 + len ∧
      ∀ i, lo ≤ i → i < lo + 1 + len → product i < product r.1 ∨ (product i = product r.1 ∧ r.1 ≤ i) := by
  induction len with
  | zero =>
    refine ⟨rfl, le_rfl, by simp, fun i hi hi' => ?_⟩
    obtain rfl : i = lo := by omega
    exact .inr ⟨rfl, le_rfl⟩
  | succ n ih =>
    rw [List.range'_concat, List.foldl_append]
    simp only [List.foldl_cons, List.foldl_nil, one_mul]
    set r := (List.range' (lo + 1) n).foldl (hpsBetter product) (lo, product lo)
    obtain ⟨h1, h2, h3, h4⟩ := ih
    unfold hpsBetter
    split
    · rename_i hlt
      rw [h1] at hlt
      refine ⟨rfl, by simp only; omega, by simp only; omega, fun i hi hi' => ?_⟩
      rcases Nat.lt_or_ge i (lo + 1 + n) with hc | hc
      · have := h4 i hi hc
        simp only
        omega
      · obtain rfl : i = lo + 1 + n := by omega
        exact .inr ⟨rfl, le_rfl⟩
    · rename_i hlt
      rw [h1] at hlt
      refine ⟨h1, h2, by omega, fun i hi hi' => ?_⟩
      rcases Nat.lt_or_ge i (lo + 1 + n) with hc | hc
      · exact h4 i hi hc
      · obtain rfl : i = lo + 1 + n := by omega
        omega

end Sys2Proof.Machine
end

