-- ==== Sys2Proof/Laws/Decode.lean ====
section
/-! SUPPORT. Which instructions the two decoders can answer: a command word never decodes to a producer beat, and a
beat always to one. -/

namespace Sys2Proof

/-- The engine commands, as against the two producer beats. -/
def Instr.isCommand : Instr → Bool
  | .push _ => false
  | .commit _ => false
  | _ => true

theorem decodeZ_ok {i j : Instr} {w : CommandWord} (h : decodeZ i w = .ok j) : j = i ∧ zeroFieldZ w = 0#24 := by
  unfold decodeZ at h
  split at h
  · exact ⟨(Except.ok.inj h).symm, ‹_›⟩
  · cases h

theorem decodeX_ok {j : Instr} {w : CommandWord} (h : decodeX w = .ok j) :
    j = .xform (invField w) ∧ zeroFieldX w = 0#23 := by
  unfold decodeX at h
  split at h
  · exact ⟨(Except.ok.inj h).symm, ‹_›⟩
  · cases h

theorem decodeD_ok {j : Instr} {w : CommandWord} (h : decodeD w = .ok j) :
    (j = .downsS2 (factorField w).toInt ∧ dstField w = 0x02#8) ∨
      (j = .downsS3 (factorField w).toInt ∧ dstField w = 0x03#8) := by
  unfold decodeD at h
  split at h
  · exact .inl ⟨(Except.ok.inj h).symm, ‹_›⟩
  · split at h
    · exact .inr ⟨(Except.ok.inj h).symm, ‹_›⟩
    · cases h

/-- A command word decodes to an engine command. -/
theorem decodeCommand_isCommand {w : CommandWord} {i : Instr} (h : decodeCommand w = .ok i) :
    i.isCommand = true := by
  unfold decodeCommand at h
  split at h
  case h_6 => rw [(decodeX_ok h).1]; rfl
  case h_8 => rcases decodeD_ok h with h | h <;> rw [h.1] <;> rfl
  case h_15 => cases h
  all_goals rw [(decodeZ_ok h).1]; rfl

/-- A beat decodes to COMMIT with its sample when p_last is set, and to PUSH with it otherwise. -/
theorem decodeBeat_eq (b : BitVec 17) :
    decodeBeat b =
      if b.getLsbD 16 then .commit (b.extractLsb' 0 16).toInt else .push (b.extractLsb' 0 16).toInt := rfl

end Sys2Proof
end

