-- ==== Sys2Proof/Laws/Memory.lean ====
section
/-! SUPPORT. What a read answers after a write and after an array write, and that every memory operation keeps the
canonical form and the depth. -/

namespace Sys2Proof.Machine

variable {w : Nat}

/-! ### Looking up a cell -/

theorem lookupCell_of_absent (xs : List (Nat × BitVec w)) (i : Nat) (h : ∀ c ∈ xs, c.1 ≠ i) :
    lookupCell xs i = Memory.unlisted w := by
  induction xs with
  | nil => rfl
  | cons c cs ih =>
    simp only [List.mem_cons, forall_eq_or_imp] at h
    simp only [lookupCell, if_neg h.1, ih h.2]

theorem lookupCell_append_of_absent_left (xs ys : List (Nat × BitVec w)) (i : Nat) (h : ∀ c ∈ xs, c.1 ≠ i) :
    lookupCell (xs ++ ys) i = lookupCell ys i := by
  induction xs with
  | nil => rfl
  | cons c cs ih =>
    simp only [List.mem_cons, forall_eq_or_imp] at h
    simp only [List.cons_append, lookupCell, if_neg h.1, ih h.2]

theorem lookupCell_append_of_absent_right (xs ys : List (Nat × BitVec w)) (i : Nat) (h : ∀ c ∈ ys, c.1 ≠ i) :
    lookupCell (xs ++ ys) i = lookupCell xs i := by
  induction xs with
  | nil => simpa [lookupCell] using lookupCell_of_absent ys i h
  | cons c cs ih => simp only [List.cons_append, lookupCell, ih]

theorem lookupCell_filter (xs : List (Nat × BitVec w)) (q : Nat → Bool) (i : Nat) (hq : q i = true) :
    lookupCell (xs.filter (fun c => q c.1)) i = lookupCell xs i := by
  induction xs with
  | nil => rfl
  | cons c cs ih =>
    by_cases hc : c.1 = i
    · simp [lookupCell, hc, hq]
    · by_cases hqc : q c.1 = true <;> simp [lookupCell, hc, hqc, ih]

theorem mem_listedCell {i : Nat} {v : BitVec w} {c : Nat × BitVec w} (h : c ∈ listedCell i v) :
    c = (i, v) ∧ v ≠ Memory.unlisted w := by
  unfold listedCell at h
  split at h
  · simp at h
  · exact ⟨by simpa using h, ‹_›⟩

theorem lookupCell_listedCell (i : Nat) (v : BitVec w) : lookupCell (listedCell i v) i = v := by
  unfold listedCell
  split
  · simp only [lookupCell]; exact (‹v = _›).symm
  · simp [lookupCell]

/-! ### Reads after writes -/

/-- A read after `MEM[i] <- v` gives `v` at `i` and what it gave before everywhere else. -/
theorem Memory.read_write (m : Memory w) (i k : Nat) (v : BitVec w) :
    (m.write i v).read k = if k = i then v else m.read k := by
  have hA : ∀ j, i ≤ j → ∀ c ∈ m.cells.filter (fun c => decide (c.1 < i)), c.1 ≠ j := by
    intro j hj c hc; simp at hc; omega
  have hB : ∀ j, j ≤ i → ∀ c ∈ m.cells.filter (fun c => decide (i < c.1)), c.1 ≠ j := by
    intro j hj c hc; simp at hc; omega
  have hL : ∀ j, j ≠ i → ∀ c ∈ listedCell i v, c.1 ≠ j := by
    intro j hj c hc; rw [(mem_listedCell hc).1]; exact fun h => hj h.symm
  unfold Memory.write Memory.read
  rcases Nat.lt_trichotomy k i with h | h | h
  · rw [lookupCell_append_of_absent_right _ _ _ (hB k (by omega)),
      lookupCell_append_of_absent_right _ _ _ (hL k (by omega)),
      lookupCell_filter m.cells (fun j => decide (j < i)) k (by simpa using h), if_neg (by omega)]
  · subst h
    rw [lookupCell_append_of_absent_right _ _ _ (hB k (by omega)),
      lookupCell_append_of_absent_left _ _ _ (hA k (by omega)), lookupCell_listedCell, if_pos rfl]
  · rw [List.append_assoc, lookupCell_append_of_absent_left _ _ _ (hA k (by omega)),
      lookupCell_append_of_absent_left _ _ _ (hL k (by omega)),
      lookupCell_filter m.cells (fun j => decide (i < j)) k (by simpa using h), if_neg (by omega)]

theorem mem_fillCells {n : Nat} {f : Nat → BitVec w} {c : Nat × BitVec w}
    (h : c ∈ (List.range n).flatMap (fun i => listedCell i (f i))) :
    c.1 < n ∧ c.2 = f c.1 ∧ c.2 ≠ Memory.unlisted w := by
  obtain ⟨i, hi, hc⟩ := List.mem_flatMap.1 h
  obtain ⟨rfl, hv⟩ := mem_listedCell hc
  exact ⟨by simpa using hi, rfl, hv⟩

theorem lookupCell_fillCells (n : Nat) (f : Nat → BitVec w) (k : Nat) (hk : k < n) :
    lookupCell ((List.range n).flatMap (fun i => listedCell i (f i))) k = f k := by
  induction n with
  | zero => omega
  | succ n ih =>
    rw [List.range_succ, List.flatMap_append]
    simp only [List.flatMap_cons, List.flatMap_nil, List.append_nil]
    by_cases h : k < n
    · rw [lookupCell_append_of_absent_right, ih h]
      intro c hc; rw [(mem_listedCell hc).1]; simp; omega
    · have hkn : k = n := by omega
      subst hkn
      rw [lookupCell_append_of_absent_left, lookupCell_listedCell]
      intro c hc; have := (mem_fillCells hc).1; omega

/-- A read after an array write gives the written word below `n` and what it gave before from `n` on. -/
theorem Memory.read_fill (m : Memory w) (n k : Nat) (f : Nat → BitVec w) :
    (m.fill n f).read k = if k < n then f k else m.read k := by
  unfold Memory.fill Memory.read
  by_cases h : k < n
  · rw [lookupCell_append_of_absent_right, lookupCell_fillCells n f k h, if_pos h]
    intro c hc; simp at hc; omega
  · rw [lookupCell_append_of_absent_left,
      lookupCell_filter m.cells (fun j => decide (n ≤ j)) k (by simp; omega), if_neg h]
    intro c hc; have := (mem_fillCells hc).1; omega

@[simp] theorem Memory.read_empty (i : Nat) : (Memory.empty w).read i = 0#w := rfl

@[simp] theorem Memory.words_length (m : Memory w) (n : Nat) : (m.words n).length = n := by simp [Memory.words]

/-! ### The canonical form -/

theorem cellsWf_mono {xs : List (Nat × BitVec w)} {lo lo' : Nat} (h : cellsWf lo' xs = true) (hle : lo ≤ lo') :
    cellsWf lo xs = true := by
  cases xs with
  | nil => rfl
  | cons c cs =>
    simp only [cellsWf, Bool.and_eq_true, decide_eq_true_eq] at h ⊢
    exact ⟨⟨by omega, h.1.2⟩, h.2⟩

theorem cellsWf_filter {xs : List (Nat × BitVec w)} (q : Nat × BitVec w → Bool) {lo : Nat}
    (h : cellsWf lo xs = true) : cellsWf lo (xs.filter q) = true := by
  induction xs generalizing lo with
  | nil => rfl
  | cons c cs ih =>
    simp only [cellsWf, Bool.and_eq_true, decide_eq_true_eq] at h
    by_cases hq : q c = true
    · simp only [List.filter_cons, hq, if_true, cellsWf, Bool.and_eq_true, decide_eq_true_eq]
      exact ⟨h.1, ih h.2⟩
    · simp only [List.filter_cons, hq]
      exact cellsWf_mono (ih h.2) (by omega)

theorem cellsWf_raise {xs : List (Nat × BitVec w)} {lo lo' : Nat} (h : cellsWf lo xs = true)
    (hb : ∀ c ∈ xs, lo' ≤ c.1) : cellsWf lo' xs = true := by
  cases xs with
  | nil => rfl
  | cons c cs =>
    simp only [cellsWf, Bool.and_eq_true, decide_eq_true_eq] at h ⊢
    exact ⟨⟨hb c (by simp), h.1.2⟩, h.2⟩

theorem cellsWf_append {xs ys : List (Nat × BitVec w)} {lo mid : Nat} (hx : cellsWf lo xs = true)
    (hb : ∀ c ∈ xs, c.1 < mid) (hy : cellsWf mid ys = true) (hle : lo ≤ mid) : cellsWf lo (xs ++ ys) = true := by
  induction xs generalizing lo with
  | nil => exact cellsWf_mono hy hle
  | cons c cs ih =>
    simp only [cellsWf, Bool.and_eq_true, decide_eq_true_eq] at hx
    simp only [List.cons_append, cellsWf, Bool.and_eq_true, decide_eq_true_eq]
    have := hb c (by simp)
    exact ⟨hx.1, ih hx.2 (fun d hd => hb d (by simp [hd])) (by omega)⟩

theorem cellsWf_listedCell (i : Nat) (v : BitVec w) : cellsWf i (listedCell i v) = true := by
  unfold listedCell
  split
  · rfl
  · simpa [cellsWf] using ‹¬ v = _›

theorem Memory.wf_empty : (Memory.empty w).wf = true := rfl

/-- A write keeps the canonical form. -/
theorem Memory.wf_write {m : Memory w} (h : m.wf = true) (i : Nat) (v : BitVec w) : (m.write i v).wf = true := by
  unfold Memory.wf Memory.write at *
  have h1 : cellsWf i (listedCell i v ++ m.cells.filter (fun c => decide (i < c.1))) = true := by
    refine cellsWf_append (mid := i + 1) (cellsWf_listedCell i v) ?_ ?_ (by omega)
    · intro c hc; rw [(mem_listedCell hc).1]; simp
    · exact cellsWf_raise (cellsWf_filter _ h) (by intro c hc; simp at hc; omega)
  rw [List.append_assoc]
  exact cellsWf_append (cellsWf_filter _ h) (by intro c hc; simp at hc; omega) h1 (by omega)

theorem cellsWf_fillCells (n : Nat) (f : Nat → BitVec w) :
    cellsWf 0 ((List.range n).flatMap (fun i => listedCell i (f i))) = true := by
  induction n with
  | zero => rfl
  | succ n ih =>
    rw [List.range_succ, List.flatMap_append]
    simp only [List.flatMap_cons, List.flatMap_nil, List.append_nil]
    exact cellsWf_append ih (fun c hc => (mem_fillCells hc).1) (cellsWf_listedCell n (f n)) (by omega)

/-- An array write keeps the canonical form. -/
theorem Memory.wf_fill {m : Memory w} (h : m.wf = true) (n : Nat) (f : Nat → BitVec w) : (m.fill n f).wf = true := by
  unfold Memory.wf Memory.fill at *
  refine cellsWf_append (mid := n) (cellsWf_fillCells n f) (fun c hc => (mem_fillCells hc).1) ?_ (by omega)
  exact cellsWf_raise (cellsWf_filter _ h) (by intro c hc; simp at hc; omega)

/-- A write below the depth keeps the depth. -/
theorem Memory.within_write {m : Memory w} {d i : Nat} (h : m.within d = true) (hi : i < d) (v : BitVec w) :
    (m.write i v).within d = true := by
  simp only [Memory.within, Memory.write, List.all_eq_true, decide_eq_true_eq, List.mem_append,
    List.mem_filter] at *
  rintro c ((hc | hc) | hc)
  · exact h c hc.1
  · rw [(mem_listedCell hc).1]; exact hi
  · exact h c hc.1

/-- An array write below the depth keeps the depth. -/
theorem Memory.within_fill {m : Memory w} {d n : Nat} (h : m.within d = true) (hn : n ≤ d) (f : Nat → BitVec w) :
    (m.fill n f).within d = true := by
  simp only [Memory.within, Memory.fill, List.all_eq_true, decide_eq_true_eq, List.mem_append,
    List.mem_filter] at *
  rintro c (hc | hc)
  · have := (mem_fillCells hc).1; omega
  · exact h c hc.1

theorem Memory.wfAt_write {m : Memory w} {d i : Nat} (h : m.wfAt d = true) (hi : i < d) (v : BitVec w) :
    (m.write i v).wfAt d = true := by
  simp only [Memory.wfAt, Bool.and_eq_true] at *
  exact ⟨Memory.wf_write h.1 i v, Memory.within_write h.2 hi v⟩

theorem Memory.wfAt_fill {m : Memory w} {d n : Nat} (h : m.wfAt d = true) (hn : n ≤ d) (f : Nat → BitVec w) :
    (m.fill n f).wfAt d = true := by
  simp only [Memory.wfAt, Bool.and_eq_true] at *
  exact ⟨Memory.wf_fill h.1 n f, Memory.within_fill h.2 hn f⟩

theorem Mems.wf_empty : Mems.empty.wf = true := rfl

theorem lookupCell_of_lt {xs : List (Nat × BitVec w)} {lo i : Nat} (h : cellsWf lo xs = true) (hi : i < lo) :
    lookupCell xs i = Memory.unlisted w := by
  induction xs generalizing lo with
  | nil => rfl
  | cons c cs ih =>
    simp only [cellsWf, Bool.and_eq_true, decide_eq_true_eq] at h
    simp only [lookupCell]
    rw [if_neg (by omega), ih h.2 (by omega)]

theorem cells_ext {xs ys : List (Nat × BitVec w)} {lo lo' : Nat} (hx : cellsWf lo xs = true)
    (hy : cellsWf lo' ys = true) (h : ∀ i, lookupCell xs i = lookupCell ys i) : xs = ys := by
  induction xs generalizing ys lo lo' with
  | nil =>
    cases ys with
    | nil => rfl
    | cons d ds =>
      simp only [cellsWf, Bool.and_eq_true, decide_eq_true_eq] at hy
      exact absurd (by simpa [lookupCell] using (h d.1).symm) hy.1.2
  | cons c cs ih =>
    have hx' := hx
    simp only [cellsWf, Bool.and_eq_true, decide_eq_true_eq] at hx'
    cases ys with
    | nil => exact absurd (by simpa [lookupCell] using h c.1) hx'.1.2
    | cons d ds =>
      have hy' := hy
      simp only [cellsWf, Bool.and_eq_true, decide_eq_true_eq] at hy'
      have hlow : ∀ {zs : List (Nat × BitVec w)} {e : Nat × BitVec w} {i : Nat}, cellsWf e.1 (e :: zs) = true →
          i < e.1 → lookupCell (e :: zs) i = Memory.unlisted w := fun hz hi => lookupCell_of_lt hz hi
      have hd : cellsWf d.1 (d :: ds) = true := by simp [cellsWf, hy'.1.2, hy'.2]
      have hc : cellsWf c.1 (c :: cs) = true := by simp [cellsWf, hx'.1.2, hx'.2]
      rcases Nat.lt_trichotomy c.1 d.1 with hlt | heq | hgt
      · exact absurd (by simpa [lookupCell] using (h c.1).trans (hlow hd hlt)) hx'.1.2
      · have hcd : c = d := Prod.ext heq (by simpa [lookupCell, heq] using h c.1)
        subst hcd
        have := ih hx'.2 hy'.2 (fun i => by
          by_cases hi : c.1 = i
          · rw [lookupCell_of_lt hx'.2 (by omega), lookupCell_of_lt hy'.2 (by omega)]
          · simpa [lookupCell, hi] using h i)
        rw [this]
      · exact absurd (by simpa [lookupCell] using (h d.1).symm.trans (hlow hc hgt)) hy'.1.2

/-- Two canonical memories that read the same everywhere are the same data. -/
theorem Memory.eq_of_read_eq {m m' : Memory w} (h : m.wf = true) (h' : m'.wf = true)
    (hr : ∀ i, m.read i = m'.read i) : m = m' := by
  cases m; cases m'
  exact congrArg Memory.mk (cells_ext h h' hr)

end Sys2Proof.Machine
end

