-- ==== Sys2Proof/Laws/State.lean ====
section
/-! SUPPORT. What each named update does to each part of the state, true by unfolding once, so that no later proof
unfolds a record update. A field of the registers follows from the `_regs` lemma by projection. -/

namespace Sys2Proof.Machine

@[simp] theorem State.setEvent_regs (s : State) (e : Event) :
    (s.setEvent e).regs =
      { s.regs with evt := s.regs.evt ||| e.mask } := rfl
@[simp] theorem State.setEvent_mems (s : State) (e : Event) : (s.setEvent e).mems = s.mems := rfl
@[simp] theorem State.setEvent_ports (s : State) (e : Event) : (s.setEvent e).ports = s.ports := rfl
@[simp] theorem State.setEvent_env (s : State) (e : Event) : (s.setEvent e).env = s.env := rfl

@[simp] theorem State.clearEvents_regs (s : State) (m : BitVec 9) :
    (s.clearEvents m).regs =
      { s.regs with evt := s.regs.evt &&& ~~~m } := rfl
@[simp] theorem State.clearEvents_mems (s : State) (m : BitVec 9) : (s.clearEvents m).mems = s.mems := rfl
@[simp] theorem State.clearEvents_ports (s : State) (m : BitVec 9) : (s.clearEvents m).ports = s.ports := rfl
@[simp] theorem State.clearEvents_env (s : State) (m : BitVec 9) : (s.clearEvents m).env = s.env := rfl

@[simp] theorem State.recordError_regs (s : State) (e : ErrorCode) (p : Phase) :
    (s.recordError e p).regs =
      { s.regs with errCode := e.number, errInfo := p.number ++ s.regs.cmdreg, evt := s.regs.evt ||| Event.error.mask } := rfl
@[simp] theorem State.recordError_mems (s : State) (e : ErrorCode) (p : Phase) :
    (s.recordError e p).mems =
      s.mems := rfl
@[simp] theorem State.recordError_ports (s : State) (e : ErrorCode) (p : Phase) :
    (s.recordError e p).ports =
      s.ports := rfl
@[simp] theorem State.recordError_env (s : State) (e : ErrorCode) (p : Phase) : (s.recordError e p).env = s.env := rfl

@[simp] theorem State.raise_regs (s : State) (e : ErrorCode) :
    (s.raise e).regs =
      { s.regs with errCode := e.number, errInfo := Phase.idle.number ++ s.regs.cmdreg, evt := s.regs.evt ||| Event.error.mask, busy := false } := rfl
@[simp] theorem State.raise_mems (s : State) (e : ErrorCode) : (s.raise e).mems = s.mems := rfl
@[simp] theorem State.raise_ports (s : State) (e : ErrorCode) : (s.raise e).ports = s.ports := rfl
@[simp] theorem State.raise_env (s : State) (e : ErrorCode) : (s.raise e).env = s.env := rfl

@[simp] theorem State.finish_regs (s : State)  :
    s.finish.regs =
      { s.regs with evt := s.regs.evt ||| Event.done.mask, busy := false } := rfl
@[simp] theorem State.finish_mems (s : State) : s.finish.mems = s.mems := rfl
@[simp] theorem State.finish_ports (s : State) : s.finish.ports = s.ports := rfl
@[simp] theorem State.finish_env (s : State) : s.finish.env = s.env := rfl

@[simp] theorem State.goTo_regs (s : State) (p : Phase) : (s.goTo p).regs = { s.regs with seqPc := p } := rfl
@[simp] theorem State.goTo_mems (s : State) (p : Phase) : (s.goTo p).mems = s.mems := rfl
@[simp] theorem State.goTo_ports (s : State) (p : Phase) : (s.goTo p).ports = s.ports := rfl
@[simp] theorem State.goTo_env (s : State) (p : Phase) : (s.goTo p).env = s.env := rfl

@[simp] theorem State.discardCycle_regs (s : State)  :
    s.discardCycle.regs =
      { s.regs with discCnt := s.regs.discCnt + 1#32, seqPc := .top } := rfl
@[simp] theorem State.discardCycle_mems (s : State) : s.discardCycle.mems = s.mems := rfl
@[simp] theorem State.discardCycle_ports (s : State) : s.discardCycle.ports = s.ports := rfl
@[simp] theorem State.discardCycle_env (s : State) : s.discardCycle.env = s.env := rfl

@[simp] theorem State.raiseInRun_regs (s : State) (e : ErrorCode) :
    (s.raiseInRun e).regs =
      { s.regs with errCode := e.number, errInfo := s.regs.seqPc.number ++ s.regs.cmdreg, evt := s.regs.evt ||| Event.error.mask, discCnt := s.regs.discCnt + 1#32, seqPc := .top } := rfl
@[simp] theorem State.raiseInRun_mems (s : State) (e : ErrorCode) : (s.raiseInRun e).mems = s.mems := rfl
@[simp] theorem State.raiseInRun_ports (s : State) (e : ErrorCode) : (s.raiseInRun e).ports = s.ports := rfl
@[simp] theorem State.raiseInRun_env (s : State) (e : ErrorCode) : (s.raiseInRun e).env = s.env := rfl

@[simp] theorem State.exitRun_regs (s : State)  :
    s.exitRun.regs =
      { s.regs with running := false, seqPc := .idle, busy := false, evt := s.regs.evt ||| Event.stopped.mask ||| Event.done.mask } := rfl
@[simp] theorem State.exitRun_mems (s : State) : s.exitRun.mems = s.mems := rfl
@[simp] theorem State.exitRun_ports (s : State) : s.exitRun.ports = s.ports := rfl
@[simp] theorem State.exitRun_env (s : State) : s.exitRun.env = s.env := rfl

@[simp] theorem State.removeBlock_regs (s : State)  :
    s.removeBlock.regs =
      { s.regs with blkLen := s.regs.slotLen, pending := false } := rfl
@[simp] theorem State.removeBlock_mems (s : State)  :
    s.removeBlock.mems =
      { s.mems with blk := s.mems.blk.fill s.regs.slotLen.toNat s.mems.slot.read } := rfl
@[simp] theorem State.removeBlock_ports (s : State) : s.removeBlock.ports = s.ports := rfl
@[simp] theorem State.removeBlock_env (s : State) : s.removeBlock.env = s.env := rfl

@[simp] theorem State.softReset_regs (s : State) : s.softReset.regs = Regs.reset := rfl
@[simp] theorem State.softReset_mems (s : State) : s.softReset.mems = s.mems := rfl
@[simp] theorem State.softReset_ports (s : State) : s.softReset.ports = s.ports := rfl
@[simp] theorem State.softReset_env (s : State) : s.softReset.env = s.env := rfl

@[simp] theorem State.populate_regs (s : State) : s.populate.regs = s.regs := rfl
@[simp] theorem State.populate_mems (s : State)  :
    s.populate.mems =
      { s.mems with re := s.mems.re.fill s.regs.n (fun i => BitVec.ofInt 48 (s.mems.blkAt i * (Config.one : Nat))), im := s.mems.im.fill s.regs.n (fun _ => 0#48) } := rfl
@[simp] theorem State.populate_ports (s : State) : s.populate.ports = s.ports := rfl
@[simp] theorem State.populate_env (s : State) : s.populate.env = s.env := rfl

@[simp] theorem State.magnitude_regs (s : State)  :
    s.magnitude.regs =
      { s.regs with specSeq := s.regs.specSeq + 1#32, evt := s.regs.evt ||| Event.spectrum.mask } := rfl
@[simp] theorem State.magnitude_mems (s : State)  :
    s.magnitude.mems =
      { s.mems with s1 := s.mems.s1.fill s.regs.h (fun i => BitVec.ofNat 48 (s.mems.magnitudeAt i)) } := rfl
@[simp] theorem State.magnitude_ports (s : State) : s.magnitude.ports = s.ports := rfl
@[simp] theorem State.magnitude_env (s : State) : s.magnitude.env = s.env := rfl

@[simp] theorem State.downsampleS2_regs (s : State) (f : Nat) : (s.downsampleS2 f).regs = s.regs := rfl
@[simp] theorem State.downsampleS2_mems (s : State) (f : Nat) :
    (s.downsampleS2 f).mems =
      { s.mems with s2 := s.mems.s2.fill s.regs.h (s.downsampledAt f) } := rfl
@[simp] theorem State.downsampleS2_ports (s : State) (f : Nat) : (s.downsampleS2 f).ports = s.ports := rfl
@[simp] theorem State.downsampleS2_env (s : State) (f : Nat) : (s.downsampleS2 f).env = s.env := rfl

@[simp] theorem State.downsampleS3_regs (s : State) (f : Nat) : (s.downsampleS3 f).regs = s.regs := rfl
@[simp] theorem State.downsampleS3_mems (s : State) (f : Nat) :
    (s.downsampleS3 f).mems =
      { s.mems with s3 := s.mems.s3.fill s.regs.h (s.downsampledAt f) } := rfl
@[simp] theorem State.downsampleS3_ports (s : State) (f : Nat) : (s.downsampleS3 f).ports = s.ports := rfl
@[simp] theorem State.downsampleS3_env (s : State) (f : Nat) : (s.downsampleS3 f).env = s.env := rfl

@[simp] theorem State.findFundamental_regs (s : State)  :
    s.findFundamental.regs =
      { s.regs with hpsIdx := BitVec.ofNat 16 (hpsArgmax s.mems.hpsProduct s.regs.minIdx.toNat s.regs.maxIdx.toNat) } := rfl
@[simp] theorem State.findFundamental_mems (s : State) : s.findFundamental.mems = s.mems := rfl
@[simp] theorem State.findFundamental_ports (s : State) : s.findFundamental.ports = s.ports := rfl
@[simp] theorem State.findFundamental_env (s : State) : s.findFundamental.env = s.env := rfl

@[simp] theorem State.setWp_regs (s : State) (v : Nat) :
    (s.setWp v).regs =
      { s.regs with wp := BitVec.ofNat 16 v } := rfl
@[simp] theorem State.setWp_mems (s : State) (v : Nat) : (s.setWp v).mems = s.mems := rfl
@[simp] theorem State.setWp_ports (s : State) (v : Nat) : (s.setWp v).ports = s.ports := rfl
@[simp] theorem State.setWp_env (s : State) (v : Nat) : (s.setWp v).env = s.env := rfl

@[simp] theorem State.lengthError_regs (s : State)  :
    s.lengthError.regs =
      { s.regs with evt := s.regs.evt ||| Event.pLenErr.mask } := rfl
@[simp] theorem State.lengthError_mems (s : State) : s.lengthError.mems = s.mems := rfl
@[simp] theorem State.lengthError_ports (s : State) : s.lengthError.ports = { s.ports with pErr := true } := rfl
@[simp] theorem State.lengthError_env (s : State) : s.lengthError.env = s.env := rfl

@[simp] theorem State.insertBlock_regs (s : State)  :
    s.insertBlock.regs =
      { s.regs with slotLen := BitVec.ofNat 16 s.regs.n, pending := true } := rfl
@[simp] theorem State.insertBlock_mems (s : State)  :
    s.insertBlock.mems =
      { s.mems with slot := s.mems.slot.fill s.regs.n s.mems.stg.read } := rfl
@[simp] theorem State.insertBlock_ports (s : State) : s.insertBlock.ports = s.ports := rfl
@[simp] theorem State.insertBlock_env (s : State) : s.insertBlock.env = s.env := rfl

@[simp] theorem State.publish_regs (s : State) (idx : Nat) (avg : Int) :
    (s.publish idx avg).regs =
      { s.regs with resName := noteName idx, resIdx := BitVec.ofNat 6 idx, resFreq := BitVec.ofInt 32 avg, resDir := BitVec.ofNat 2 (tuningDir idx avg s.regs.epsilonSigned), resSeq := s.regs.resSeq + 1#32 } := rfl
@[simp] theorem State.publish_mems (s : State) (idx : Nat) (avg : Int) :
    (s.publish idx avg).mems =
      { s.mems with rspec := s.mems.rspec.fill s.regs.h s.mems.s1.read } := rfl
@[simp] theorem State.publish_ports (s : State) (idx : Nat) (avg : Int) : (s.publish idx avg).ports = s.ports := rfl
@[simp] theorem State.publish_env (s : State) (idx : Nat) (avg : Int) : (s.publish idx avg).env = s.env := rfl

@[simp] theorem State.issue_regs (s : State) (w : CommandWord) :
    (s.issue w).regs =
      { s.regs with cmdreg := w, busy := true } := rfl
@[simp] theorem State.issue_mems (s : State) (w : CommandWord) : (s.issue w).mems = s.mems := rfl
@[simp] theorem State.issue_ports (s : State) (w : CommandWord) : (s.issue w).ports = s.ports := rfl
@[simp] theorem State.issue_env (s : State) (w : CommandWord) : (s.issue w).env = s.env := rfl

@[simp] theorem State.respond_regs (s : State) (r : BusResponse) : (s.respond r).regs = s.regs := rfl
@[simp] theorem State.respond_mems (s : State) (r : BusResponse) : (s.respond r).mems = s.mems := rfl
@[simp] theorem State.respond_ports (s : State) (r : BusResponse) :
    (s.respond r).ports =
      { s.ports with hResp := some r } := rfl
@[simp] theorem State.respond_env (s : State) (r : BusResponse) : (s.respond r).env = s.env := rfl

@[simp] theorem State.takeTurn_regs (s : State) : s.takeTurn.regs = s.regs := rfl
@[simp] theorem State.takeTurn_mems (s : State) : s.takeTurn.mems = s.mems := rfl
@[simp] theorem State.takeTurn_ports (s : State) : s.takeTurn.ports = Ports.quiet := rfl
@[simp] theorem State.takeTurn_env (s : State) : s.takeTurn.env = { s.env with turns := s.env.turns.tail } := rfl

@[simp] theorem State.dropBeat_regs (s : State) : s.dropBeat.regs = s.regs := rfl
@[simp] theorem State.dropBeat_mems (s : State) : s.dropBeat.mems = s.mems := rfl
@[simp] theorem State.dropBeat_ports (s : State) : s.dropBeat.ports = s.ports := rfl
@[simp] theorem State.dropBeat_env (s : State) : s.dropBeat.env = { s.env with beats := s.env.beats.tail } := rfl

@[simp] theorem State.rstRise_regs (s : State) : s.rstRise.regs = s.regs := rfl
@[simp] theorem State.rstRise_mems (s : State) : s.rstRise.mems = s.mems := rfl
@[simp] theorem State.rstRise_ports (s : State) : s.rstRise.ports = s.ports := rfl
@[simp] theorem State.rstRise_env (s : State) : s.rstRise.env = { s.env with rst := true } := rfl

@[simp] theorem State.setEventIf_mems (s : State) (e : Event) (c : Bool) : (s.setEventIf e c).mems = s.mems := by
  cases c <;> rfl
@[simp] theorem State.setEventIf_ports (s : State) (e : Event) (c : Bool) : (s.setEventIf e c).ports = s.ports := by
  cases c <;> rfl
@[simp] theorem State.setEventIf_env (s : State) (e : Event) (c : Bool) : (s.setEventIf e c).env = s.env := by
  cases c <;> rfl
@[simp] theorem State.setEventIf_regs (s : State) (e : Event) (c : Bool) :
    (s.setEventIf e c).regs = { s.regs with evt := if c then s.regs.evt ||| e.mask else s.regs.evt } := by
  cases c <;> rfl

/-- XFORM's register effect: EVT.OVF and nothing else. -/
@[simp] theorem State.transform_regs (s : State) (inv : Bool) :
    (s.transform inv).regs =
      { s.regs with evt := if (s.transformed inv).2 then s.regs.evt ||| Event.ovf.mask else s.regs.evt } := by
  simp [State.transform]

/-- XFORM's memory effect: RE and IM below N. -/
@[simp] theorem State.transform_mems (s : State) (inv : Bool) :
    (s.transform inv).mems =
      { s.mems with
        re := s.mems.re.fill s.regs.n (fun i => BitVec.ofInt 48 ((s.transformed inv).1.getD i default).re)
        im := s.mems.im.fill s.regs.n (fun i => BitVec.ofInt 48 ((s.transformed inv).1.getD i default).im) } := by
  simp [State.transform]

@[simp] theorem State.transform_ports (s : State) (inv : Bool) : (s.transform inv).ports = s.ports := by
  simp [State.transform]

@[simp] theorem State.transform_env (s : State) (inv : Bool) : (s.transform inv).env = s.env := by
  simp [State.transform]

/-- Staging a sample touches STG only, and only while WP is below the depth. -/
@[simp] theorem State.stage_regs (s : State) (d : Int) : (s.stage d).regs = s.regs := by
  unfold State.stage; split <;> rfl

@[simp] theorem State.stage_mems (s : State) (d : Int) :
    (s.stage d).mems =
      { s.mems with
        stg := if s.regs.wp.toNat < Config.nMax then s.mems.stg.write s.regs.wp.toNat (BitVec.ofInt 16 d)
          else s.mems.stg } := by
  unfold State.stage; split <;> rfl

@[simp] theorem State.stage_ports (s : State) (d : Int) : (s.stage d).ports = s.ports := by
  unfold State.stage; split <;> rfl

@[simp] theorem State.stage_env (s : State) (d : Int) : (s.stage d).env = s.env := by
  unfold State.stage; split <;> rfl

/-- INIT's register effect. -/
@[simp] theorem State.construct_regs (s : State) (p : Nat) :
    (s.construct p).regs = { s.regs with blkLen := 0#16, power := BitVec.ofNat 4 p, ready := true } := rfl

@[simp] theorem State.construct_ports (s : State) (p : Nat) : (s.construct p).ports = s.ports := rfl

@[simp] theorem State.construct_env (s : State) (p : Nat) : (s.construct p).env = s.env := rfl

@[simp] theorem State.construct_stg (s : State) (p : Nat) : (s.construct p).mems.stg = s.mems.stg := rfl

@[simp] theorem State.construct_slot (s : State) (p : Nat) : (s.construct p).mems.slot = s.mems.slot := rfl

/-- A write to CTRL is the soft reset when bit 1 is set, and sets STOP from bit 0 otherwise. -/
theorem State.writeCtrl_regs (s : State) (v : BusData) :
    (s.writeCtrl v).regs = if v.getLsbD 1 then Regs.reset else { s.regs with stop := v.getLsbD 0 } := by
  unfold State.writeCtrl; split <;> rfl

@[simp] theorem State.writeCtrl_mems (s : State) (v : BusData) : (s.writeCtrl v).mems = s.mems := by
  unfold State.writeCtrl; split <;> rfl

@[simp] theorem State.writeCtrl_ports (s : State) (v : BusData) : (s.writeCtrl v).ports = s.ports := by
  unfold State.writeCtrl; split <;> rfl

@[simp] theorem State.writeCtrl_env (s : State) (v : BusData) : (s.writeCtrl v).env = s.env := by
  unfold State.writeCtrl; split <;> rfl

/-- No write to a register reaches a memory. -/
@[simp] theorem State.writeReg_mems (s : State) (v : BusData) (r : HostReg) : (s.writeReg v r).mems = s.mems := by
  cases r <;> simp [State.writeReg]

@[simp] theorem State.writeReg_ports (s : State) (v : BusData) (r : HostReg) : (s.writeReg v r).ports = s.ports := by
  cases r <;> simp [State.writeReg]

@[simp] theorem State.writeReg_env (s : State) (v : BusData) (r : HostReg) : (s.writeReg v r).env = s.env := by
  cases r <;> simp [State.writeReg]

@[simp] theorem State.writeTarget_ports (s : State) (v : BusData) (t : Target) :
    (s.writeTarget v t).ports = s.ports := by
  cases t <;> simp [State.writeTarget]

@[simp] theorem State.writeTarget_env (s : State) (v : BusData) (t : Target) :
    (s.writeTarget v t).env = s.env := by
  cases t <;> simp [State.writeTarget]

@[simp] theorem State.hostAccess_env (s : State) (r : HostReq) : (s.hostAccess r).env = s.env := by
  cases r <;> simp only [State.hostAccess, State.hostRead, State.hostWrite] <;> split <;> simp

end Sys2Proof.Machine
end

