-- ==== Sys2Proof/Laws/Ops.lean ====
section
/-! SUPPORT. Each shared operation said once through what reads give afterwards, so that a proof cites it and does not
unfold an array write. -/

namespace Sys2Proof.Machine

/-- The remove operation copies SLOT_LEN words and leaves the rest of BLK. -/
theorem State.removeBlock_blk_read (s : State) (i : Nat) :
    s.removeBlock.mems.blk.read i = if i < s.regs.slotLen.toNat then s.mems.slot.read i else s.mems.blk.read i := by
  simp [Memory.read_fill]

/-- The insert copies N words and leaves the rest of SLOT. -/
theorem State.insertBlock_slot_read (s : State) (i : Nat) :
    s.insertBlock.mems.slot.read i = if i < s.regs.n then s.mems.stg.read i else s.mems.slot.read i := by
  simp [Memory.read_fill]

/-- Staging writes the one word at WP when WP is below the depth. -/
theorem State.stage_stg_read (s : State) (d : Int) (i : Nat) :
    (s.stage d).mems.stg.read i =
      if i = s.regs.wp.toNat ∧ i < Config.nMax then BitVec.ofInt 16 d else s.mems.stg.read i := by
  simp only [State.stage_mems]
  split
  · rw [Memory.read_write]
    by_cases h : i = s.regs.wp.toNat
    · subst h; simp_all
    · simp [h]
  · rw [if_neg]; rintro ⟨rfl, h⟩; contradiction

theorem State.populate_re_read (s : State) (i : Nat) :
    s.populate.mems.re.read i =
      if i < s.regs.n then BitVec.ofInt 48 (s.mems.blkAt i * (Config.one : Nat)) else s.mems.re.read i := by
  simp [Memory.read_fill]

theorem State.populate_im_read (s : State) (i : Nat) :
    s.populate.mems.im.read i = if i < s.regs.n then 0#48 else s.mems.im.read i := by
  simp [Memory.read_fill]

theorem State.transform_re_read (s : State) (inv : Bool) (i : Nat) :
    (s.transform inv).mems.re.read i =
      if i < s.regs.n then BitVec.ofInt 48 ((s.transformed inv).1.getD i default).re else s.mems.re.read i := by
  simp [Memory.read_fill]

theorem State.transform_im_read (s : State) (inv : Bool) (i : Nat) :
    (s.transform inv).mems.im.read i =
      if i < s.regs.n then BitVec.ofInt 48 ((s.transformed inv).1.getD i default).im else s.mems.im.read i := by
  simp [Memory.read_fill]

theorem State.magnitude_s1_read (s : State) (i : Nat) :
    s.magnitude.mems.s1.read i =
      if i < s.regs.h then BitVec.ofNat 48 (s.mems.magnitudeAt i) else s.mems.s1.read i := by
  simp [Memory.read_fill]

theorem State.downsampleS2_s2_read (s : State) (f i : Nat) :
    (s.downsampleS2 f).mems.s2.read i = if i < s.regs.h then s.downsampledAt f i else s.mems.s2.read i := by
  simp [Memory.read_fill]

theorem State.downsampleS3_s3_read (s : State) (f i : Nat) :
    (s.downsampleS3 f).mems.s3.read i = if i < s.regs.h then s.downsampledAt f i else s.mems.s3.read i := by
  simp [Memory.read_fill]

theorem State.publish_rspec_read (s : State) (idx : Nat) (avg : Int) (i : Nat) :
    (s.publish idx avg).mems.rspec.read i = if i < s.regs.h then s.mems.s1.read i else s.mems.rspec.read i := by
  simp [Memory.read_fill]

/-- INIT's table: the bit reversal below 2^p. -/
theorem State.construct_brt_read (s : State) (p i : Nat) :
    (s.construct p).mems.brt.read i = if i < 2 ^ p then BitVec.ofNat 15 (bitrev p i) else s.mems.brt.read i := by
  simp [State.construct, Memory.read_fill]

/-- A read answers data or ERROR and changes only the response. -/
theorem State.hostRead_eq (s : State) (a : Addr) :
    s.hostRead a =
      s.respond (if s.regs.readRefused (targetOf a) then { err := true, rdata := some 0#64 }
        else { err := false, rdata := some (s.readTarget (targetOf a)) }) := by
  unfold State.hostRead; split <;> rfl

/-- A write is refused with nothing changed, or has its effect; the response says which. -/
theorem State.hostWrite_cases (s : State) (a : Addr) (v : BusData) :
    (s.regs.writeRefused v (targetOf a) = true ∧ s.hostWrite a v = s.respond { err := true, rdata := none }) ∨
      (s.regs.writeRefused v (targetOf a) = false ∧
        s.hostWrite a v = (s.writeTarget v (targetOf a)).respond { err := false, rdata := none }) := by
  unfold State.hostWrite
  cases h : s.regs.writeRefused v (targetOf a) <;> simp

/-- The remaining parts a falling edge leaves, when rst was high. -/
theorem State.rstFall_of_rst {s : State} (h : s.env.rst = true) (c : Mems) :
    s.rstFall c = { s with regs := Regs.reset, mems := c, env := { s.env with rst := false } } := by
  simp [State.rstFall, h]

/-- N is at most the depth of the length-N memories, H at most that of the spectra. -/
theorem Regs.n_le (r : Regs) : r.n ≤ Config.nMax := by
  have := r.power.isLt
  unfold Regs.n
  exact Nat.pow_le_pow_right (by omega) (show r.power.toNat ≤ 15 by omega)

theorem Regs.h_le (r : Regs) : r.h ≤ Config.hMax := by
  have := r.n_le
  unfold Regs.h
  simp only [Config.nMax, Config.hMax] at *
  omega

end Sys2Proof.Machine
end

