-- ==== Sys2Proof/Laws/Exec.lean ====
section
/-! SUPPORT. What a command, a beat, a phase and an accepted host write can do, each said once: a claim about every
step is a claim about each case. -/

namespace Sys2Proof.Machine

/-- `u` is `s` with RES0 and RES1 changed. -/
def State.withResults (s : State) (a b : BitVec 32) : State := { s with regs := { s.regs with res0 := a, res1 := b } }

/-- What DINIT writes. -/
def State.bindWindow (s : State) : State :=
  { s with
    regs := { s.regs with
      minIdx := BitVec.ofNat 16 s.regs.windowLo, maxIdx := BitVec.ofNat 16 s.regs.windowHi, detReady := true } }

/-- DINIT's validity conditions as propositions. -/
theorem Regs.windowOk_iff (r : Regs) :
    r.windowOk = true ↔
      r.rate ≠ 0 ∧ 0 ≤ r.minHzSigned ∧ 0 ≤ r.maxHzSigned ∧ r.windowLo < r.windowHi ∧ r.windowHi ≤ r.h := by
  simp [Regs.windowOk, and_assoc]

/-- The cases of a command that answers `next t` in `s`. -/
inductive CommandCase (i : Instr) (s t : State) : Prop where
  | error (e : ErrorCode) (eq : t = s.raise e)
  | nop (instr : i = .nop) (eq : t = s.finish)
  | init (p : Nat) (instr : i = .init) (ready : s.regs.ready = false) (le : p ≤ Config.pMax)
      (power : s.regs.pwrSigned = (p : Int)) (eq : t = (s.construct p).finish)
  | dinit (instr : i = .dinit) (ready : s.regs.ready = true) (ok : s.regs.windowOk = true)
      (eq : t = s.bindWindow.finish)
  | removed (instr : i = .remove) (ready : s.regs.ready = true) (pending : s.regs.pending = true)
      (eq : t = s.removeBlock.finish)
  | cancelled (instr : i = .remove) (ready : s.regs.ready = true) (pending : s.regs.pending = false)
      (stop : s.regs.stop = true) (eq : t = (s.setEvent .stopped).finish)
  | blocked (instr : i = .remove) (ready : s.regs.ready = true) (pending : s.regs.pending = false)
      (stop : s.regs.stop = false) (eq : t = s)
  | popul (instr : i = .popul) (ready : s.regs.ready = true) (len : s.regs.blkLen.toNat = s.regs.n)
      (eq : t = s.populate.finish)
  | xform (inv : Bool) (instr : i = .xform inv) (ready : s.regs.ready = true) (eq : t = (s.transform inv).finish)
  | mag (instr : i = .mag) (ready : s.regs.ready = true) (eq : t = s.magnitude.finish)
  | downsS2 (f : Int) (instr : i = .downsS2 f) (ready : s.regs.ready = true) (pos : 0 < f)
      (eq : t = (s.downsampleS2 f.toNat).finish)
  | downsS3 (f : Int) (instr : i = .downsS3 f) (ready : s.regs.ready = true) (pos : 0 < f)
      (eq : t = (s.downsampleS3 f.toNat).finish)
  | hps (instr : i = .hps) (ready : s.regs.ready = true) (det : s.regs.detReady = true)
      (eq : t = s.findFundamental.finish)
  | results (a b : BitVec 32) (instr : i = .b2f ∨ i = .ssf ∨ i = .fnote ∨ i = .tdir)
      (eq : t = (s.withResults a b).finish)
  | run (instr : i = .run) (ready : s.regs.ready = true) (det : s.regs.detReady = true)
      (eq : t = { s with regs := { s.regs with running := true, seqPc := .top } })

/-- Every command that answers a next state falls under one of the cases. -/
theorem exec_command_cases {i : Instr} {s t : State} (hi : i.isCommand = true) (h : exec i s = .next t) :
    CommandCase i s t := by
  cases i <;> simp only [exec] at h <;> try exact (Bool.false_ne_true hi).elim
  case nop => exact .nop rfl (Host.Outcome.next.inj h).symm
  case init =>
    unfold execInit at h
    split at h
    · exact .error _ (Host.Outcome.next.inj h).symm
    · split at h
      · exact .error _ (Host.Outcome.next.inj h).symm
      · rename_i hr hp
        simp only [Config.pMax] at hp
        exact .init s.regs.pwrSigned.toNat rfl (by simpa using hr) (by simp only [Config.pMax]; omega) (by omega)
          (Host.Outcome.next.inj h).symm
  case dinit =>
    unfold execDinit at h
    split at h
    · exact .error _ (Host.Outcome.next.inj h).symm
    · split at h
      · exact .error _ (Host.Outcome.next.inj h).symm
      · exact .dinit rfl (by simp_all) (by simp_all) (Host.Outcome.next.inj h).symm
  case remove =>
    unfold execRemove at h
    split at h
    · exact .error _ (Host.Outcome.next.inj h).symm
    · split at h
      · exact .removed rfl (by simp_all) ‹_› (Host.Outcome.next.inj h).symm
      · split at h
        · exact .cancelled rfl (by simp_all) (by simp_all) ‹_› (Host.Outcome.next.inj h).symm
        · exact .blocked rfl (by simp_all) (by simp_all) (by simp_all) (Host.Outcome.next.inj h).symm
  case popul =>
    unfold execPopul at h
    split at h
    · exact .error _ (Host.Outcome.next.inj h).symm
    · split at h
      · exact .error _ (Host.Outcome.next.inj h).symm
      · exact .popul rfl (by simp_all) (by simp_all) (Host.Outcome.next.inj h).symm
  case xform inv =>
    unfold execXform at h
    split at h
    · exact .error _ (Host.Outcome.next.inj h).symm
    · exact .xform inv rfl (by simp_all) (Host.Outcome.next.inj h).symm
  case mag =>
    unfold execMag at h
    split at h
    · exact .error _ (Host.Outcome.next.inj h).symm
    · exact .mag rfl (by simp_all) (Host.Outcome.next.inj h).symm
  case downsS2 f =>
    unfold execDownsS2 at h
    split at h
    · exact .error _ (Host.Outcome.next.inj h).symm
    · split at h
      · exact .error _ (Host.Outcome.next.inj h).symm
      · exact .downsS2 f rfl (by simp_all) (by omega) (Host.Outcome.next.inj h).symm
  case downsS3 f =>
    unfold execDownsS3 at h
    split at h
    · exact .error _ (Host.Outcome.next.inj h).symm
    · split at h
      · exact .error _ (Host.Outcome.next.inj h).symm
      · exact .downsS3 f rfl (by simp_all) (by omega) (Host.Outcome.next.inj h).symm
  case hps =>
    unfold execHps at h
    split at h
    · exact .error _ (Host.Outcome.next.inj h).symm
    · exact .hps rfl (by simp_all) (by simp_all) (Host.Outcome.next.inj h).symm
  case b2f =>
    unfold execB2f at h
    split at h
    · exact .error _ (Host.Outcome.next.inj h).symm
    · split at h
      · exact .error _ (Host.Outcome.next.inj h).symm
      · exact .results _ s.regs.res1 (.inl rfl) (Host.Outcome.next.inj h).symm
  case ssf => exact .results _ _ (.inr (.inl rfl)) (Host.Outcome.next.inj h).symm
  case fnote =>
    unfold execFnote at h
    split at h
    · exact .error _ (Host.Outcome.next.inj h).symm
    · exact .results _ _ (.inr (.inr (.inl rfl))) (Host.Outcome.next.inj h).symm
  case tdir =>
    unfold execTdir at h
    split at h
    · exact .error _ (Host.Outcome.next.inj h).symm
    · split at h
      · exact .error _ (Host.Outcome.next.inj h).symm
      · exact .results _ s.regs.res1 (.inr (.inr (.inr rfl))) (Host.Outcome.next.inj h).symm
  case run =>
    unfold execRun at h
    split at h
    · exact .error _ (Host.Outcome.next.inj h).symm
    · exact .run rfl (by simp_all) (by simp_all) (Host.Outcome.next.inj h).symm

/-- The cases of a beat that answers `next t` in `s`. -/
inductive BeatCase (s t : State) : Prop where
  | refused (eq : t = s)
  | flushedPush (ready : s.regs.ready = false) (eq : t = s.setEvent .pDrop)
  | pushed (d : Int) (ready : s.regs.ready = true)
      (eq : t = (s.stage d).setWp (min (s.regs.wp.toNat + 1) Config.wpMax))
  | flushedCommit (ready : s.regs.ready = false) (eq : t = (s.setEvent .pDrop).setWp 0)
  | wrongLength (d : Int) (ready : s.regs.ready = true) (len : s.regs.wp.toNat + 1 ≠ s.regs.n)
      (eq : t = (s.stage d).lengthError.setWp 0)
  | discarded (d : Int) (ready : s.regs.ready = true) (len : s.regs.wp.toNat + 1 = s.regs.n)
      (pending : s.regs.pending = true) (eq : t = ((s.stage d).setEvent .pDrop).setWp 0)
  | inserted (d : Int) (ready : s.regs.ready = true) (len : s.regs.wp.toNat + 1 = s.regs.n)
      (pending : s.regs.pending = false) (eq : t = (s.stage d).insertBlock.setWp 0)

/-- Every beat answers a next state of one of the cases. -/
theorem exec_beat_cases {b : BitVec 17} {s t : State} (h : exec (decodeBeat b) s = .next t) : BeatCase s t := by
  rw [decodeBeat_eq] at h
  split at h
  · simp only [exec] at h
    unfold execCommit at h
    split at h
    · exact .refused (Host.Outcome.next.inj h).symm
    · split at h
      · exact .flushedCommit (by simp_all) (Host.Outcome.next.inj h).symm
      · split at h
        · exact .wrongLength _ (by simp_all) ‹_› (Host.Outcome.next.inj h).symm
        · split at h
          · exact .discarded _ (by simp_all) (by simp_all) ‹_› (Host.Outcome.next.inj h).symm
          · exact .inserted _ (by simp_all) (by simp_all) (by simp_all) (Host.Outcome.next.inj h).symm
  · simp only [exec] at h
    unfold execPush at h
    split at h
    · exact .refused (Host.Outcome.next.inj h).symm
    · split at h
      · exact .pushed _ ‹_› (Host.Outcome.next.inj h).symm
      · exact .flushedPush (by simp_all) (Host.Outcome.next.inj h).symm

/-- The cases of a phase that answers `next t` in `s`. -/
inductive PhaseCase (s t : State) : Prop where
  | exit (stop : s.regs.stop = true)
      (at_ : s.regs.seqPc = .top ∨ ((s.regs.seqPc = .remA ∨ s.regs.seqPc = .remB) ∧ s.regs.pending = false))
      (eq : t = s.exitRun)
  | top (pc : s.regs.seqPc = .top) (stop : s.regs.stop = false) (eq : t = s.goTo .remA)
  | blocked (pc : s.regs.seqPc = .remA ∨ s.regs.seqPc = .remB) (pending : s.regs.pending = false)
      (stop : s.regs.stop = false) (eq : t = s)
  | remove (q : Phase) (pc : (s.regs.seqPc, q) ∈ [(Phase.remA, Phase.popA), (.remB, .popB)])
      (pending : s.regs.pending = true) (eq : t = s.removeBlock.goTo q)
  | badLength (pc : s.regs.seqPc = .popA ∨ s.regs.seqPc = .popB) (len : s.regs.blkLen.toNat ≠ s.regs.n)
      (eq : t = s.raiseInRun .argLen)
  | populate (q : Phase) (pc : (s.regs.seqPc, q) ∈ [(Phase.popA, Phase.fftA), (.popB, .fftB)])
      (len : s.regs.blkLen.toNat = s.regs.n) (eq : t = s.populate.goTo q)
  | transform (q : Phase) (pc : (s.regs.seqPc, q) ∈ [(Phase.fftA, Phase.magA), (.fftB, .magB)])
      (eq : t = (s.transform false).goTo q)
  | magnitude (q : Phase) (pc : (s.regs.seqPc, q) ∈ [(Phase.magA, Phase.ds2A), (.magB, .ds2B)])
      (eq : t = s.magnitude.goTo q)
  | downsampleS2 (q : Phase) (pc : (s.regs.seqPc, q) ∈ [(Phase.ds2A, Phase.ds3A), (.ds2B, .ds3B)])
      (eq : t = (s.downsampleS2 2).goTo q)
  | downsampleS3 (q : Phase) (pc : (s.regs.seqPc, q) ∈ [(Phase.ds3A, Phase.hpsA), (.ds3B, .hpsB)])
      (eq : t = (s.downsampleS3 3).goTo q)
  | fundamental (q : Phase) (pc : (s.regs.seqPc, q) ∈ [(Phase.hpsA, Phase.b2fA), (.hpsB, .b2fB)])
      (eq : t = s.findFundamental.goTo q)
  | freqA (pc : s.regs.seqPc = .b2fA)
      (eq : t = { s with regs := { s.regs with fA := s.regs.fundamentalFreq, seqPc := .remB } })
  | freqB (pc : s.regs.seqPc = .b2fB)
      (eq : t = { s with regs := { s.regs with fB := s.regs.fundamentalFreq, seqPc := .filt } })
  | accept (pc : s.regs.seqPc = .filt) (acc : s.regs.filtered.1 = true) (eq : t = s.goTo .emit)
  | discard (pc : s.regs.seqPc = .filt) (acc : s.regs.filtered.1 = false) (eq : t = s.discardCycle)
  | emit (pc : s.regs.seqPc = .emit) (eq : t = phaseEmit s)

theorem phaseRem_cases {s t : State} {q : Phase} (pc : s.regs.seqPc = .remA ∨ s.regs.seqPc = .remB)
    (hq : (s.regs.seqPc, q) ∈ [(Phase.remA, Phase.popA), (.remB, .popB)]) (h : t = phaseRem q s) : PhaseCase s t := by
  unfold phaseRem at h
  split at h
  · exact .remove q hq ‹_› h
  · split at h
    · exact .exit ‹_› (.inr ⟨pc, by simp_all⟩) h
    · exact .blocked pc (by simp_all) (by simp_all) h

theorem phasePop_cases {s t : State} {q : Phase} (pc : s.regs.seqPc = .popA ∨ s.regs.seqPc = .popB)
    (hq : (s.regs.seqPc, q) ∈ [(Phase.popA, Phase.fftA), (.popB, .fftB)]) (h : t = phasePop q s) : PhaseCase s t := by
  unfold phasePop at h
  split at h
  · exact .badLength pc ‹_› h
  · exact .populate q hq (by simp_all) h

/-- Every phase that answers a next state falls under one of the cases. -/
theorem runPhase_cases {s t : State} (h : runPhase s = .next t) : PhaseCase s t := by
  unfold runPhase at h
  cases pc : s.regs.seqPc <;> simp only [pc, Host.Outcome.next.injEq, reduceCtorEq] at h
  case top =>
    unfold phaseTop at h
    split at h
    · exact .exit ‹_› (.inl pc) h.symm
    · exact .top pc (by simp_all) h.symm
  case remA => exact phaseRem_cases (.inl pc) (by simp [pc]) h.symm
  case remB => exact phaseRem_cases (.inr pc) (by simp [pc]) h.symm
  case popA => exact phasePop_cases (.inl pc) (by simp [pc]) h.symm
  case popB => exact phasePop_cases (.inr pc) (by simp [pc]) h.symm
  case fftA => exact .transform .magA (by simp [pc]) h.symm
  case fftB => exact .transform .magB (by simp [pc]) h.symm
  case magA => exact .magnitude .ds2A (by simp [pc]) h.symm
  case magB => exact .magnitude .ds2B (by simp [pc]) h.symm
  case ds2A => exact .downsampleS2 .ds3A (by simp [pc]) h.symm
  case ds2B => exact .downsampleS2 .ds3B (by simp [pc]) h.symm
  case ds3A => exact .downsampleS3 .hpsA (by simp [pc]) h.symm
  case ds3B => exact .downsampleS3 .hpsB (by simp [pc]) h.symm
  case hpsA => exact .fundamental .b2fA (by simp [pc]) h.symm
  case hpsB => exact .fundamental .b2fB (by simp [pc]) h.symm
  case b2fA => exact .freqA pc h.symm
  case b2fB => exact .freqB pc h.symm
  case filt =>
    unfold phaseFilt at h
    split at h
    · exact .accept pc ‹_› h.symm
    · exact .discard pc (by simp_all) h.symm
  case emit => exact .emit pc h.symm

/-- What an accepted write of `v` to a register leaves in the registers. -/
inductive RegisterWrite (v : BusData) (r r' : Regs) : Prop where
  | reset (srst : v.getLsbD 1 = true) (eq : r' = Regs.reset)
  | stop (srst : v.getLsbD 1 = false) (eq : r' = { r with stop := v.getLsbD 0 })
  | clear (eq : r' = { r with evt := r.evt &&& ~~~(v.setWidth 9) })
  | enable (eq : r' = { r with irqEn := v.setWidth 9 })
  | issue (idle : r.busy = false) (eq : r' = { r with cmdreg := v.setWidth 32, busy := true })
  | pwrCfg (idle : r.busy = false) (eq : r' = { r with pwrCfg := v.setWidth 8 })
  | sampleRate (idle : r.busy = false) (eq : r' = { r with sampleRate := v.setWidth 16, detReady := false })
  | minHz (idle : r.busy = false) (eq : r' = { r with minHz := v.setWidth 32, detReady := false })
  | maxHz (idle : r.busy = false) (eq : r' = { r with maxHz := v.setWidth 32, detReady := false })
  | thresh (idle : r.busy = false) (eq : r' = { r with thresh := v.setWidth 32 })
  | epsilon (idle : r.busy = false) (eq : r' = { r with epsilon := v.setWidth 32 })
  | args (a b c : BitVec 32) (idle : r.busy = false) (eq : r' = { r with arg0 := a, arg1 := b, arg2 := c })
  | blkLen (idle : r.busy = false) (eq : r' = { r with blkLen := v.setWidth 16 })

/-- Every accepted register write is one of the cases. -/
theorem writeReg_cases {s : State} {v : BusData} {h : HostReg} (hr : s.regs.writeRefused v (.reg h) = false) :
    RegisterWrite v s.regs (s.writeReg v h).regs := by
  unfold Regs.writeRefused at hr
  cases h <;>
    simp only [HostReg.writable, HostReg.writableWhileBusy, Bool.not_true, Bool.not_false, Bool.true_or,
      Bool.false_or, reduceCtorEq] at hr <;> simp only [State.writeReg]
  case ctrl =>
    rw [State.writeCtrl_regs]
    split
    · exact .reset ‹_› rfl
    · exact .stop (by simp_all) rfl
  case evt => exact .clear rfl
  case irqEn => exact .enable rfl
  case cmd => exact .issue (by simp at hr; exact hr.1) rfl
  case pwrCfg => exact .pwrCfg (by simpa using hr) rfl
  case sampleRate => exact .sampleRate (by simpa using hr) rfl
  case minHz => exact .minHz (by simpa using hr) rfl
  case maxHz => exact .maxHz (by simpa using hr) rfl
  case thresh => exact .thresh (by simpa using hr) rfl
  case epsilon => exact .epsilon (by simpa using hr) rfl
  case arg0 => exact .args _ _ _ (by simpa using hr) rfl
  case arg1 => exact .args _ _ _ (by simpa using hr) rfl
  case arg2 => exact .args _ _ _ (by simpa using hr) rfl
  case blkLen => exact .blkLen (by simpa using hr) rfl

/-- The cases of a host access: nothing but the response, a register written, or a window word written. -/
inductive AccessCase (s t : State) : Prop where
  | response (r : BusResponse) (eq : t = s.respond r)
  | register (r : HostReg) (v : BusData) (ok : s.regs.writeRefused v (.reg r) = false)
      (eq : t = (s.writeReg v r).respond { err := false, rdata := none })
  | word (w : Window) (i : Nat) (v : BusData) (idle : s.regs.busy = false) (mapped : i < s.regs.validLength w)
      (eq : t = ({ s with mems := s.mems.writeWindow v w i } : State).respond { err := false, rdata := none })

/-- Every host access is one of the cases. -/
theorem hostAccess_cases (s : State) (r : HostReq) : AccessCase s (s.hostAccess r) := by
  cases r with
  | read a =>
    simp only [State.hostAccess, State.hostRead_eq]
    exact .response _ rfl
  | write a v =>
    simp only [State.hostAccess]
    rcases State.hostWrite_cases s a v with ⟨_, eq⟩ | ⟨ok, eq⟩
    · exact .response _ eq
    · cases ht : targetOf a with
      | reg h =>
        rw [ht] at ok eq
        exact .register h v ok eq
      | unmapped =>
        rw [ht] at ok
        simp [Regs.writeRefused] at ok
      | window w i =>
        rw [ht] at ok eq
        simp only [Regs.writeRefused, Bool.or_eq_false_iff, decide_eq_false_iff_not, Nat.not_le] at ok
        exact .word w i v ok.1.2 ok.2 eq

end Sys2Proof.Machine
end

