-- ==== Sys2Proof/Laws/PerInstr.lean ====
section
/-! SUPPORT. A family of statements, one for each constructor of Instr: the encoding fits the constructor's row of
spec/opcode_table.json. -/

namespace Sys2Proof.Laws.TableRow

/-- The `match` and `mask` of a command's row in spec/opcode_table.json (30_encoding.md R105). The two producer rows
have a pattern of 17 bits instead, whose one fixed bit is bit 16 (R110). -/
def matchMask : Instr → Nat × Nat
  | .nop => (0x00000000, 0xFFFFFFFF)
  | .init => (0x01000000, 0xFFFFFFFF)
  | .dinit => (0x02000000, 0xFFFFFFFF)
  | .remove => (0x10000000, 0xFFFFFFFF)
  | .popul => (0x11000000, 0xFFFFFFFF)
  | .xform _ => (0x12000000, 0xFFFFFFFE)
  | .mag => (0x13000000, 0xFFFFFFFF)
  | .downsS2 _ => (0x14020000, 0xFFFF0000)
  | .downsS3 _ => (0x14030000, 0xFFFF0000)
  | .hps => (0x15000000, 0xFFFFFFFF)
  | .b2f => (0x16000000, 0xFFFFFFFF)
  | .ssf => (0x17000000, 0xFFFFFFFF)
  | .fnote => (0x20000000, 0xFFFFFFFF)
  | .tdir => (0x21000000, 0xFFFFFFFF)
  | .run => (0x30000000, 0xFFFFFFFF)
  | .push _ => (0x00000, 0x10000)
  | .commit _ => (0x10000, 0x10000)

/-- Does the word of an encoding match the row? -/
def fits (row : Nat × Nat) : Encoding → Bool
  | .command w => decide (w &&& BitVec.ofNat 32 row.2 = BitVec.ofNat 32 row.1)
  | .beat b => decide (b &&& BitVec.ofNat 17 row.2 = BitVec.ofNat 17 row.1)

/-- The encoding of the instruction matches its row of the opcode table. -/
def Statement (i : Instr) : Prop := fits (matchMask i) (encode i) = true

theorem nop : Statement .nop := rfl
theorem init : Statement .init := rfl
theorem dinit : Statement .dinit := rfl
theorem remove : Statement .remove := rfl
theorem popul : Statement .popul := rfl
theorem mag : Statement .mag := rfl
theorem hps : Statement .hps := rfl
theorem b2f : Statement .b2f := rfl
theorem ssf : Statement .ssf := rfl
theorem fnote : Statement .fnote := rfl
theorem tdir : Statement .tdir := rfl
theorem run : Statement .run := rfl
theorem xform (inv : Bool) : Statement (.xform inv) := by cases inv <;> rfl

/-- The bits above a 16-bit field do not depend on the field. -/
theorem append_and_high {k : Nat} (hi : BitVec k) (lo : BitVec 16) (row : Nat × Nat)
    (hm : BitVec.allOnes k ++ 0#16 = BitVec.ofNat (k + 16) row.2)
    (hc : hi ++ 0#16 = BitVec.ofNat (k + 16) row.1) :
    decide ((hi ++ lo) &&& BitVec.ofNat (k + 16) row.2 = BitVec.ofNat (k + 16) row.1) = true := by
  rw [← hm, ← hc]
  apply decide_eq_true
  apply BitVec.eq_of_getLsbD_eq
  intro i hi'
  simp only [BitVec.getLsbD_and, BitVec.getLsbD_append]
  split
  · simp
  · simp; omega

theorem downsS2 (factor : Int) : Statement (.downsS2 factor) :=
  append_and_high (0x14#8 ++ 0x02#8) (BitVec.ofInt 16 factor) (0x14020000, 0xFFFF0000) (by decide) (by decide)
theorem downsS3 (factor : Int) : Statement (.downsS3 factor) :=
  append_and_high (0x14#8 ++ 0x03#8) (BitVec.ofInt 16 factor) (0x14030000, 0xFFFF0000) (by decide) (by decide)
theorem push (d : Int) : Statement (.push d) :=
  append_and_high (BitVec.ofBool false) (BitVec.ofInt 16 d) (0x00000, 0x10000) (by decide) (by decide)
theorem commit (d : Int) : Statement (.commit d) :=
  append_and_high (BitVec.ofBool true) (BitVec.ofInt 16 d) (0x10000, 0x10000) (by decide) (by decide)

end Sys2Proof.Laws.TableRow
end

