-- ==== Sys2Proof/Laws/Step.lean ====
section
/-! SUPPORT. What one step can do, said once: `step_cases` gives the case a step falls under, and a claim about every
step is a claim about each case. -/

namespace Sys2Proof.Machine

/-- The cases of a step from `s` that answers `next t`. -/
inductive StepCase (s t : State) : Prop where
  /-- The engine's turn passes: rst is high, or no command is in flight. -/
  | enginePasses (turn : s.nextTurn = .engine) (idle : s.env.rst = true ∨ s.regs.busy = false) (eq : t = s.takeTurn)
  /-- A phase of RUN. -/
  | phase (turn : s.nextTurn = .engine) (rst : s.env.rst = false) (busy : s.regs.busy = true)
      (running : s.regs.running = true) (eq : runPhase s.takeTurn = .next t)
  /-- An illegal command word. -/
  | illegal (turn : s.nextTurn = .engine) (rst : s.env.rst = false) (busy : s.regs.busy = true)
      (running : s.regs.running = false) (e : Illegal) (word : decodeCommand s.regs.cmdreg = .error e)
      (eq : t = s.takeTurn.raise .cmdIllegal)
  /-- A command. -/
  | command (turn : s.nextTurn = .engine) (rst : s.env.rst = false) (busy : s.regs.busy = true)
      (running : s.regs.running = false) (i : Instr) (word : decodeCommand s.regs.cmdreg = .ok i)
      (eq : exec i s.takeTurn = .next t)
  /-- The producer presents nothing, or a beat that p_ready refuses. -/
  | producerPasses (turn : s.nextTurn = .producer) (eq : t = s.takeTurn)
  /-- An accepted beat. -/
  | beat (turn : s.nextTurn = .producer) (b : BitVec 17) (rest : List (BitVec 17)) (beats : s.env.beats = b :: rest)
      (ready : s.pReady (b.getLsbD 16) = true) (eq : exec (decodeBeat b) s.takeTurn.dropBeat = .next t)
  /-- The host has nothing to do, or rst is high. -/
  | hostPasses (turn : s.nextTurn = .host) (eq : t = s.takeTurn)
  /-- A host access. -/
  | access (turn : s.nextTurn = .host) (rst : s.env.rst = false) (r : HostReq) (rest : List HostReq)
      (queue : s.env.hostQ = r :: rest)
      (eq : t = ({ s.takeTurn with env := { s.takeTurn.env with hostQ := rest } } : State).hostAccess r)
  /-- rst rises. -/
  | rstRise (turn : s.nextTurn = .rstRise) (eq : t = s.takeTurn.rstRise)
  /-- rst falls. -/
  | rstFall (c : Mems) (turn : s.nextTurn = .rstFall c) (eq : t = s.takeTurn.rstFall c)

/-- What the engine's step can be once rst is low. -/
theorem step_engine_cases {s t : State} (turn : s.nextTurn = .engine) (rst : s.env.rst = false)
    (h : (match fetchEngine s.takeTurn with | .run i u => exec i u | .done o => o) = .next t) : StepCase s t := by
  cases hb : s.regs.busy with
  | false =>
    simp only [fetchEngine, State.takeTurn_regs, hb, Bool.not_false, if_true, Host.Outcome.next.injEq] at h
    exact .enginePasses turn (.inr hb) h.symm
  | true =>
    cases hr : s.regs.running with
    | true =>
      simp only [fetchEngine, State.takeTurn_regs, hb, hr, Bool.not_true, Bool.false_eq_true, if_false, if_true] at h
      exact .phase turn rst hb hr h
    | false =>
      simp only [fetchEngine, State.takeTurn_regs, hb, hr, Bool.not_true, Bool.false_eq_true, if_false] at h
      cases hd : decodeCommand s.regs.cmdreg with
      | error e =>
        simp only [hd, Host.Outcome.next.injEq] at h
        exact .illegal turn rst hb hr e hd h.symm
      | ok i =>
        simp only [hd] at h
        exact .command turn rst hb hr i hd h

/-- Every step that answers a next state is one of the cases. -/
theorem step_cases {s t : State} (h : step s = .next t) : StepCase s t := by
  unfold step fetch at h
  cases turn : s.nextTurn with
  | engine =>
    cases rst : s.env.rst with
    | true =>
      simp only [turn, rst, if_true, Host.Outcome.next.injEq] at h
      exact .enginePasses turn (.inl rst) h.symm
    | false =>
      simp only [turn, rst, Bool.false_eq_true, if_false] at h
      exact step_engine_cases turn rst h
  | producer =>
    cases hb : s.env.beats with
    | nil =>
      simp only [turn, fetchProducer, State.takeTurn_env, hb, Host.Outcome.next.injEq] at h
      exact .producerPasses turn h.symm
    | cons b rest =>
      have hp : s.takeTurn.pReady (b.getLsbD 16) = s.pReady (b.getLsbD 16) := rfl
      cases hr : s.pReady (b.getLsbD 16) with
      | true =>
        simp only [turn, fetchProducer, State.takeTurn_env, hb, hp, hr, if_true] at h
        exact .beat turn b rest hb hr h
      | false =>
        simp only [turn, fetchProducer, State.takeTurn_env, hb, hp, hr, Bool.false_eq_true, if_false,
          Host.Outcome.next.injEq] at h
        exact .producerPasses turn h.symm
  | host =>
    cases rst : s.env.rst with
    | true =>
      simp only [turn, hostTurn, State.hReady, State.takeTurn_env, rst, Bool.not_true, Bool.false_eq_true, if_false,
        Host.Outcome.next.injEq] at h
      exact .hostPasses turn h.symm
    | false =>
      cases hq : s.env.hostQ with
      | nil =>
        simp only [turn, hostTurn, State.hReady, State.takeTurn_env, rst, hq, Bool.not_false, if_true,
          Host.Outcome.next.injEq] at h
        exact .hostPasses turn h.symm
      | cons r rest =>
        simp only [turn, hostTurn, State.hReady, State.takeTurn_env, rst, hq, Bool.not_false, if_true,
          Host.Outcome.next.injEq] at h
        exact .access turn rst r rest hq (by rw [← h]; simp [rst])
  | rstRise =>
    simp only [turn, Host.Outcome.next.injEq] at h
    exact .rstRise turn h.symm
  | rstFall c =>
    simp only [turn, Host.Outcome.next.injEq] at h
    exact .rstFall c turn h.symm

end Sys2Proof.Machine
end

