-- ==== Sys2Proof/Laws/Word.lean ====
section
/-! SUPPORT. The widths of 00_scope.md R11 as numerals, for the decision procedures: the powers, and the range of each
word type. -/

namespace Sys2Proof

@[simp] theorem two_pow_sampleW : 2 ^ Config.sampleW = 65536 := rfl
@[simp] theorem two_pow_dataW : 2 ^ Config.dataW = 281474976710656 := rfl
@[simp] theorem two_pow_specW : 2 ^ Config.specW = 281474976710656 := rfl
@[simp] theorem two_pow_twW : 2 ^ Config.twW = 262144 := rfl
@[simp] theorem two_pow_freqW : 2 ^ Config.freqW = 4294967296 := rfl
@[simp] theorem two_pow_rateW : 2 ^ Config.rateW = 65536 := rfl
@[simp] theorem two_pow_busW : 2 ^ Config.busW = 18446744073709551616 := rfl
@[simp] theorem two_pow_addrW : 2 ^ Config.addrW = 262144 := rfl
@[simp] theorem two_pow_cmdW : 2 ^ Config.cmdW = 4294967296 := rfl

theorem Sample.toInt_range (x : Sample) : -32768 ≤ x.toInt ∧ x.toInt < 32768 := ⟨x.le_toInt, x.toInt_lt⟩

theorem SeriesWord.toInt_range (x : SeriesWord) : -140737488355328 ≤ x.toInt ∧ x.toInt < 140737488355328 :=
  ⟨x.le_toInt, x.toInt_lt⟩

theorem Freq.toInt_range (x : Freq) : -2147483648 ≤ x.toInt ∧ x.toInt < 2147483648 := ⟨x.le_toInt, x.toInt_lt⟩

theorem SpectrumWord.toNat_lt (x : SpectrumWord) : x.toNat < 281474976710656 := x.isLt

theorem Rate.toNat_lt (x : Rate) : x.toNat < 65536 := x.isLt

theorem CommandWord.toNat_lt (x : CommandWord) : x.toNat < 4294967296 := x.isLt

theorem Addr.toNat_lt (x : Addr) : x.toNat < 262144 := x.isLt

theorem BusData.toNat_lt (x : BusData) : x.toNat < 18446744073709551616 := x.isLt

/-- A value in the range of Q31.16 is stored without loss. -/
theorem toInt_ofInt_dataW (v : Int) (low : -140737488355328 ≤ v) (high : v < 140737488355328) :
    (BitVec.ofInt Config.dataW v).toInt = v :=
  BitVec.toInt_ofInt_eq_self (by decide) low high

/-- A value in the range of Q15.16 is stored without loss. -/
theorem toInt_ofInt_freqW (v : Int) (low : -2147483648 ≤ v) (high : v < 2147483648) :
    (BitVec.ofInt Config.freqW v).toInt = v :=
  BitVec.toInt_ofInt_eq_self (by decide) low high

/-- A value in the range of UQ32.16 is stored without loss. -/
theorem toNat_ofNat_specW (v : Nat) (high : v < 281474976710656) : (BitVec.ofNat Config.specW v).toNat = v :=
  Nat.mod_eq_of_lt high

end Sys2Proof
end

