-- ==== Sys2Proof/Tests/Slice0.lean ====
section
/-! SUPPORT. Tests: the operand ranges, one written-out word for each constructor, one step on a small state for each
instruction with the values of 95_test_vectors.md (named in the docstrings), and witnesses that the hypotheses of the
obligations can be met. -/

namespace Sys2Proof.Tests

open Sys2Proof Sys2Proof.Machine

/-! ### Operand ranges (30_encoding.md R104, R110) -/

theorem test_wf_downsS2 : (Instr.downsS2 32768).wellFormed = false ∧ (Instr.downsS2 32767).wellFormed = true := by
  decide
theorem test_wf_downsS3 : (Instr.downsS3 (-32769)).wellFormed = false ∧ (Instr.downsS3 (-32768)).wellFormed = true := by
  decide
theorem test_wf_push : (Instr.push 32768).wellFormed = false ∧ (Instr.push 32767).wellFormed = true := by decide
theorem test_wf_commit : (Instr.commit (-32769)).wellFormed = false ∧ (Instr.commit (-32768)).wellFormed = true := by
  decide

/-! ### Decoding: words written out from R102 to R105 and R110 -/

theorem test_decode_nop : decodeCommand 0b00000000_000000000000000000000000#32 = .ok .nop := by decide
theorem test_decode_init : decodeCommand 0b00000001_000000000000000000000000#32 = .ok .init := by decide
theorem test_decode_dinit : decodeCommand 0b00000010_000000000000000000000000#32 = .ok .dinit := by decide
theorem test_decode_remove : decodeCommand 0b00010000_000000000000000000000000#32 = .ok .remove := by decide
theorem test_decode_popul : decodeCommand 0b00010001_000000000000000000000000#32 = .ok .popul := by decide
theorem test_decode_xform_forward : decodeCommand 0b00010010_00000000000000000000000_0#32 = .ok (.xform false) := by
  decide
theorem test_decode_xform_inverse : decodeCommand 0b00010010_00000000000000000000000_1#32 = .ok (.xform true) := by
  decide
theorem test_decode_mag : decodeCommand 0b00010011_000000000000000000000000#32 = .ok .mag := by decide
theorem test_decode_downsS2 : decodeCommand 0b00010100_00000010_1000000000000000#32 = .ok (.downsS2 (-32768)) := by
  decide
theorem test_decode_downsS3 : decodeCommand 0b00010100_00000011_0000000000000011#32 = .ok (.downsS3 3) := by decide
theorem test_decode_hps : decodeCommand 0b00010101_000000000000000000000000#32 = .ok .hps := by decide
theorem test_decode_b2f : decodeCommand 0b00010110_000000000000000000000000#32 = .ok .b2f := by decide
theorem test_decode_ssf : decodeCommand 0b00010111_000000000000000000000000#32 = .ok .ssf := by decide
theorem test_decode_fnote : decodeCommand 0b00100000_000000000000000000000000#32 = .ok .fnote := by decide
theorem test_decode_tdir : decodeCommand 0b00100001_000000000000000000000000#32 = .ok .tdir := by decide
theorem test_decode_run : decodeCommand 0b00110000_000000000000000000000000#32 = .ok .run := by decide
/-- VQ14: p_data = 0x8000 is -32768. -/
theorem test_decode_push : decodeBeat 0b0_1000000000000000#17 = .push (-32768) := by decide
theorem test_decode_commit : decodeBeat 0b1_0000000000000100#17 = .commit 4 := by decide

/-- VC3, VF18: words outside the table are refused, each by the reason R107 gives. -/
theorem test_decode_illegal :
    decodeCommand 0x00000001#32 = .error .zeroField ∧ decodeCommand 0x03000000#32 = .error .opcode ∧
    decodeCommand 0xFF000000#32 = .error .opcode ∧ decodeCommand 0x12000002#32 = .error .zeroField ∧
    decodeCommand 0x30000001#32 = .error .zeroField ∧ decodeCommand 0x14010002#32 = .error .dst ∧
    decodeCommand 0x14000002#32 = .error .dst ∧ decodeCommand 0x14040002#32 = .error .dst := by decide

/-- R111's examples, assembled. -/
theorem test_encode :
    encode (.downsS3 3) = .command 0x14030003#32 ∧ encode (.downsS2 (-1)) = .command 0x1402FFFF#32 ∧
    encode (.xform true) = .command 0x12000001#32 ∧ encode (.commit 4) = .beat 0x10004#17 := by decide

/-- The rows of spec/opcode_table.json, and the step after reset that runs them. -/
theorem test_table_word :
    decodeTableWord 24 0x10004 = some (.commit 4) ∧ decodeTableWord 32 0x14030003 = some (.downsS3 3) ∧
    decodeTableWord 32 0x14040003 = none ∧ decodeTableWord 24 0x20000 = none := by decide

/-! ### Small states -/

/-- The next state, if the outcome is one. -/
def next? : Host.Outcome State Fault Refusal → Option State
  | .next s => some s
  | .fault _ => none
  | .refused _ => none

/-- One field of the next state. -/
def after {α : Type} (o : Host.Outcome State Fault Refusal) (f : State → α) : Option α := (next? o).map f

/-- A memory whose first words are those of the list. -/
def mem (w : Nat) (xs : List Int) : Memory w :=
  (Memory.empty w).fill xs.length (fun i => BitVec.ofInt w (xs.getD i 0))

/-- READY = 1 with the given exponent, all words 0, right after INIT. -/
def built (p : Nat) : State := State.reset.construct p

/-- The state with its registers changed. -/
def withRegs (s : State) (f : Regs → Regs) : State := { s with regs := f s.regs }

/-- The state with its memories changed. -/
def withMems (s : State) (f : Mems → Mems) : State := { s with mems := f s.mems }

/-- The first words of a memory, as signed numbers. -/
def signed {w : Nat} (m : Memory w) (n : Nat) : List Int := (m.words n).map BitVec.toInt

/-- The first words of a memory, as unsigned numbers. -/
def unsigned {w : Nat} (m : Memory w) (n : Nat) : List Nat := (m.words n).map BitVec.toNat

/-- READY = 1 at exponent `p` without the tables of INIT: for commands that read registers only. -/
def ready (p : Nat) : State := withRegs State.reset (fun r => { r with ready := true, power := BitVec.ofNat 4 p })

/-- ... and DET_READY = 1 with the window [lo, hi). -/
def scanning (p lo hi : Nat) : State :=
  withRegs (ready p)
    (fun r => { r with detReady := true, minIdx := BitVec.ofNat 16 lo, maxIdx := BitVec.ofNat 16 hi })

/-! ### One step of each instruction -/

/-- VC2. -/
theorem test_nop : after (exec .nop (withRegs State.reset (fun r => { r with busy := true })))
    (fun t => (t.regs.evt, t.regs.busy)) = some (0x001#9, false) := by decide

/-- VF1. -/
theorem test_init : after (exec .init (withRegs State.reset (fun r => { r with pwrCfg := 3#8 })))
    (fun t => (unsigned t.mems.brt 8, t.regs.status, t.regs.evt)) =
      some ([0, 4, 2, 6, 1, 5, 3, 7], 0x30001#20, 0x001#9) := by decide
/-- VF20. -/
theorem test_init_power : [0x10#8, 0xFF#8, 0x80#8].map (fun v =>
    after (exec .init (withRegs State.reset (fun r => { r with pwrCfg := v })))
      (fun t => (t.regs.errCode, t.regs.ready))) =
    [some (0x11#8, false), some (0x11#8, false), some (0x11#8, false)] := by decide

/-- VD1, VD4. -/
theorem test_dinit : [12, 15].map (fun p => after (exec .dinit (ready p))
    (fun t => (t.regs.minIdx.toNat, t.regs.maxIdx.toNat, t.regs.detReady))) =
      [some (25, 506, true), some (204, 4055, true)] := by decide
/-- VD2, and VD7 beside it: hi = 0 is refused, hi = H is allowed. -/
theorem test_dinit_window : after (exec .dinit (ready 3)) (fun t => (t.regs.errCode, t.regs.detReady)) =
      some (0x13#8, false) ∧
    after (exec .dinit (withRegs (ready 12) (fun r => { r with maxHz := 0x0FA00000#32 })))
      (fun t => t.regs.maxIdx.toNat) = some 2048 := by decide

/-- A built machine of four samples with a pending block. -/
def pendingBlock : State :=
  withMems (withRegs (built 2) (fun r => { r with pending := true, slotLen := 4#16 }))
    (fun m => { m with slot := mem 16 [10, 20, 30, 40] })

/-- VQ4. -/
theorem test_remove : after (exec .remove pendingBlock)
    (fun t => (signed t.mems.blk 4, t.regs.blkLen, t.regs.pending)) = some ([10, 20, 30, 40], 4#16, false) := by decide
/-- VQ8: blocked, and ended by STOP. -/
theorem test_remove_stop :
    after (exec .remove (withRegs (built 2) (fun r => { r with busy := true }))) (fun t => t.regs.busy) = some true ∧
    after (exec .remove (withRegs (built 2) (fun r => { r with busy := true, stop := true })))
      (fun t => (t.regs.evt, t.regs.busy)) = some (0x009#9, false) := by decide

/-- VF2. -/
theorem test_popul : after (exec .popul (withMems (withRegs (built 2) (fun r => { r with blkLen := 4#16 }))
      (fun m => { m with blk := mem 16 [1, -2, 3, 4], im := mem 48 [9, 9, 9, 9, 9] })))
    (fun t => (signed t.mems.re 4, signed t.mems.im 5)) =
      some ([65536, -131072, 196608, 262144], [0, 0, 0, 0, 9]) := by decide
/-- VF19. -/
theorem test_popul_length : after (exec .popul (built 2)) (fun t => t.regs.errCode) = some 0x23#8 := by decide

/-- VF3, forward. -/
theorem test_xform_forward : after (exec (.xform false)
      (withMems (built 2) (fun m => { m with re := mem 48 [65536, 131072, 196608, 262144] })))
    (fun t => (signed t.mems.re 4, signed t.mems.im 4, t.regs.evt)) =
      some ([163840, -32768, -32768, -32768], [0, 32768, 0, -32768], 0x001#9) := by decide
/-- VF3, inverse, and the overflow of F4c. -/
theorem test_xform_inverse :
    after (exec (.xform true) (withMems (built 2)
        (fun m => { m with re := mem 48 [163840, -32768, -32768, -32768], im := mem 48 [0, 32768, 0, -32768] })))
      (fun t => (signed t.mems.re 4, signed t.mems.im 4)) = some ([65536, 131072, 196608, 262144], [0, 0, 0, 0]) ∧
    after (exec (.xform false) (withMems (built 1) (fun m => { m with re := mem 48 [140737488355327, 1] })))
      (fun t => (signed t.mems.re 2, t.regs.evt)) = some ([-70368744177664, 70368744177663], 0x011#9) := by decide

/-- VF7, F7a, F7b, F7c. -/
theorem test_mag : after (exec .mag (withMems (built 3) (fun m =>
      { m with re := mem 48 [196608, 1, -140737488355328, 32768], im := mem 48 [-262144, 1, -140737488355328, -32768] })))
    (fun t => (unsigned t.mems.s1 4, t.regs.evt)) = some ([327680, 1, 199032864766430, 46340], 0x101#9) := by decide
/-- F7d: at p = 0 no word is written. -/
theorem test_mag_none : after (exec .mag (withMems (built 0) (fun m => { m with re := mem 48 [5] })))
    (fun t => (t.mems.s1.cells, t.regs.specSeq)) = some ([], 1#32) := by decide

/-- VF12 with a word beyond H, which stays. -/
theorem test_downsS2 : after (exec (.downsS2 2) (withMems (built 4)
      (fun m => { m with s1 := mem 48 [10, 20, 30, 40, 50, 60, 70, 81], s2 := mem 48 [3, 3, 3, 3, 3, 3, 3, 3, 3] })))
    (fun t => unsigned t.mems.s2 9) = some [15, 35, 55, 75, 65536, 65536, 65536, 65536, 3] := by decide
/-- VF17, and VC6: readiness first. -/
theorem test_downsS2_factor : after (exec (.downsS2 0) (built 4)) (fun t => t.regs.errCode) = some 0x12#8 ∧
    after (exec (.downsS2 0) State.reset) (fun t => t.regs.errCode) = some 0x32#8 := by decide

/-- VF13, VF15. -/
theorem test_downsS3 : [3, 5].map (fun f => after (exec (.downsS3 f) (withMems (built 4)
      (fun m => { m with s1 := mem 48 [10, 20, 30, 40, 50, 60, 70, 81] }))) (fun t => unsigned t.mems.s3 4)) =
    [some [20, 50, 65536, 65536], some [30, 65536, 65536, 65536]] := by decide
/-- VF17. -/
theorem test_downsS3_factor : after (exec (.downsS3 (-1)) (built 4)) (fun t => t.regs.errCode) = some 0x12#8 := by
  decide

/-- VD12: the first of two equal maxima. -/
theorem test_hps : after (exec .hps (withMems (scanning 4 1 6) (fun m =>
      { m with s1 := mem 48 [9, 1, 5, 2, 5, 0, 7, 7], s2 := mem 48 [1, 2, 2, 4, 2, 9, 1, 1], s3 := mem 48 [1, 1, 3, 1, 3, 9, 1, 1] })))
    (fun t => t.regs.hpsIdx.toNat) = some 2 := by decide
/-- VD15: the product is exact. -/
theorem test_hps_exact : after (exec .hps (withMems (scanning 2 0 2) (fun m =>
      { m with s1 := mem 48 [140737488355328, 1], s2 := mem 48 [2, 281474976710655], s3 := mem 48 [1, 1] })))
    (fun t => t.regs.hpsIdx.toNat) = some 0 := by decide

/-- The arguments of a command. -/
def args (a b c : BitVec 32) : State := withRegs State.reset (fun r => { r with arg0 := a, arg1 := b, arg2 := c })

/-- VF9, F11a. -/
theorem test_b2f : after (exec .b2f (args 8000 3 1)) (fun t => t.regs.res0.toNat) = some 174762666 ∧
    after (exec .b2f (args 32767 1 1)) (fun t => t.regs.res0) = some 0x7FFF0000#32 := by decide
/-- VF10, VF11. -/
theorem test_b2f_refused : after (exec .b2f (args 8000 0 1)) (fun t => t.regs.errCode) = some 0x24#8 ∧
    after (exec .b2f (args 65535 1 1)) (fun t => t.regs.errCode) = some 0x25#8 := by decide

/-- VD16, VD17. -/
theorem test_ssf : after (exec .ssf (args 28835840 29491200 0)) (fun t => (t.regs.res0.toNat, t.regs.res1.toNat)) =
      some (0, 29163520) ∧
    after (exec .ssf (args 29491199 28835840 0)) (fun t => (t.regs.res0.toNat, t.regs.res1.toNat)) =
      some (1, 29163519) := by decide
/-- VD18. -/
theorem test_ssf_negative : after (exec .ssf (args 0xFFFFFFFD 0 0)) (fun t => (t.regs.res0, t.regs.res1)) =
    some (1#32, 0xFFFFFFFE#32) := by decide

/-- VN1, VN4, VN5, VN6. -/
theorem test_fnote : [8572763, 8827699, 8827700, 29693051, 29693052].map (fun f =>
    after (exec .fnote (args (BitVec.ofNat 32 f) 0 0)) (fun t => (t.regs.res0.toNat, t.regs.res1.toNat))) =
    [some (0x003343, 0), some (0x003343, 0), some (0x332343, 1), some (0x003441, 21), some (0x342341, 22)] := by decide
/-- VN7. -/
theorem test_fnote_negative : after (exec .fnote (args 0x80000000 0 0)) (fun t => (t.regs.errCode, t.regs.res1)) =
    some (0x21#8, 0#32) := by decide

/-- VN8, VN10, VN11, VN12, VN9. -/
theorem test_tdir : [(0x003461, 28835840), (0x003441, 28901376), (0x003441, 28901375), (0x003441, 28770304),
    (0x332363, 9082634)].map (fun q =>
      after (exec .tdir (args (BitVec.ofNat 32 q.1) (BitVec.ofNat 32 q.2) 0)) (fun t => t.regs.res0.toNat)) =
    [some 1, some 2, some 1, some 0, some 1] := by decide
/-- VN14, VN15: the frequency is checked first, and all 32 bits of the name count. -/
theorem test_tdir_refused : after (exec .tdir (args 0x003248 0xFFFFFFFF 0)) (fun t => t.regs.errCode) = some 0x21#8 ∧
    after (exec .tdir (args 0x41003441 5 0)) (fun t => t.regs.errCode) = some 0x22#8 ∧
    after (exec .tdir (args 0 5 0)) (fun t => t.regs.errCode) = some 0x22#8 := by decide

/-- VD21. -/
theorem test_run_refused : after (exec .run (ready 4)) (fun t => (t.regs.errCode, t.regs.running)) =
    some (0x32#8, false) := by decide
/-- P4 step 2, the first engine step. -/
theorem test_run : after (exec .run (withRegs (scanning 5 0 9) (fun r => { r with busy := true })))
    (fun t => (t.regs.seqPc, t.regs.running, t.regs.busy, t.regs.evt)) = some (.top, true, true, 0#9) := by decide

/-- VQ1. -/
theorem test_push : after (exec (.push 10) (built 2)) (fun t => (signed t.mems.stg 1, t.regs.wp)) =
    some ([10], 1#16) := by decide
/-- VQ13: beyond the depth nothing is stored. -/
theorem test_push_beyond : after (exec (.push 1) (withRegs (ready 15) (fun r => { r with wp := 32768#16 })))
    (fun t => (t.mems.stg.cells, t.regs.wp.toNat)) = some ([], 32769) := by decide

/-- VQ2. -/
theorem test_commit : after (exec (.commit 40) (withMems (withRegs (built 2) (fun r => { r with wp := 3#16 }))
      (fun m => { m with stg := mem 16 [10, 20, 30] })))
    (fun t => (signed t.mems.slot 4, t.regs.slotLen, t.regs.wp, t.regs.status)) =
      some ([10, 20, 30, 40], 4#16, 0#16, 0x20011#20) := by decide
/-- VQ5: a block of the wrong length. -/
theorem test_commit_length : after (exec (.commit 7) (built 2))
    (fun t => (t.regs.evt, t.ports.pErr, t.regs.pending, t.regs.wp)) = some (0x040#9, true, false, 0#16) := by decide

/-! ### Phases of RUN and the host bus -/

/-- P2: EMIT after two equal frequencies of 440 Hz, the previous result unread. -/
theorem test_emit : after (runPhase (withRegs (scanning 5 0 9) (fun r =>
      { r with seqPc := .emit, fA := 28835840#32, fB := 28835840#32, evt := 0x004#9 })))
    (fun t => (t.regs.resName, t.regs.resIdx.toNat, t.regs.resDir, t.regs.evt)) =
      some (0x003441#24, 21, 1#2, 0x024#9) := by decide
/-- P2: B2F_A with index 4 at 3520 Hz, N = 32. -/
theorem test_b2fA : after (runPhase (withRegs (scanning 5 0 9) (fun r =>
      { r with seqPc := .b2fA, hpsIdx := 4#16, sampleRate := 3520#16 }))) (fun t => t.regs.fA.toNat) =
    some 28835840 := by decide

/-- The response to one read. -/
def readOf (s : State) (a : Addr) : Option BusResponse := (s.hostRead a).ports.hResp

/-- VC1, VC7. -/
theorem test_read_reset : readOf State.reset 0x00#18 = some ⟨false, some 0x54554E31#64⟩ ∧
    readOf State.reset 0x0A#18 = some ⟨false, some 0x00320000#64⟩ ∧
    [0x08000#18, 0x00020#18, 0x07FFF#18].map (readOf State.reset) =
      [some ⟨true, some 0#64⟩, some ⟨true, some 0#64⟩, some ⟨true, some 0#64⟩] := by decide
/-- VC8. -/
theorem test_read_valid_length : [0x08007#18, 0x08008#18, 0x28003#18, 0x28004#18].map (fun a =>
    (readOf (built 3) a).map BusResponse.err) = [some false, some true, some false, some true] := by decide
/-- VF23: the ROM window, TWC[12288] = -46341. -/
theorem test_read_rom : readOf State.reset 0x3B000#18 = some ⟨false, some 0x34AFB#64⟩ := by
  decide +kernel
/-- VC15. -/
theorem test_write_window : readOf ((built 2).hostWrite 0x10000#18 0xFFFF800000000001#64) 0x10000#18 =
    some ⟨false, some 0x0000800000000001#64⟩ := by decide
/-- VC14, VD11, VC13. -/
theorem test_write_registers : (State.reset.hostWrite 0x08#18 0x1FF#64).regs.pwrCfg = 0xFF#8 ∧
    ((scanning 4 0 1).hostWrite 0x09#18 8000#64).regs.detReady = false ∧
    ((scanning 4 0 1).hostWrite 0x01#18 3#64).regs = Regs.reset := by decide
/-- VC4, VC9: refused while busy, and CMD with a high bit. -/
theorem test_write_refused :
    ((withRegs State.reset (fun r => { r with busy := true })).hostWrite 0x10#18 1#64).ports.hResp =
      some ⟨true, none⟩ ∧
    (State.reset.hostWrite 0x05#18 0x100000000#64).regs.busy = false := by decide

/-- A command and a beat, run by the step from reset. -/
theorem test_step_fetch : after (step (State.reset.withFetchWord 32 0x20000000)) (fun t => t.regs.res1.toNat) =
      some 0 ∧
    after (step ((built 2).withFetchWord 24 0x0000A)) (fun t => (signed t.mems.stg 1, t.env.beats)) =
      some ([10], []) := by decide

/-! ### Witnesses: states and operands that meet the hypotheses of the obligation named in each theorem, one for each
clause, at the ends of the ranges -/

/-- The engine has the word in CMDREG and moves. -/
theorem engineMoves_placed (s : State) (w : CommandWord) : (s.placeCommand w).engineMoves := ⟨rfl, rfl⟩

theorem witness_DecodeEncodeRoundTrip : [Instr.downsS2 (-32768), .downsS3 32767, .push (-32768), .commit 32767,
    .xform true, .nop].all Instr.wellFormed = true := by decide

theorem witness_EncodeDecodeRoundTrip : decode (.command 0x14028000#32) = .ok (.downsS2 (-32768)) ∧
    decode (.beat 0x1FFFF#17) = .ok (.commit (-1)) := by decide

theorem witness_IllegalWordsAreRefused (w : CommandWord) (hw : w ∈ [0x03000000#32, 0x12000002#32, 0x14040002#32]) :
    (State.reset.placeCommand w).engineMoves ∧ (State.reset.placeCommand w).regs.busy = true ∧
    (State.reset.placeCommand w).regs.running = false ∧ ∃ e, decodeCommand w = .error e := by
  refine ⟨engineMoves_placed _ _, rfl, rfl, ?_⟩
  simp only [List.mem_cons, List.not_mem_nil, or_false] at hw
  rcases hw with rfl | rfl | rfl
  · exact ⟨.opcode, by decide⟩
  · exact ⟨.zeroField, by decide⟩
  · exact ⟨.dst, by decide⟩

/-- READY = 1 with its tables, DET_READY = 1 with the window [0, 1) of VD3, and a RUN in the given phase. -/
def cycle (p : Phase) : State :=
  withRegs (built 4) (fun r =>
    { r with detReady := true, maxIdx := 1#16, busy := true, running := true, cmdreg := 0x30000000#32, seqPc := p })

theorem witness_StepRunsDecodedInstruction_command : ((built 4).placeCommand 0x13000000#32).engineMoves ∧
    ((built 4).placeCommand 0x13000000#32).regs.busy = true ∧
    ((built 4).placeCommand 0x13000000#32).regs.running = false ∧
    decodeCommand ((built 4).placeCommand 0x13000000#32).regs.cmdreg = .ok .mag :=
  ⟨engineMoves_placed _ _, by decide, by decide, by decide⟩

theorem witness_StepRunsDecodedInstruction_beat : ((built 2).placeBeat 5#17).nextTurn = .producer ∧
    ((built 2).placeBeat 5#17).env.beats = [5#17] ∧
    ((built 2).placeBeat 5#17).pReady ((5#17).getLsbD 16) = true := by decide

theorem witness_StepRunsDecodedInstruction_phase : (cycle .magA).engineMoves ∧ (cycle .magA).regs.busy = true ∧
    (cycle .magA).regs.running = true := ⟨⟨rfl, rfl⟩, rfl, rfl⟩

theorem witness_StepRunsDecodedInstruction_idle : State.reset.engineMoves ∧ State.reset.regs.busy = false :=
  ⟨⟨rfl, rfl⟩, rfl⟩

/-- The host makes the access now. -/
def hostMoves (s : State) (r : HostReq) : State :=
  { s with env := { turns := [.host], hostQ := [r], beats := [], rst := false } }

/-- An accepted read, an accepted write, a host with no access and a producer with no beat. -/
theorem witness_StepRunsDecodedInstruction_ports :
    (hostMoves State.reset (.read 0x08#18)).nextTurn = .host ∧
    after (step (hostMoves State.reset (.read 0x08#18))) (fun t => t.ports.hResp) =
      some (some ⟨false, some 12#64⟩) ∧
    (hostMoves State.reset (.write 0x10#18 7#64)).nextTurn = .host ∧
    after (step (hostMoves State.reset (.write 0x10#18 7#64))) (fun t => t.regs.arg0) = some 7#32 ∧
    ({ State.reset with env := { turns := [.host], hostQ := [], beats := [], rst := false } } : State).nextTurn =
      .host ∧
    ({ State.reset with env := { turns := [.producer], hostQ := [], beats := [], rst := false } } : State).nextTurn =
      .producer := by decide

/-- VQ10. -/
theorem witness_RefusedBeatStaysPresented : (State.reset.placeBeat 5#17).env.rst = false ∧
    (State.reset.placeBeat 5#17).nextTurn = .producer ∧ (State.reset.placeBeat 5#17).env.beats = [5#17] ∧
    (State.reset.placeBeat 5#17).pReady ((5#17).getLsbD 16) = false := by decide

theorem witness_ReadinessRequirements : State.reset.regs.ready = false ∧ (ready 4).regs.detReady = false ∧
    (ready 4).regs.ready = true ∧
    after (exec .nop (withRegs State.reset (fun r => { r with errCode := 0x32#8 }))) (fun t => t.regs.errCode) =
      some 0x32#8 := by decide

/-- PWR_CFG written before INIT. -/
def power (v : BitVec 8) : State := withRegs State.reset (fun r => { r with pwrCfg := v })

theorem witness_InitBindsOrRefuses : (built 0).regs.ready = true ∧ (power 16).regs.ready = false ∧
    15 < (power 16).regs.pwrCfg.toInt ∧ (power 0xFF).regs.pwrCfg.toInt < 0 ∧
    (power 0).regs.pwrCfg.toInt = (0 : Nat) ∧ (power 15).regs.pwrCfg.toInt = (15 : Nat) ∧
    (power 15).regs.ready = false := by decide

theorem witness_DinitDerivesWindow_refused : State.reset.regs.ready = false ∧
    (withRegs (ready 4) (fun r => { r with sampleRate := 0 })).regs.sampleRate.toNat = 0 ∧
    (withRegs (ready 4) (fun r => { r with minHz := 0xFFFFFFFF })).regs.minHz.toInt < 0 ∧
    (withRegs (ready 4) (fun r => { r with maxHz := 0x80000000 })).regs.maxHz.toInt < 0 := by decide

/-- VD2: both bounds are 0 at p = 3; VD3: they are 0 and 1 at p = 4; VD7: the upper one may be H. -/
theorem witness_DinitDerivesWindow_bounds :
    (0x00320000 * 2 ^ 3 / (8000 * 65536) : Int) = 0 ∧ (0x03DE0000 * 2 ^ 3 / (8000 * 65536) : Int) = 0 ∧
    (0x00320000 * 2 ^ 4 / (8000 * 65536) : Int) = 0 ∧ (0x03DE0000 * 2 ^ 4 / (8000 * 65536) : Int) = 1 ∧
    (0x0FA00000 * 2 ^ 12 / (8000 * 65536) : Int) = 2 ^ 12 / 2 ∧ (ready 3).regs.minHz.toInt = 0x00320000 ∧
    (ready 3).regs.maxHz.toInt = 0x03DE0000 ∧ (ready 3).regs.sampleRate.toNat = 8000 := by decide

theorem witness_DinitDerivesWindow_stale : (ready 3).regs.ready = true ∧ (ready 3).regs.ScanWindowOk ∧
    after (exec .dinit (ready 3)) (fun t => decide (t = afterError (ready 3) 0x13#8)) = some true ∧
    ¬ ((0 : Int) < 0 ∧ (0 : Int) ≤ 2 ^ 3 / 2) := by
  refine ⟨rfl, ?_, by decide, by decide⟩
  intro h
  exact absurd h (by decide)

theorem witness_RemoveTakesBlockOrWaits : State.reset.regs.ready = false ∧ pendingBlock.regs.ready = true ∧
    pendingBlock.regs.pending = true ∧ (built 2).regs.pending = false ∧ (built 2).regs.stop = false ∧
    (withRegs (built 2) (fun r => { r with stop := true })).regs.stop = true := by decide

theorem witness_PopulLoadsBlock : (ready 0).regs.ready = true ∧ (ready 0).regs.blkLen.toNat ≠ 2 ^ 0 ∧
    (ready 0).regs.power.toNat = 0 ∧
    (withRegs (ready 15) (fun r => { r with blkLen := 32768 })).regs.blkLen.toNat = 2 ^ 15 ∧
    (withRegs (ready 15) (fun r => { r with blkLen := 32768 })).regs.power.toNat = 15 := by decide

theorem built_bitReversalOk (p : Nat) (h : (built p).regs.n ≤ 16)
    (hp : (List.range 16).all (fun i => decide (i < (built p).regs.n →
      ((built p).mems.brt.read i).toNat = bitrev (built p).regs.power.toNat i)) = true) : (built p).BitReversalOk := by
  intro _ i hi
  simpa using of_decide_eq_true ((List.all_eq_true.mp hp) i (List.mem_range.mpr (by omega))) hi

theorem witness_XformStoresTransformedSeries : (built 0).regs.ready = true ∧ (built 0).regs.power = 0#4 ∧
    (built 0).BitReversalOk ∧ State.reset.regs.ready = false ∧ (built 2).regs.ready = true :=
  ⟨rfl, rfl, built_bitReversalOk 0 (by decide) (by decide), rfl, rfl⟩

/-- By hand from R164: at exponent 2 and t = 1 the inverse has c = 0, s = -65536, so tr = -b.im and a.re + tr is 2^48 - 2
in the first case and 2 in the second. -/
theorem witness_XformStoresTransformedSeries_butterfly : (2 : Nat) ≤ 15 ∧ 2 * 1 < 2 ^ 2 ∧ (15 : Nat) ≤ 15 ∧
    2 * 16383 < 2 ^ 15 ∧
    (romButterfly true 2 1 ⟨2 ^ 47 - 1, 0⟩ ⟨0, -(2 ^ 47 - 1)⟩).2 = true ∧
    (romButterfly true 2 1 ⟨1, 0⟩ ⟨0, -1⟩).2 = false := by decide

theorem witness_XformStoresTransformedSeries_stage : ([⟨1, 0⟩, ⟨2, 0⟩] : List Cplx).length = 2 ^ 1 ∧ 0 < 1 ∧
    0 / 2 ^ 0 % 2 = 0 := by decide

theorem witness_MagWritesMagnitudes : State.reset.regs.ready = false ∧ (built 0).regs.ready = true := by decide

theorem witness_DownsWritesMeans : State.reset.regs.ready = false ∧ (built 4).regs.ready = true ∧
    (0 : Int) ≤ 0 ∧ (-32768 : Int) ≤ 0 ∧ (0 : Int) < 1 ∧ (0 : Int) < 32767 := by decide

theorem witness_HpsFindsFirstMaximum : (ready 4).regs.detReady = false ∧ State.reset.regs.ready = false ∧
    (scanning 4 7 8).regs.ready = true ∧ (scanning 4 7 8).regs.detReady = true ∧
    (scanning 4 7 8).regs.minIdx.toNat < (scanning 4 7 8).regs.maxIdx.toNat := by decide

/-- F11a and the frequency one hertz above it. -/
theorem witness_B2fConvertsIndex : (args 8000 0 1).regs.arg1 = 0#32 ∧
    2 ^ 31 ≤ (args 32768 1 1).regs.arg2.toNat * (args 32768 1 1).regs.arg0.toNat * 65536 / 1 ∧
    (args 32768 1 1).regs.arg1 ≠ 0#32 ∧
    (args 32767 1 1).regs.arg2.toNat * (args 32767 1 1).regs.arg0.toNat * 65536 / 1 < 2 ^ 31 := by decide

/-- VD16, VD17: a difference of the threshold is rejected, one less is accepted. -/
theorem witness_SsfFiltersAndAverages :
    ((((args 29491199 28835840 0).regs.arg1.toInt - (args 29491199 28835840 0).regs.arg0.toInt).natAbs : Int) <
      (args 29491199 28835840 0).regs.thresh.toInt) ∧
    ¬ ((((args 28835840 29491200 0).regs.arg1.toInt - (args 28835840 29491200 0).regs.arg0.toInt).natAbs : Int) <
      (args 28835840 29491200 0).regs.thresh.toInt) := by decide

theorem witness_FnoteFindsNearestNote : (args 0xFFFFFFFF 0 0).regs.arg0.toInt < 0 ∧
    0 ≤ (args 0 0 0).regs.arg0.toInt := by decide

theorem witness_TdirClassifies : (args 0 0xFFFFFFFF 0).regs.arg1.toInt < 0 ∧ 0 ≤ (args 0 0 0).regs.arg1.toInt ∧
    (∀ i < 36, foldName ((noteName i).setWidth 32) ≠ foldName (args 0 0 0).regs.arg0) ∧
    2 ^ 24 ≤ (0x01003341#32).toNat ∧ foldName ((noteName 35).setWidth 32) = foldName (args 0x003562 0 0).regs.arg0 ∧
    foldName ((noteName 0).setWidth 32) = foldName (args 0x003343 0 0).regs.arg0 := by decide

theorem witness_RunStartsSequencer : (ready 4).regs.detReady = false ∧ State.reset.regs.ready = false ∧
    (scanning 4 0 1).regs.ready = true ∧ (scanning 4 0 1).regs.detReady = true ∧ (cycle .hpsB).engineMoves ∧
    (cycle .hpsB).regs.busy = true ∧ (cycle .hpsB).regs.running = true :=
  ⟨by decide, by decide, by decide, by decide, ⟨rfl, rfl⟩, by decide, by decide⟩

theorem witness_PushStagesSample : (0x08000#17).getLsbD 16 = false ∧ State.reset.pReady false = false ∧
    (withRegs State.reset (fun r => { r with stop := true })).pReady false = true ∧
    (withRegs State.reset (fun r => { r with stop := true })).regs.ready = false ∧ (ready 15).env.rst = false ∧
    (ready 15).regs.ready = true ∧
    (withRegs (ready 15) (fun r => { r with wp := 32767 })).regs.wp.toNat < 32768 ∧
    32768 ≤ (withRegs (ready 15) (fun r => { r with wp := 32768 })).regs.wp.toNat ∧
    (withRegs (ready 15) (fun r => { r with wp := 0xFFFF })).regs.wp = 0xFFFF#16 := by decide

/-- A complete block is staged but for its last sample. -/
def lastSample (stop pending : Bool) : State :=
  withRegs (built 2) (fun r => { r with wp := 3, stop := stop, pending := pending })

/-- VQ11, VQ5, VQ7, VQ2, VQ3; and N = 1 and N = 32768. -/
theorem witness_CommitInsertsBlock : (0x18000#17).getLsbD 16 = true ∧ (lastSample false true).pReady true = false ∧
    (withRegs State.reset (fun r => { r with stop := true })).pReady true = true ∧ (built 2).pReady true = true ∧
    (built 2).regs.wp.toNat + 1 ≠ 2 ^ 2 ∧ (lastSample true true).pReady true = true ∧
    (lastSample true true).regs.wp.toNat + 1 = 2 ^ 2 ∧ (lastSample true true).regs.pending = true ∧
    (lastSample false false).env.rst = false ∧ (lastSample false false).regs.wp.toNat + 1 = 2 ^ 2 ∧
    (lastSample false false).regs.pending = false ∧ (ready 0).regs.wp.toNat + 1 = 2 ^ 0 ∧
    (withRegs (ready 15) (fun r => { r with wp := 32767 })).regs.wp.toNat + 1 = 2 ^ 15 := by decide

theorem witness_PendingBlockStaysIntact : pendingBlock.regs.pending = true ∧
    after (step (pendingBlock.placeBeat 5#17)) (fun t => (t.regs.pending, t.regs.wp)) = some (true, 1#16) := by decide

/-- VF22. -/
theorem witness_EngineErrorsArePrecise : ((built 2).placeCommand 0x01000000#32).engineMoves ∧
    ((built 2).placeCommand 0x01000000#32).regs.running = false ∧
    after (step ((built 2).placeCommand 0x01000000#32)) (fun t => t.regs.errCode) = some 0x33#8 :=
  ⟨engineMoves_placed _ _, by decide, by decide⟩

theorem witness_TopPollsStop : (cycle .top).regs.seqPc = .top ∧ (cycle .top).regs.stop = false ∧
    (withRegs (cycle .top) (fun r => { r with stop := true })).regs.stop = true := by decide

theorem witness_RemovePhaseTakesBlockOrWaits : (cycle .remA).regs.seqPc = .remA ∧ (cycle .remB).regs.seqPc = .remB ∧
    (cycle .remB).regs.pending = false ∧ (cycle .remB).regs.stop = false ∧
    (withRegs (cycle .remA) (fun r => { r with stop := true })).regs.stop = true ∧
    (withRegs (cycle .remA) (fun r => { r with pending := true })).regs.pending = true := by decide

theorem witness_PopulatePhaseLoadsOrDiscards : (cycle .popA).regs.seqPc = .popA ∧
    (cycle .popB).regs.seqPc = .popB ∧ (cycle .popB).regs.blkLen.toNat ≠ 2 ^ (cycle .popB).regs.power.toNat ∧
    (withRegs (cycle .popA) (fun r => { r with blkLen := 16 })).regs.blkLen.toNat =
      2 ^ (cycle .popA).regs.power.toNat := by decide

theorem witness_PhasesActAsTheirCommands : [Phase.fftA, .fftB, .magA, .magB, .ds2A, .ds2B, .ds3A, .ds3B, .hpsA,
    .hpsB].all (fun p => (cycle p).regs.ready && (cycle p).regs.detReady && decide ((cycle p).regs.seqPc = p)) =
      true := by decide

theorem witness_FundamentalPhaseIsExact :
    (withRegs (cycle .b2fA) (fun r => { r with hpsIdx := 7 })).regs.hpsIdx.toNat < 2 ^ (cycle .b2fA).regs.power.toNat / 2 ∧
    (cycle .b2fB).regs.hpsIdx.toNat < 2 ^ (cycle .b2fB).regs.power.toNat / 2 ∧ (cycle .b2fB).regs.seqPc = .b2fB := by
  decide

theorem witness_FilterPhaseAcceptsOrDiscards : (cycle .filt).regs.seqPc = .filt ∧
    (((cycle .filt).regs.fB.toInt - (cycle .filt).regs.fA.toInt).natAbs : Int) < (cycle .filt).regs.thresh.toInt ∧
    ¬ ((((withRegs (cycle .filt) (fun r => { r with fB := 655360 })).regs.fB.toInt - 0).natAbs : Int) <
      (cycle .filt).regs.thresh.toInt) := by decide

theorem witness_EmitPublishesResult : (cycle .emit).regs.seqPc = .emit ∧ 0 ≤ (cycle .emit).regs.fA.toInt ∧
    0 ≤ (cycle .emit).regs.fB.toInt := by decide

theorem witness_PhaseSuccessors :
    after (runPhase (withRegs (cycle .remB) (fun r => { r with stop := true }))) (fun t => t.regs.seqPc) =
      some .idle ∧ after (runPhase (cycle .filt)) (fun t => t.regs.seqPc) = some .emit := by decide

/-- A running cycle satisfies the control invariant. -/
theorem cycle_controlOk (stop : Bool) : (withRegs (cycle .top) (fun r => { r with stop := stop })).regs.ControlOk := by
  cases stop <;> exact ⟨by decide, by decide, by decide, by decide, by decide, by decide, by decide⟩

theorem witness_RunEndsOnlyByExitOrReset :
    (withRegs (cycle .top) (fun r => { r with stop := true })).regs.ControlOk ∧
    after (step (withRegs (cycle .top) (fun r => { r with stop := true }))) (fun t => t.regs.running) = some false ∧
    after (step { cycle .top with env :=
      { turns := [.host], hostQ := [.write 0x01#18 2#64], beats := [], rst := false } }) (fun t => t.regs.running) =
        some false := ⟨cycle_controlOk true, by decide, by decide⟩

theorem witness_HostAccessRefusedExactly : (hostMoves State.reset (.read 0x20#18)).nextTurn = .host ∧
    (State.reset.regs.NoWordAt 0x20 ∧ State.reset.regs.NoWordAt 0x7FFF ∧ State.reset.regs.NoWordAt 0x8000) ∧
    (built 3).regs.NoWordAt 0x8008 ∧ (built 3).regs.NoWordAt 0x28004 ∧ ReadOnlyAt 0x20000 ∧ ReadOnlyAt 0x3FFFF ∧
    ReadOnlyAt 0x1F ∧ after (step (hostMoves (cycle .top) (.write 0x05#18 0#64))) (fun t => t.ports.hResp) =
      some (some ⟨true, none⟩) := by
  refine ⟨rfl, ⟨.inl (by decide), .inl (by decide), .inr (.inl ⟨by decide, by decide, rfl⟩)⟩,
    .inr (.inr (.inl ⟨by decide, by decide, by decide⟩)), .inr (.inr (.inr ⟨by decide, by decide, by decide⟩)),
    .inr (.inl ⟨by decide, by decide⟩), .inr (.inr (by decide)), .inl (by decide), by decide⟩

theorem witness_HostReadReturnsWordAndChangesNothing : ¬ State.reset.regs.NoWordAt 0x1F ∧
    ¬ (built 3).regs.NoWordAt 0x8007 ∧ ¬ (built 3).regs.NoWordAt 0x28003 ∧ ¬ State.reset.regs.NoWordAt 0x3FFFF := by
  refine ⟨?_, ?_, ?_, ?_⟩ <;> unfold Regs.NoWordAt <;> decide

theorem witness_HostWritesStoreLowBits : State.reset.regs.busy = false := by decide

/-- The first word of BLK, and the last word of S3 at p = 15. -/
theorem witness_WindowWriteThenRead : (built 0).regs.busy = false ∧ ¬ (built 0).regs.NoWordAt 0x8000 ∧
    ¬ (ready 15).regs.NoWordAt 0x33FFF := by
  refine ⟨rfl, ?_, ?_⟩ <;> unfold Regs.NoWordAt <;> decide

theorem witness_CmdWriteIssuesCommand_executes : State.reset.engineMoves ∧ State.reset.regs.busy = false ∧
    State.reset.regs.running = false ∧ decodeCommand (BitVec.ofNat 32 (0x13000000#64).toNat) = .ok .mag ∧
    decodeCommand (BitVec.ofNat 32 (0x13000001#64).toNat) = .error .zeroField :=
  ⟨⟨rfl, rfl⟩, by decide, by decide, by decide, by decide⟩

theorem witness_CmdWriteIssuesCommand : State.reset.regs.busy = false ∧ (0xFFFFFFFF#64).toNat < 2 ^ 32 ∧
    2 ^ 32 ≤ (0x100000000#64).toNat ∧ (cycle .top).regs.busy = true := by decide

theorem witness_CtrlWriteStopsOrResets : (1#64).getLsbD 1 = false ∧ (2#64).getLsbD 1 = true ∧
    (3#64).getLsbD 1 = true := by decide

/-- VC10. -/
theorem witness_EventsAreSticky :
    (withRegs State.reset (fun r => { r with evt := 0x003 })).regs.evt.getLsbD 1 = true ∧
    after (step (hostMoves (withRegs State.reset (fun r => { r with evt := 0x003 })) (.write 0x03#18 0x002#64)))
      (fun t => t.regs.evt) = some 0x001#9 := by decide

theorem witness_EngineLeavesHostRegisters : (cycle .emit).nextTurn = .engine ∧
    after (step (cycle .emit)) (fun t => t.regs.resSeq) = some 1#32 := by decide

theorem witness_CommandsEndInOneStep : ((built 4).placeCommand 0#32).engineMoves ∧
    ((built 4).placeCommand 0#32).regs.busy = true ∧ ((built 4).placeCommand 0#32).regs.running = false ∧
    decodeCommand 0#32 ≠ .ok .remove ∧ decodeCommand 0#32 ≠ .ok .run :=
  ⟨engineMoves_placed _ _, by decide, by decide, by decide, by decide⟩

theorem witness_HeldStopEndsRun : (withRegs (cycle .top) (fun r => { r with stop := true })).env.turns = [] ∧
    (withRegs (cycle .top) (fun r => { r with stop := true })).env.rst = false ∧
    (withRegs (cycle .top) (fun r => { r with stop := true })).regs.ControlOk ∧
    (withRegs (cycle .top) (fun r => { r with stop := true })).regs.running = true :=
  ⟨rfl, rfl, cycle_controlOk true, rfl⟩

/-- rst high, and what comes next. -/
def held (turn : Turn) : State := { cycle .top with env := { turns := [turn], hostQ := [], beats := [], rst := true } }

theorem witness_HardwareReset : (held (.rstFall Mems.empty)).nextTurn = .rstFall Mems.empty ∧
    (held (.rstFall Mems.empty)).env.rst = true ∧ (held .host).nextTurn = .host ∧ (held .engine).nextTurn = .engine ∧
    (held .producer).nextTurn = .producer ∧ (held .rstRise).nextTurn = .rstRise := by decide

theorem witness_StepKeepsMemoryOk : pendingBlock.MemoryOk ∧ (next? (step pendingBlock)).isSome = true := by
  refine ⟨⟨by decide, by decide, ?_⟩, by decide⟩
  intro c hc
  exact absurd hc List.not_mem_nil

theorem witness_StepKeepsControlOk : (cycle .top).regs.ControlOk ∧ (next? (step (cycle .top))).isSome = true :=
  ⟨cycle_controlOk false, by decide⟩

theorem witness_StepKeepsFifoOk : pendingBlock.regs.FifoOk ∧ (next? (step pendingBlock)).isSome = true :=
  ⟨fun _ => ⟨by decide, by decide⟩, by decide⟩

theorem cycle_scanWindowOk (p : Phase) : (cycle p).regs.ScanWindowOk := by
  intro _
  cases p <;> exact ⟨by decide, by decide, by decide, by decide⟩

theorem witness_StepKeepsScanWindowOk : (cycle .top).regs.ScanWindowOk ∧ (cycle .top).regs.detReady = true ∧
    (next? (step (cycle .top))).isSome = true := ⟨cycle_scanWindowOk .top, by decide, by decide⟩

theorem witness_StepKeepsBitReversalOk : (built 3).BitReversalOk ∧ (built 3).regs.ready = true ∧
    (next? (step (built 3))).isSome = true := ⟨built_bitReversalOk 3 (by decide) (by decide), by decide, by decide⟩

theorem cycle_cycleOk : (cycle .top).regs.CycleOk :=
  ⟨by decide, by decide, by decide, by decide, by decide⟩

theorem witness_StepKeepsCycleOk : (cycle .top).regs.ControlOk ∧ (cycle .top).regs.FifoOk ∧
    (cycle .top).regs.ScanWindowOk ∧ (cycle .top).regs.CycleOk :=
  ⟨cycle_controlOk false, fun h => absurd h (by decide), cycle_scanWindowOk .top, cycle_cycleOk⟩

theorem witness_StepAlwaysContinues : (cycle .top).regs.ControlOk := cycle_controlOk false

/-- Words beyond the valid lengths differ, nothing visible does. -/
theorem witness_HiddenWordsAreUnobservable :
    SameVisible (cycle .top).regs (cycle .top).mems
      { (cycle .top).mems with re := (cycle .top).mems.re.write 16 5#48 } := by
  refine ⟨?_, ?_, ?_, ?_, ?_, ?_, ?_, ?_, ?_, ?_⟩ <;> intro _ <;> unfold Memory.AgreeBelow <;> decide

theorem witness_BitReversalIsInvolution : (0 : Nat) < 2 ^ 0 ∧ (32767 : Nat) < 2 ^ 15 := by decide

theorem witness_TwiddleRomIsNearest : (0 : Nat) < 16384 ∧ (16383 : Nat) < 16384 := by decide

theorem witness_ScheduleComputesFourierTransform : ([0, 0] : List ℂ).length = 2 ^ 1 := rfl

theorem witness_ForwardTransformOfSamplesFits : (List.replicate (2 ^ 3) 0x8000#16).length = 2 ^ 3 ∧
    (transformSeries false (bitrev 3) 3 ((List.replicate (2 ^ 3) 0x8000#16).map (fun d => ⟨d.toInt * 65536, 0⟩))).2 =
      false := by decide +kernel

/-- VF3's block. -/
theorem witness_ShortTransformsRoundTrip : ([1#16, 2#16, 3#16, 4#16] : List (BitVec 16)).length = 2 ^ 2 ∧
    (transformSeries true (bitrev 2) 2 (transformSeries false (bitrev 2) 2
      ([1#16, 2#16, 3#16, 4#16].map (fun d => (⟨d.toInt * 65536, 0⟩ : Cplx)))).1).1 =
        [⟨65536, 0⟩, ⟨131072, 0⟩, ⟨196608, 0⟩, ⟨262144, 0⟩] := by decide +kernel

end Sys2Proof.Tests
end

section
/-! The words that no rule can read are not observable: `Twin` relates two machines that look the same from outside,
every shared operation keeps it, and so does every step (10_state.md R49, R61). -/

namespace Sys2Proof.Machine

/-! ### Memories and arithmetic that read below a bound only -/

section
variable {w : Nat} {m m' : Memory w}

/-- Array writes of words that agree keep two memories the same below `k`. -/
theorem Memory.AgreeBelow.fill {n k : Nat} {f f' : Nat → BitVec w} (h : m.AgreeBelow m' k)
    (hf : ∀ i < n, i < k → f i = f' i) : (m.fill n f).AgreeBelow (m'.fill n f') k := by
  intro i hi
  rw [Memory.read_fill, Memory.read_fill]
  split
  · exact hf i ‹_› hi
  · exact h i hi

/-- An array write over all the words below `n` makes two memories the same there, whatever they held. -/
theorem Memory.AgreeBelow.of_fill {n : Nat} {f f' : Nat → BitVec w} (hf : ∀ i < n, f i = f' i) :
    (m.fill n f).AgreeBelow (m'.fill n f') n := by
  intro i hi
  rw [Memory.read_fill, Memory.read_fill, if_pos hi, if_pos hi, hf i hi]

theorem Memory.AgreeBelow.write {k : Nat} (h : m.AgreeBelow m' k) (i : Nat) (v : BitVec w) :
    (m.write i v).AgreeBelow (m'.write i v) k := by
  intro j hj
  rw [Memory.read_write, Memory.read_write, h j hj]

/-- Writing the word at `k` makes two memories that are the same below it the same one word further. -/
theorem Memory.AgreeBelow.write_next {k : Nat} (h : m.AgreeBelow m' k) (v : BitVec w) :
    (m.write k v).AgreeBelow (m'.write k v) (k + 1) := by
  intro j hj
  rw [Memory.read_write, Memory.read_write]
  split
  · rfl
  · exact h j (by omega)
end

theorem runStages_congr {α : Type} [Inhabited α] (bf : Nat → Butterfly α) {brt brt' : Nat → Nat} (p : Nat)
    (x : Series α) (h : ∀ k < 2 ^ p, brt k = brt' k) : runStages bf brt p x = runStages bf brt' p x := by
  refine List.foldl_ext _ _ _ (fun y shift _ => List.foldl_ext _ _ _ (fun z k hk => ?_))
  have hk' : k < 2 ^ p := List.mem_range.1 (List.mem_filter.1 hk).1
  rw [h (k / 2 ^ shift) (lt_of_le_of_lt (Nat.div_le_self _ _) hk')]

theorem permute_congr {α : Type} [Inhabited α] {brt brt' : Nat → Nat} (n : Nat) (x : List α)
    (h : ∀ k < n, brt k = brt' k) : permute brt n x = permute brt' n x :=
  List.foldl_ext _ _ _ (fun y k hk => by rw [h k (List.mem_range.1 hk)])

/-- The transform reads BRT below N only. -/
theorem transformSeries_congr (inv : Bool) {brt brt' : Nat → Nat} (p : Nat) (x : List Cplx)
    (h : ∀ k < 2 ^ p, brt k = brt' k) : transformSeries inv brt p x = transformSeries inv brt' p x := by
  simp only [transformSeries, runStages_congr _ p _ h, permute_congr _ _ h]

/-- Each mean reads the spectrum below its length only. -/
theorem downsampleAt_congr {sp sp' : Nat → Nat} {len : Nat} (f i : Nat) (h : ∀ k < len, sp k = sp' k) :
    downsampleAt sp len f i = downsampleAt sp' len f i := by
  unfold downsampleAt
  split
  · rename_i hi
    congr 2
    refine List.map_congr_left (fun j hj => h _ ?_)
    have hj' : j < f := List.mem_range.1 hj
    calc i * f + j < (i + 1) * f := by rw [Nat.add_mul]; omega
      _ ≤ len / f * f := Nat.mul_le_mul_right f hi
      _ ≤ len := Nat.div_mul_le_self len f
  · rfl

/-- The search of HPS reads the products inside its window only. -/
theorem hpsArgmax_congr {p p' : Nat → Nat} {lo hi : Nat} (hlt : lo < hi) (h : ∀ i < hi, p i = p' i) :
    hpsArgmax p lo hi = hpsArgmax p' lo hi := by
  unfold hpsArgmax
  rw [h lo hlt, List.foldl_ext (hpsBetter p) (hpsBetter p') _ (fun b i hi' => ?_)]
  have := List.mem_range'_1.1 hi'
  unfold hpsBetter
  rw [h i (by omega)]

/-! ### Two machines that look the same -/

/-- The registers that say which words of the memories are visible. -/
def Regs.extent (r : Regs) : Bool × BitVec 4 × BitVec 16 × Bool × BitVec 16 :=
  (r.ready, r.power, r.wp, r.pending, r.slotLen)

theorem SameVisible.of_extent {r r' : Regs} {ms ms' : Mems} (h : SameVisible r ms ms') (e : r'.extent = r.extent) :
    SameVisible r' ms ms' := by
  simp only [Regs.extent, Prod.mk.injEq] at e
  obtain ⟨ready, power, wp, pending, slotLen⟩ := e
  have hn : r'.n = r.n := by simp only [Regs.n, power]
  have hh : r'.h = r.h := by simp only [Regs.h, hn]
  constructor <;> simp only [ready, wp, pending, slotLen, hn, hh]
  exacts [h.blk, h.re, h.im, h.brt, h.s1, h.s2, h.s3, h.rspec, h.stg, h.slot]

theorem SameVisible.refl (r : Regs) (ms : Mems) : SameVisible r ms ms := by
  constructor <;> exact fun _ _ _ => rfl

/-- With READY = 0 and PENDING = 0 nothing is visible. -/
theorem SameVisible.of_unready {r : Regs} (ready : r.ready = false) (pending : r.pending = false) (ms ms' : Mems) :
    SameVisible r ms ms' := by
  constructor <;> simp [ready, pending]

/-- Two machines that look the same from outside. -/
structure Twin (s u : State) : Prop where
  regs : u.regs = s.regs
  ports : u.ports = s.ports
  env : u.env = s.env
  visible : SameVisible s.regs s.mems u.mems

/-- The outcomes of one step of two such machines. -/
inductive TwinOutcome : Host.Outcome State Fault Refusal → Host.Outcome State Fault Refusal → Prop where
  | next {t t' : State} (h : Twin t t') : TwinOutcome (.next t) (.next t')
  | fault (f : Fault) : TwinOutcome (.fault f) (.fault f)

theorem TwinOutcome.exists_next {t : State} {o : Host.Outcome State Fault Refusal} (h : TwinOutcome (.next t) o) :
    ∃ t', o = .next t' ∧ Twin t t' := by
  cases h with
  | next twin => exact ⟨_, rfl, twin⟩

namespace Twin
variable {s u : State}

theorem withRegs (h : Twin s u) (r : Regs) (e : r.extent = s.regs.extent) :
    Twin { s with regs := r } { u with regs := r } :=
  ⟨rfl, h.ports, h.env, h.visible.of_extent e⟩

theorem update (h : Twin s u) {r : Regs} {ms ms' : Mems} (v : SameVisible r ms ms') :
    Twin { s with regs := r, mems := ms } { u with regs := r, mems := ms' } :=
  ⟨rfl, h.ports, h.env, v⟩

theorem withPorts (h : Twin s u) (p : Ports) : Twin { s with ports := p } { u with ports := p } :=
  ⟨h.regs, rfl, h.env, h.visible⟩

theorem withEnv (h : Twin s u) (e : Env) : Twin { s with env := e } { u with env := e } :=
  ⟨h.regs, h.ports, rfl, h.visible⟩

theorem setEvent (h : Twin s u) (e : Event) : Twin (s.setEvent e) (u.setEvent e) := by
  unfold State.setEvent
  rw [h.regs]
  exact h.withRegs _ rfl

theorem setEventIf (h : Twin s u) (e : Event) (c : Bool) : Twin (s.setEventIf e c) (u.setEventIf e c) := by
  cases c
  · exact h
  · exact h.setEvent e

theorem finish (h : Twin s u) : Twin s.finish u.finish := by
  unfold State.finish
  rw [h.regs]
  exact h.withRegs _ rfl

theorem recordError (h : Twin s u) (e : ErrorCode) (p : Phase) : Twin (s.recordError e p) (u.recordError e p) := by
  unfold State.recordError
  rw [h.regs]
  exact h.withRegs _ rfl

theorem raise (h : Twin s u) (e : ErrorCode) : Twin (s.raise e) (u.raise e) := by
  unfold State.raise State.recordError
  rw [h.regs]
  exact h.withRegs _ rfl

theorem goTo (h : Twin s u) (p : Phase) : Twin (s.goTo p) (u.goTo p) := by
  unfold State.goTo
  rw [h.regs]
  exact h.withRegs _ rfl

theorem discardCycle (h : Twin s u) : Twin s.discardCycle u.discardCycle := by
  unfold State.discardCycle
  rw [h.regs]
  exact h.withRegs _ rfl

theorem raiseInRun (h : Twin s u) (e : ErrorCode) : Twin (s.raiseInRun e) (u.raiseInRun e) := by
  unfold State.raiseInRun
  rw [h.regs]
  exact (h.recordError e _).discardCycle

theorem exitRun (h : Twin s u) : Twin s.exitRun u.exitRun := by
  unfold State.exitRun
  rw [h.regs]
  exact h.withRegs _ rfl

/-! The operations that read or write memories. -/

theorem removeBlock (h : Twin s u) (pending : s.regs.pending = true) : Twin s.removeBlock u.removeBlock := by
  unfold State.removeBlock
  rw [h.regs]
  refine h.update ?_
  exact { h.visible with
    blk := fun ready => (h.visible.blk ready).fill (fun i hi _ => h.visible.slot pending i hi)
    slot := fun none => absurd none (by simp) }

theorem populate (h : Twin s u) : Twin s.populate u.populate := by
  unfold State.populate
  rw [h.regs]
  refine h.update ?_
  exact { h.visible with
    re := fun ready => (h.visible.re ready).fill (fun i hi _ => by
      simp only [Mems.blkAt, h.visible.blk ready i hi])
    im := fun _ => .of_fill (fun _ _ => rfl) }

theorem series_eq (h : Twin s u) (ready : s.regs.ready = true) : u.series = s.series := by
  unfold State.series
  rw [h.regs]
  refine List.map_congr_left (fun i hi => ?_)
  have hi' : i < s.regs.n := List.mem_range.1 hi
  simp only [Mems.reAt, Mems.imAt, h.visible.re ready i hi', h.visible.im ready i hi']

theorem transformed_eq (h : Twin s u) (ready : s.regs.ready = true) (inv : Bool) :
    u.transformed inv = s.transformed inv := by
  unfold State.transformed
  rw [h.series_eq ready, h.regs]
  exact transformSeries_congr _ _ _ (fun k hk => by simp only [Mems.brtAt, h.visible.brt ready k hk])

theorem transform (h : Twin s u) (ready : s.regs.ready = true) (inv : Bool) :
    Twin (s.transform inv) (u.transform inv) := by
  unfold State.transform
  rw [h.transformed_eq ready, h.regs]
  refine setEventIf ?_ _ _
  refine h.update ?_
  exact { h.visible with
    re := fun _ => .of_fill (fun _ _ => rfl)
    im := fun _ => .of_fill (fun _ _ => rfl) }

theorem magnitude (h : Twin s u) : Twin s.magnitude u.magnitude := by
  unfold State.magnitude
  rw [h.regs]
  refine setEvent ?_ _
  refine h.update (SameVisible.of_extent (r := s.regs) ?_ rfl)
  exact { h.visible with
    s1 := fun ready => (h.visible.s1 ready).fill (fun i hi _ => by
      have hn : i < s.regs.n := lt_of_lt_of_le hi (Nat.div_le_self _ _)
      simp only [Mems.magnitudeAt, Mems.reAt, Mems.imAt, h.visible.re ready i hn, h.visible.im ready i hn]) }

theorem downsampledAt_eq (h : Twin s u) (ready : s.regs.ready = true) (f i : Nat) :
    u.downsampledAt f i = s.downsampledAt f i := by
  unfold State.downsampledAt
  have s1 : ∀ k < s.regs.h, u.mems.s1At k = s.mems.s1At k := fun k hk => by
    simp only [Mems.s1At, h.visible.s1 ready k hk]
  rw [h.regs, downsampleAt_congr f i s1]

theorem downsampleS2 (h : Twin s u) (f : Nat) : Twin (s.downsampleS2 f) (u.downsampleS2 f) := by
  unfold State.downsampleS2
  rw [h.regs]
  refine h.update ?_
  exact { h.visible with
    s2 := fun ready => (h.visible.s2 ready).fill (fun i _ _ => (h.downsampledAt_eq ready f i).symm) }

theorem downsampleS3 (h : Twin s u) (f : Nat) : Twin (s.downsampleS3 f) (u.downsampleS3 f) := by
  unfold State.downsampleS3
  rw [h.regs]
  refine h.update ?_
  exact { h.visible with
    s3 := fun ready => (h.visible.s3 ready).fill (fun i _ _ => (h.downsampledAt_eq ready f i).symm) }

theorem publish (h : Twin s u) (idx : Nat) (avg : Int) : Twin (s.publish idx avg) (u.publish idx avg) := by
  unfold State.publish
  rw [h.regs]
  refine h.update (SameVisible.of_extent (r := s.regs) ?_ rfl)
  exact { h.visible with rspec := fun ready => (h.visible.rspec ready).fill (fun i hi _ => h.visible.s1 ready i hi) }

/-- The scan window lies inside the spectra, so HPS finds the same index. -/
theorem findFundamental (h : Twin s u) (window : s.regs.ScanWindowOk) (det : s.regs.detReady = true) :
    Twin s.findFundamental u.findFundamental := by
  obtain ⟨ready, ok, lo, hi⟩ := window det
  obtain ⟨_, _, _, lt, le⟩ := (Regs.windowOk_iff _).1 ok
  have product : ∀ i < s.regs.maxIdx.toNat, u.mems.hpsProduct i = s.mems.hpsProduct i := by
    intro i hi'
    have hh : i < s.regs.h := by omega
    simp only [Mems.hpsProduct, Mems.s1At, Mems.s2At, Mems.s3At, h.visible.s1 ready i hh, h.visible.s2 ready i hh,
      h.visible.s3 ready i hh]
  unfold State.findFundamental
  rw [h.regs, hpsArgmax_congr (by omega) product]
  exact h.withRegs _ rfl

/-- INIT writes every word it makes visible; nothing is staged before it. -/
theorem construct (h : Twin s u) (control : s.regs.ControlOk) (ready : s.regs.ready = false) {p : Nat} (hp : p ≤ 15) :
    Twin (s.construct p) (u.construct p) := by
  obtain ⟨_, _, pending, wp⟩ := control.unready ready
  unfold State.construct
  rw [h.regs]
  refine h.update ?_
  have hn : 2 ^ (BitVec.ofNat 4 p).toNat = 2 ^ p := by rw [BitVec.toNat_ofNat, Nat.mod_eq_of_lt (by omega)]
  constructor <;> intro _ <;> simp only [Regs.n, Regs.h, hn]
  case stg => simp [wp, Memory.AgreeBelow]
  case slot => exact h.visible.slot ‹_›
  all_goals exact .of_fill (fun _ _ => rfl)

theorem stage (h : Twin s u) (d : Int) : Twin (s.stage d) (u.stage d) := by
  unfold State.stage
  rw [h.regs]
  split
  · refine h.update ?_
    exact { h.visible with stg := fun ready => (h.visible.stg ready).write _ _ }
  · exact h

/-- With the sample staged, the staged words are the same up to and including it. -/
theorem stage_stg (h : Twin s u) (ready : s.regs.ready = true) (d : Int) :
    (s.stage d).mems.stg.AgreeBelow (u.stage d).mems.stg (min (s.regs.wp.toNat + 1) Config.nMax) := by
  have staged := h.visible.stg ready
  simp only [State.stage_mems, h.regs]
  split
  · rw [min_eq_left (by omega)] at *
    exact staged.write_next _
  · rw [min_eq_right (by omega)] at *
    exact staged

theorem setWp_zero (h : Twin s u) : Twin (s.setWp 0) (u.setWp 0) := by
  unfold State.setWp
  rw [h.regs]
  refine h.update ?_
  exact { h.visible with stg := fun _ => by simp [Memory.AgreeBelow] }

theorem push (h : Twin s u) (ready : s.regs.ready = true) (d : Int) :
    Twin ((s.stage d).setWp (min (s.regs.wp.toNat + 1) Config.wpMax))
      ((u.stage d).setWp (min (s.regs.wp.toNat + 1) Config.wpMax)) := by
  unfold State.setWp
  rw [(h.stage d).regs]
  refine (h.stage d).update ?_
  have visible := (h.stage d).visible
  rw [State.stage_regs] at *
  exact { visible with
    stg := fun _ i hi => h.stage_stg ready d i (by
      simp only [BitVec.toNat_ofNat, Config.wpMax, Config.nMax] at hi ⊢
      omega) }

theorem lengthError (h : Twin s u) : Twin s.lengthError u.lengthError := by
  unfold State.lengthError
  rw [h.ports]
  exact (h.setEvent .pLenErr).withPorts _

/-- A block of the right length is copied from the staged words alone. -/
theorem insertBlock (h : Twin s u) (ready : s.regs.ready = true) (len : s.regs.wp.toNat + 1 = s.regs.n) (d : Int) :
    Twin (s.stage d).insertBlock (u.stage d).insertBlock := by
  have hn := s.regs.n_le
  have staged := h.stage_stg ready d
  rw [len, min_eq_left hn] at staged
  unfold State.insertBlock
  rw [(h.stage d).regs, State.stage_regs]
  refine (h.stage d).update ?_
  have visible := (h.stage d).visible
  rw [State.stage_regs] at visible
  exact { visible with
    slot := fun _ => by
      simp only [BitVec.toNat_ofNat, Config.nMax] at hn ⊢
      rw [Nat.mod_eq_of_lt (by omega)]
      exact .of_fill staged }

/-! Host accesses. -/

theorem readWindow_eq (h : Twin s u) {w : Window} {i : Nat} (valid : i < s.regs.validLength w) :
    u.mems.readWindow w i = s.mems.readWindow w i := by
  have visible := h.visible
  cases hr : s.regs.ready with
  | false =>
    cases w
    case twc | tws => rfl
    all_goals simp [Regs.validLength, hr] at valid
  | true =>
    cases w <;> simp only [Regs.validLength, hr, if_true] at valid <;> simp only [Mems.readWindow]
    case blk => rw [visible.blk hr i valid]
    case re => rw [visible.re hr i valid]
    case im => rw [visible.im hr i valid]
    case brt => rw [visible.brt hr i valid]
    case s1 => rw [visible.s1 hr i valid]
    case s2 => rw [visible.s2 hr i valid]
    case s3 => rw [visible.s3 hr i valid]
    case rspec => rw [visible.rspec hr i valid]

theorem readTarget_eq (h : Twin s u) {a : Target} (accepted : s.regs.readRefused a = false) :
    u.readTarget a = s.readTarget a := by
  cases a with
  | reg r => simp only [State.readTarget, h.regs]
  | unmapped => rfl
  | window w i => exact h.readWindow_eq (by simpa [Regs.readRefused] using accepted)

theorem respond (h : Twin s u) (r : BusResponse) : Twin (s.respond r) (u.respond r) := by
  unfold State.respond
  rw [h.ports]
  exact h.withPorts _

theorem hostRead (h : Twin s u) (a : Addr) : Twin (s.hostRead a) (u.hostRead a) := by
  unfold State.hostRead
  rw [h.regs]
  split
  · exact h.respond _
  · rw [h.readTarget_eq (by simp_all)]
    exact h.respond _

theorem writeCtrl (h : Twin s u) (v : BusData) : Twin (s.writeCtrl v) (u.writeCtrl v) := by
  unfold State.writeCtrl
  split
  · exact ⟨rfl, h.ports, h.env, .of_unready rfl rfl _ _⟩
  · rw [h.regs]
    exact h.withRegs _ rfl

theorem writeReg (h : Twin s u) (v : BusData) (r : HostReg) : Twin (s.writeReg v r) (u.writeReg v r) := by
  cases r <;> simp only [State.writeReg, State.issue, State.clearEvents, h.regs]
  case ctrl => exact h.writeCtrl v
  case evt | irqEn | cmd | pwrCfg | sampleRate | minHz | maxHz | thresh | epsilon | arg0 | arg1 | arg2 | blkLen =>
    exact h.withRegs _ rfl
  all_goals exact h

theorem writeWindow (h : Twin s u) (v : BusData) (w : Window) (i : Nat) :
    Twin { s with mems := s.mems.writeWindow v w i } { u with mems := u.mems.writeWindow v w i } := by
  refine ⟨h.regs, h.ports, h.env, ?_⟩
  have visible := h.visible
  cases w
  case blk => exact { visible with blk := fun ready => (visible.blk ready).write _ _ }
  case re => exact { visible with re := fun ready => (visible.re ready).write _ _ }
  case im => exact { visible with im := fun ready => (visible.im ready).write _ _ }
  case s1 => exact { visible with s1 := fun ready => (visible.s1 ready).write _ _ }
  case s2 => exact { visible with s2 := fun ready => (visible.s2 ready).write _ _ }
  case s3 => exact { visible with s3 := fun ready => (visible.s3 ready).write _ _ }
  case brt | rspec | twc | tws => exact visible

theorem hostAccess (h : Twin s u) (r : HostReq) : Twin (s.hostAccess r) (u.hostAccess r) := by
  cases r with
  | read a => exact h.hostRead a
  | write a v =>
    simp only [State.hostAccess, State.hostWrite, h.regs]
    split
    · exact h.respond _
    · refine respond ?_ _
      cases targetOf a with
      | reg r => exact h.writeReg v r
      | unmapped => exact h
      | window w i => exact h.writeWindow v w i

/-! Commands, beats and phases. -/

theorem pReady_eq (h : Twin s u) (last : Bool) : u.pReady last = s.pReady last := by
  simp only [State.pReady, h.regs, h.env]

theorem dropBeat (h : Twin s u) : Twin s.dropBeat u.dropBeat := by
  unfold State.dropBeat
  rw [h.env]
  exact h.withEnv _

theorem exec (h : Twin s u) (control : s.regs.ControlOk) (window : s.regs.ScanWindowOk) (i : Instr) :
    TwinOutcome (exec i s) (exec i u) := by
  have finished {t t' : State} (ht : Twin t t') : TwinOutcome (.next t.finish) (.next t'.finish) := .next ht.finish
  have raised (e : ErrorCode) : TwinOutcome (.next (s.raise e)) (.next (u.raise e)) := .next (h.raise e)
  cases i with
  | nop => exact finished h
  | init =>
    simp only [Machine.exec, execInit, h.regs]
    split
    · exact raised _
    · split
      · exact raised _
      · rename_i ready power
        refine finished (h.construct control (by simpa using ready) ?_)
        simp only [Config.pMax] at power
        omega
  | dinit =>
    simp only [Machine.exec, execDinit, h.regs]
    split
    · exact raised _
    · split
      · exact raised _
      · exact finished (h.withRegs _ rfl)
  | remove =>
    simp only [Machine.exec, execRemove, h.regs]
    split
    · exact raised _
    · split
      · exact finished (h.removeBlock ‹_›)
      · split
        · exact finished (h.setEvent _)
        · exact .next h
  | popul =>
    simp only [Machine.exec, execPopul, h.regs]
    split
    · exact raised _
    · split
      · exact raised _
      · exact finished h.populate
  | xform inv =>
    simp only [Machine.exec, execXform, h.regs]
    split
    · exact raised _
    · exact finished (h.transform (by simp_all) inv)
  | mag =>
    simp only [Machine.exec, execMag, h.regs]
    split
    · exact raised _
    · exact finished h.magnitude
  | downsS2 f =>
    simp only [Machine.exec, execDownsS2, h.regs]
    split
    · exact raised _
    · split
      · exact raised _
      · exact finished (h.downsampleS2 _)
  | downsS3 f =>
    simp only [Machine.exec, execDownsS3, h.regs]
    split
    · exact raised _
    · split
      · exact raised _
      · exact finished (h.downsampleS3 _)
  | hps =>
    simp only [Machine.exec, execHps, h.regs]
    split
    · exact raised _
    · exact finished (h.findFundamental window (by simp_all))
  | b2f =>
    simp only [Machine.exec, execB2f, h.regs]
    split
    · exact raised _
    · split
      · exact raised _
      · exact finished (h.withRegs _ rfl)
  | ssf =>
    simp only [Machine.exec, execSsf, h.regs]
    exact finished (h.withRegs _ rfl)
  | fnote =>
    simp only [Machine.exec, execFnote, h.regs]
    split
    · exact raised _
    · exact finished (h.withRegs _ rfl)
  | tdir =>
    simp only [Machine.exec, execTdir, h.regs]
    split
    · exact raised _
    · split
      · exact raised _
      · exact finished (h.withRegs _ rfl)
  | run =>
    simp only [Machine.exec, execRun, h.regs]
    split
    · exact raised _
    · exact .next (h.withRegs _ rfl)
  | push d =>
    simp only [Machine.exec, execPush, h.pReady_eq, h.regs]
    split
    · exact .next h
    · split
      · exact .next (h.push ‹_› d)
      · exact .next (h.setEvent _)
  | commit d =>
    simp only [Machine.exec, execCommit, h.pReady_eq, h.regs]
    split
    · exact .next h
    · split
      · exact .next (h.setEvent _).setWp_zero
      · split
        · exact .next (h.stage d).lengthError.setWp_zero
        · split
          · exact .next ((h.stage d).setEvent _).setWp_zero
          · exact .next (h.insertBlock (by simp_all) (by simp_all) d).setWp_zero

theorem phaseRem (h : Twin s u) (q : Phase) : Twin (phaseRem q s) (phaseRem q u) := by
  unfold Machine.phaseRem
  rw [h.regs]
  split
  · exact (h.removeBlock ‹_›).goTo q
  · split
    · exact h.exitRun
    · exact h

theorem phasePop (h : Twin s u) (q : Phase) : Twin (phasePop q s) (phasePop q u) := by
  unfold Machine.phasePop
  rw [h.regs]
  split
  · exact h.raiseInRun _
  · exact h.populate.goTo q

theorem phaseHps (h : Twin s u) (window : s.regs.ScanWindowOk) (det : s.regs.detReady = true) (q : Phase) :
    Twin (phaseHps q s) (phaseHps q u) :=
  (h.findFundamental window det).goTo q

theorem phaseEmit (h : Twin s u) : Twin (phaseEmit s) (phaseEmit u) := by
  unfold Machine.phaseEmit
  rw [h.regs]
  exact (((h.setEventIf _ _).publish _ _).setEvent _).goTo _

theorem runPhase (h : Twin s u) (window : s.regs.ScanWindowOk) (ready : s.regs.ready = true)
    (det : s.regs.detReady = true) : TwinOutcome (runPhase s) (runPhase u) := by
  unfold Machine.runPhase
  rw [h.regs]
  cases s.regs.seqPc with
  | idle => exact .fault _
  | top =>
    refine .next ?_
    unfold phaseTop
    rw [h.regs]
    split
    · exact h.exitRun
    · exact h.goTo _
  | remA | remB => exact .next (h.phaseRem _)
  | popA | popB => exact .next (h.phasePop _)
  | fftA | fftB => exact .next ((h.transform ready _).goTo _)
  | magA | magB => exact .next (h.magnitude.goTo _)
  | ds2A | ds2B => exact .next ((h.downsampleS2 _).goTo _)
  | ds3A | ds3B => exact .next ((h.downsampleS3 _).goTo _)
  | hpsA | hpsB => exact .next (h.phaseHps window det _)
  | b2fA =>
    simp only [phaseB2fA, h.regs]
    exact .next (goTo (h.withRegs { s.regs with fA := s.regs.fundamentalFreq } rfl) _)
  | b2fB =>
    simp only [phaseB2fB, h.regs]
    exact .next (goTo (h.withRegs { s.regs with fB := s.regs.fundamentalFreq } rfl) _)
  | filt =>
    refine .next ?_
    unfold phaseFilt
    rw [h.regs]
    split
    · exact h.goTo _
    · exact h.discardCycle
  | emit => exact .next h.phaseEmit

theorem takeTurn (h : Twin s u) : Twin s.takeTurn u.takeTurn := by
  unfold State.takeTurn
  rw [h.env]
  exact ⟨h.regs, rfl, rfl, h.visible⟩

theorem hostTurn (h : Twin s u) : Twin (hostTurn s) (hostTurn u) := by
  unfold Machine.hostTurn State.hReady
  rw [h.env]
  split
  · split
    · exact h
    · exact (h.withEnv _).hostAccess _
  · exact h

theorem rstFall (h : Twin s u) (c : Mems) : Twin (s.rstFall c) (u.rstFall c) := by
  unfold State.rstFall
  rw [h.env]
  split
  · exact ⟨rfl, h.ports, rfl, .refl _ _⟩
  · exact h

end Twin

/-- What a fetched step answers: the instruction's outcome, or that of the step that runs none. -/
def Fetched.outcome : Fetched → Host.Outcome State Fault Refusal
  | .run i s => exec i s
  | .done o => o

theorem step_eq_outcome (s : State) : step s = (fetch s).outcome := by
  unfold step Fetched.outcome
  rfl

namespace Twin
variable {s u : State}

theorem fetchEngine (h : Twin s u) (control : s.regs.ControlOk) (window : s.regs.ScanWindowOk)
    (cycle : s.regs.CycleOk) : TwinOutcome (fetchEngine s).outcome (fetchEngine u).outcome := by
  unfold Machine.fetchEngine
  rw [h.regs]
  split
  · exact .next h
  · split
    · obtain ⟨ready, det⟩ := cycle.built ‹_›
      exact h.runPhase window ready det
    · split
      · exact .next (h.raise _)
      · exact h.exec control window _

theorem fetchProducer (h : Twin s u) (control : s.regs.ControlOk) (window : s.regs.ScanWindowOk) :
    TwinOutcome (fetchProducer s).outcome (fetchProducer u).outcome := by
  unfold Machine.fetchProducer
  rw [h.env]
  split
  · exact .next h
  · rw [h.pReady_eq]
    split
    · exact h.dropBeat.exec control window _
    · exact .next h

/-- Two machines that look the same take the same step and look the same after it. -/
theorem step (h : Twin s u) (control : s.regs.ControlOk) (window : s.regs.ScanWindowOk) (cycle : s.regs.CycleOk) :
    TwinOutcome (step s) (step u) := by
  rw [step_eq_outcome, step_eq_outcome]
  unfold fetch State.nextTurn
  rw [h.env]
  split
  · split
    · exact .next h.takeTurn
    · exact h.takeTurn.fetchEngine control window cycle
  · exact h.takeTurn.fetchProducer control window
  · exact .next h.takeTurn.hostTurn
  · have ht := h.takeTurn
    unfold State.rstRise
    rw [ht.env]
    exact .next (ht.withEnv _)
  · exact .next (h.takeTurn.rstFall _)

end Twin
/-- Settles O55, by a simulation: every step keeps the relation `Twin`. -/
theorem hiddenWordsAreUnobservable : Obligations.HiddenWordsAreUnobservable := by
  intro s t ms control window cycle visible h
  have twin : Twin s { s with mems := ms } := ⟨rfl, rfl, rfl, visible⟩
  obtain ⟨t', ht', same⟩ := (h ▸ twin.step control window cycle).exists_next
  refine ⟨t'.mems, ?_, same.visible⟩
  rw [ht', ← same.regs, ← same.ports, ← same.env]

end Sys2Proof.Machine
end

section
/-! Every step keeps the memories canonical and within their depths (10_state.md R49). -/

namespace Sys2Proof.Machine

/-- `Mems.wf`, memory by memory. -/
structure Mems.Ok (ms : Mems) : Prop where
  stg : ms.stg.wfAt Config.nMax = true
  slot : ms.slot.wfAt Config.nMax = true
  blk : ms.blk.wfAt Config.nMax = true
  re : ms.re.wfAt Config.nMax = true
  im : ms.im.wfAt Config.nMax = true
  brt : ms.brt.wfAt Config.nMax = true
  s1 : ms.s1.wfAt Config.hMax = true
  s2 : ms.s2.wfAt Config.hMax = true
  s3 : ms.s3.wfAt Config.hMax = true
  rspec : ms.rspec.wfAt Config.hMax = true

theorem Mems.wf_iff_ok (ms : Mems) : ms.wf = true ↔ ms.Ok := by
  simp only [Mems.wf, Bool.and_eq_true]
  constructor
  · rintro ⟨⟨⟨⟨⟨⟨⟨⟨⟨stg, slot⟩, blk⟩, re⟩, im⟩, brt⟩, s1⟩, s2⟩, s3⟩, rspec⟩
    exact ⟨stg, slot, blk, re, im, brt, s1, s2, s3, rspec⟩
  · rintro ⟨stg, slot, blk, re, im, brt, s1, s2, s3, rspec⟩
    exact ⟨⟨⟨⟨⟨⟨⟨⟨⟨stg, slot⟩, blk⟩, re⟩, im⟩, brt⟩, s1⟩, s2⟩, s3⟩, rspec⟩

/-- The depth of the memory behind a window (20_memory.md R75). -/
def Window.depth : Window → Nat
  | .blk | .re | .im | .brt => Config.nMax
  | .s1 | .s2 | .s3 | .rspec | .twc | .tws => Config.hMax

/-- A window word that exists lies below the depth of its memory. -/
theorem Regs.validLength_le_depth (r : Regs) (w : Window) : r.validLength w ≤ w.depth := by
  have hn := r.n_le
  have hh := r.h_le
  cases w <;> simp only [Regs.validLength, Window.depth]
  case twc | tws => exact le_rfl
  all_goals split <;> omega

theorem Mems.Ok.writeWindow {ms : Mems} (h : ms.Ok) (r : Regs) (v : BusData) (w : Window) {i : Nat}
    (mapped : i < r.validLength w) : (ms.writeWindow v w i).Ok := by
  have below := lt_of_lt_of_le mapped (r.validLength_le_depth w)
  cases w
  case blk => exact { h with blk := Memory.wfAt_write h.blk below _ }
  case re => exact { h with re := Memory.wfAt_write h.re below _ }
  case im => exact { h with im := Memory.wfAt_write h.im below _ }
  case s1 => exact { h with s1 := Memory.wfAt_write h.s1 below _ }
  case s2 => exact { h with s2 := Memory.wfAt_write h.s2 below _ }
  case s3 => exact { h with s3 := Memory.wfAt_write h.s3 below _ }
  case brt | rspec | twc | tws => exact h

/-- An accepted register write leaves SLOT_LEN alone or resets every register. -/
theorem RegisterWrite.slotLen_eq_or_reset {v : BusData} {r r' : Regs} (w : RegisterWrite v r r') :
    r'.slotLen = r.slotLen ∨ r' = Regs.reset := by
  cases w
  case reset eq => exact .inr eq
  all_goals exact .inl (by simp only [*])

namespace State.MemoryOk
variable {s t : State}

theorem mems (h : s.MemoryOk) : s.mems.Ok := s.mems.wf_iff_ok.1 h.1

theorem slotLen_le (h : s.MemoryOk) : s.regs.slotLen.toNat ≤ Config.nMax := h.2.1

theorem withMems (h : s.MemoryOk) {ms : Mems} (ok : ms.Ok) : State.MemoryOk { s with mems := ms } :=
  ⟨ms.wf_iff_ok.2 ok, h.slotLen_le, h.2.2⟩

theorem update (h : s.MemoryOk) {r : Regs} {ms : Mems} (ok : ms.Ok) (le : r.slotLen.toNat ≤ Config.nMax) :
    State.MemoryOk { s with regs := r, mems := ms } :=
  ⟨ms.wf_iff_ok.2 ok, le, h.2.2⟩

theorem of_frame (h : s.MemoryOk) (mems : t.mems = s.mems) (slotLen : t.regs.slotLen = s.regs.slotLen)
    (env : t.env = s.env) : t.MemoryOk := by
  unfold State.MemoryOk
  rw [mems, slotLen, env]
  exact h

theorem setEventIf (h : s.MemoryOk) (e : Event) (c : Bool) : (s.setEventIf e c).MemoryOk := by
  cases c <;> exact h

theorem construct (h : s.MemoryOk) {p : Nat} (hp : p ≤ Config.pMax) : (s.construct p).MemoryOk := by
  have hn : 2 ^ p ≤ Config.nMax := Nat.pow_le_pow_right (by omega) hp
  have hh : 2 ^ p / 2 ≤ Config.hMax := by
    simp only [Config.nMax, Config.hMax] at *
    omega
  have ok := h.mems
  refine h.update ?_ h.slotLen_le
  exact { ok with
    brt := Memory.wfAt_fill ok.brt hn _
    blk := Memory.wfAt_fill ok.blk hn _
    re := Memory.wfAt_fill ok.re hn _
    im := Memory.wfAt_fill ok.im hn _
    s1 := Memory.wfAt_fill ok.s1 hh _
    s2 := Memory.wfAt_fill ok.s2 hh _
    s3 := Memory.wfAt_fill ok.s3 hh _
    rspec := Memory.wfAt_fill ok.rspec hh _ }

theorem removeBlock (h : s.MemoryOk) : s.removeBlock.MemoryOk := by
  refine h.update ?_ h.slotLen_le
  exact { h.mems with blk := Memory.wfAt_fill h.mems.blk h.slotLen_le _ }

theorem populate (h : s.MemoryOk) : s.populate.MemoryOk :=
  h.withMems { h.mems with
    re := Memory.wfAt_fill h.mems.re s.regs.n_le _
    im := Memory.wfAt_fill h.mems.im s.regs.n_le _ }

theorem transform (h : s.MemoryOk) (inv : Bool) : (s.transform inv).MemoryOk := by
  refine setEventIf (h.withMems ?_) _ _
  exact { h.mems with
    re := Memory.wfAt_fill h.mems.re s.regs.n_le _
    im := Memory.wfAt_fill h.mems.im s.regs.n_le _ }

theorem magnitude (h : s.MemoryOk) : s.magnitude.MemoryOk := by
  refine h.update ?_ h.slotLen_le
  exact { h.mems with s1 := Memory.wfAt_fill h.mems.s1 s.regs.h_le _ }

theorem downsampleS2 (h : s.MemoryOk) (f : Nat) : (s.downsampleS2 f).MemoryOk :=
  h.withMems { h.mems with s2 := Memory.wfAt_fill h.mems.s2 s.regs.h_le _ }

theorem downsampleS3 (h : s.MemoryOk) (f : Nat) : (s.downsampleS3 f).MemoryOk :=
  h.withMems { h.mems with s3 := Memory.wfAt_fill h.mems.s3 s.regs.h_le _ }

theorem publish (h : s.MemoryOk) (idx : Nat) (avg : Int) : (s.publish idx avg).MemoryOk := by
  refine h.update ?_ h.slotLen_le
  exact { h.mems with rspec := Memory.wfAt_fill h.mems.rspec s.regs.h_le _ }

theorem stage (h : s.MemoryOk) (d : Int) : (s.stage d).MemoryOk := by
  unfold State.stage
  split
  · exact h.withMems { h.mems with stg := Memory.wfAt_write h.mems.stg ‹_› _ }
  · exact h

theorem insertBlock (h : s.MemoryOk) : s.insertBlock.MemoryOk := by
  refine h.update ?_ (le_trans (Nat.mod_le _ _) s.regs.n_le)
  exact { h.mems with slot := Memory.wfAt_fill h.mems.slot s.regs.n_le _ }

theorem command {i : Instr} (h : s.MemoryOk) (c : CommandCase i s t) : t.MemoryOk := by
  cases c with
  | error _ eq | nop _ eq | dinit _ _ _ eq | cancelled _ _ _ _ eq | blocked _ _ _ _ eq | hps _ _ _ eq
  | results _ _ _ eq | run _ _ _ eq => exact eq ▸ h
  | init p _ _ le _ eq => exact eq ▸ h.construct le
  | removed _ _ _ eq => exact eq ▸ h.removeBlock
  | popul _ _ _ eq => exact eq ▸ h.populate
  | xform inv _ _ eq => exact eq ▸ h.transform inv
  | mag _ _ eq => exact eq ▸ h.magnitude
  | downsS2 f _ _ _ eq => exact eq ▸ h.downsampleS2 f.toNat
  | downsS3 f _ _ _ eq => exact eq ▸ h.downsampleS3 f.toNat

theorem beat (h : s.MemoryOk) (c : BeatCase s t) : t.MemoryOk := by
  cases c with
  | refused eq | flushedPush _ eq | flushedCommit _ eq => exact eq ▸ h
  | pushed d _ eq | wrongLength d _ _ eq | discarded d _ _ _ eq => exact eq ▸ (h.stage d).of_frame rfl rfl rfl
  | inserted d _ _ _ eq => exact eq ▸ (h.stage d).insertBlock.of_frame rfl rfl rfl

theorem phase (h : s.MemoryOk) (c : PhaseCase s t) : t.MemoryOk := by
  cases c with
  | exit _ _ eq | top _ _ eq | blocked _ _ _ eq | badLength _ _ eq | fundamental _ _ eq | freqA _ eq | freqB _ eq
  | accept _ _ eq | discard _ _ eq => exact eq ▸ h
  | remove _ _ _ eq => exact eq ▸ h.removeBlock
  | populate _ _ _ eq => exact eq ▸ h.populate
  | transform _ _ eq => exact eq ▸ h.transform false
  | magnitude _ _ eq => exact eq ▸ h.magnitude
  | downsampleS2 _ _ eq => exact eq ▸ h.downsampleS2 2
  | downsampleS3 _ _ eq => exact eq ▸ h.downsampleS3 3
  | emit _ eq => 
    have flagged := h.setEventIf .resOvr (s.regs.flag .result)
    have published := flagged.publish (findNote s.regs.filtered.2) s.regs.filtered.2
    exact eq ▸ published.of_frame rfl rfl rfl

theorem access (h : s.MemoryOk) (c : AccessCase s t) : t.MemoryOk := by
  cases c with
  | response r eq => exact eq ▸ h
  | register r v ok eq =>
    subst eq
    refine ⟨by simpa using h.1, ?_, by simpa using h.2.2⟩
    rcases (writeReg_cases ok).slotLen_eq_or_reset with same | reset
    · simpa [same] using h.slotLen_le
    · simp [reset, Regs.reset]
  | word w i v _ mapped eq => exact eq ▸ h.withMems (h.mems.writeWindow s.regs v w mapped)

theorem takeTurn (h : s.MemoryOk) : s.takeTurn.MemoryOk :=
  ⟨h.1, h.2.1, fun c hc => h.2.2 c (List.mem_of_mem_tail hc)⟩

/-- The contents that a falling edge brings are canonical, as every contents still to come. -/
theorem rstFall (h : s.MemoryOk) {c : Mems} (ok : c.wf = true) : (s.rstFall c).MemoryOk := by
  unfold State.rstFall
  split
  · exact ⟨ok, Nat.zero_le _, h.2.2⟩
  · exact h

end State.MemoryOk

/-- The turn that is taken next is one of the list, when it is not the engine's. -/
theorem State.nextTurn_mem {s : State} (h : s.nextTurn ≠ .engine) : s.nextTurn ∈ s.env.turns := by
  unfold State.nextTurn at *
  cases ht : s.env.turns with
  | nil => simp [ht] at h
  | cons a l => simp

/-- Settles O48: every case of a step keeps the memories canonical. -/
theorem stepKeepsMemoryOk : Obligations.StepKeepsMemoryOk := by
  intro s t h step
  have hs := h.takeTurn
  cases step_cases step with
  | enginePasses _ _ eq | producerPasses _ eq | hostPasses _ eq | rstRise _ eq | illegal _ _ _ _ _ _ eq =>
    exact eq ▸ hs
  | phase _ _ _ _ eq => exact hs.phase (runPhase_cases eq)
  | command _ _ _ _ i word eq => exact hs.command (exec_command_cases (decodeCommand_isCommand word) eq)
  | beat _ b _ _ _ eq => exact State.MemoryOk.beat (s := s.takeTurn.dropBeat) hs (exec_beat_cases eq)
  | access _ _ r rest _ eq =>
    subst eq
    refine State.MemoryOk.access ?_ (hostAccess_cases _ r)
    exact hs
  | rstFall c turn eq =>
    have mem : Turn.rstFall c ∈ s.env.turns := turn ▸ State.nextTurn_mem (by simp [turn])
    exact eq ▸ hs.rstFall (h.2.2 c mem)

end Sys2Proof.Machine
end

section
/-! Every step keeps the control registers consistent (10_state.md R31, R32, R34, R45; 60_exceptions.md R271). -/

namespace Sys2Proof.Machine

/-- The one word that decodes to RUN (30_encoding.md R102, R105). -/
theorem decodeCommand_run {w : CommandWord} (h : decodeCommand w = .ok .run) : w = 0x30000000#32 := by
  unfold decodeCommand at h
  split at h
  case h_14 op =>
    have lt := w.toNat_lt
    have zero := congrArg BitVec.toNat (decodeZ_ok h).2
    apply BitVec.eq_of_toNat_eq
    simp only [opField, zeroFieldZ, BitVec.extractLsb'_toNat, Nat.shiftRight_eq_div_pow] at op zero
    simp at op zero ⊢
    omega
  case h_6 => exact absurd (decodeX_ok h).1 (by simp)
  case h_8 => rcases decodeD_ok h with ⟨eq, _⟩ | ⟨eq, _⟩ <;> cases eq
  case h_15 => cases h
  all_goals exact absurd (decodeZ_ok h).1 (by simp)

theorem ErrorCode.number_mem (e : ErrorCode) : e.number ∈ errorCodes := by
  cases e <;> decide

theorem insertionPoint_le (rounds : Nat) {lo hi : Nat} (f : Int) (le : lo ≤ hi) :
    insertionPoint rounds lo hi f ≤ hi := by
  induction rounds generalizing lo hi with
  | zero => exact le
  | succ n ih =>
    unfold insertionPoint
    split
    · split
      · exact ih (by omega)
      · exact le_trans (ih (by omega)) (by omega)
    · exact le

/-- `find_note` answers an index of the note table (43_note.md R244). -/
theorem findNote_lt (f : Int) : findNote f < Config.notes := by
  have ip := insertionPoint_le Config.notes f (Nat.zero_le 35)
  simp only [findNote, nearerOf, Config.notes] at *
  split_ifs <;> omega

theorem tuningDir_lt (i : Nat) (f eps : Int) : tuningDir i f eps < 3 := by
  unfold tuningDir
  split_ifs <;> omega

/-- The registers that `ControlOk` speaks of. -/
def Regs.control (r : Regs) :
    List Bool × Phase × CommandWord × BitVec 4 × BitVec 16 × BitVec 8 × BitVec 2 × BitVec 6 :=
  ([r.running, r.busy, r.ready, r.detReady, r.pending], r.seqPc, r.cmdreg, r.power, r.wp, r.errCode, r.resDir, r.resIdx)

namespace Regs.ControlOk
variable {s t : State}

theorem reset : Regs.reset.ControlOk := by
  constructor <;> decide

theorem of_frame {r r' : Regs} (h : r.ControlOk) (same : r'.control = r.control) : r'.ControlOk := by
  simp only [Regs.control, Prod.mk.injEq, List.cons.injEq, and_true] at same
  obtain ⟨⟨running, busy, ready, det, pending⟩, seqPc, cmdreg, power, wp, errCode, resDir, resIdx⟩ := same
  constructor <;> simp only [running, busy, ready, det, pending, seqPc, cmdreg, power, wp, errCode, resDir, resIdx]
  exacts [h.running_busy, h.phase_running, h.run_word, h.unready, h.err_code, h.res_dir, h.res_idx]

theorem finish (h : s.regs.ControlOk) (idle : s.regs.running = false) : s.finish.regs.ControlOk :=
  { h with running_busy := fun running => absurd running (by simp [idle]) }

theorem raise (h : s.regs.ControlOk) (idle : s.regs.running = false) (e : ErrorCode) : (s.raise e).regs.ControlOk :=
  { h with
    running_busy := fun running => absurd running (by simp [idle])
    err_code := e.number_mem }

/-- Inside RUN the phase moves between the nineteen of R31. -/
theorem moveTo {r : Regs} (h : r.ControlOk) (running : r.running = true) {q : Phase} (hq : q ≠ .idle) :
    Regs.ControlOk { r with seqPc := q } :=
  { h with phase_running := by simp [running, hq] }

theorem raiseInRun (h : s.regs.ControlOk) (running : s.regs.running = true) (e : ErrorCode) :
    (s.raiseInRun e).regs.ControlOk :=
  { h with
    phase_running := by simp [running]
    err_code := e.number_mem }

theorem exitRun (h : s.regs.ControlOk) : s.exitRun.regs.ControlOk :=
  { h with
    running_busy := fun running => by cases running
    phase_running := by simp
    run_word := fun running => by cases running }

theorem construct (h : s.regs.ControlOk) (p : Nat) : (s.construct p).regs.ControlOk :=
  { h with unready := fun unready => by cases unready }

theorem removeBlock (h : s.regs.ControlOk) : s.removeBlock.regs.ControlOk :=
  { h with
    unready := fun unready => by
      obtain ⟨power, det, _, wp⟩ := h.unready unready
      exact ⟨power, det, rfl, wp⟩ }

theorem publish (h : s.regs.ControlOk) (f avg : Int) : (s.publish (findNote f) avg).regs.ControlOk := by
  have dir := tuningDir_lt (findNote f) avg s.regs.epsilonSigned
  have idx := findNote_lt f
  refine { h with res_dir := ?_, res_idx := ?_ }
  · intro eq
    have := congrArg BitVec.toNat eq
    simp only [State.publish_regs, BitVec.toNat_ofNat] at this
    omega
  · simp only [Config.notes, State.publish_regs, BitVec.toNat_ofNat] at *
    omega

theorem command {i : Instr} (h : s.regs.ControlOk) (busy : s.regs.busy = true) (idle : s.regs.running = false)
    (word : decodeCommand s.regs.cmdreg = .ok i) (c : CommandCase i s t) : t.regs.ControlOk := by
  cases c with
  | error e eq => exact eq ▸ h.raise idle e
  | nop _ eq => exact eq ▸ h.finish idle
  | init p _ _ _ _ eq => exact eq ▸ (h.construct p).finish idle
  | dinit _ ready _ eq =>
    have bound : s.bindWindow.regs.ControlOk :=
      { h with unready := fun unready => by simp [State.bindWindow, ready] at unready }
    exact eq ▸ bound.finish idle
  | removed _ _ _ eq => exact eq ▸ h.removeBlock.finish idle
  | blocked _ _ _ _ eq => exact eq ▸ h
  | cancelled _ _ _ _ eq | popul _ _ _ eq | mag _ _ eq | downsS2 _ _ _ _ eq | downsS3 _ _ _ _ eq | hps _ _ _ eq
  | results _ _ _ eq =>
    subst eq
    exact finish (h.of_frame rfl) idle
  | xform inv _ _ eq =>
    subst eq
    exact finish (h.of_frame (by simp [Regs.control])) (by simpa using idle)
  | run instr _ _ eq =>
    subst instr eq
    exact { h with
      running_busy := fun _ => busy
      phase_running := by simp
      run_word := fun _ => decodeCommand_run word }

theorem unstage {r : Regs} (h : r.ControlOk) : Regs.ControlOk { r with wp := 0#16 } :=
  { h with
    unready := fun unready => by
      obtain ⟨power, det, pending, _⟩ := h.unready unready
      exact ⟨power, det, pending, rfl⟩ }

theorem setFifo {r : Regs} (h : r.ControlOk) (ready : r.ready = true) (wp : BitVec 16) (pending : Bool) :
    Regs.ControlOk { r with wp := wp, pending := pending } :=
  { h with unready := fun unready => absurd unready (by simp [ready]) }

theorem beat (h : s.regs.ControlOk) (c : BeatCase s t) : t.regs.ControlOk := by
  cases c with
  | refused eq => exact eq ▸ h
  | flushedPush _ eq => exact eq ▸ h.of_frame rfl
  | pushed d ready eq =>
    have counted := h.setFifo ready (BitVec.ofNat 16 (min (s.regs.wp.toNat + 1) Config.wpMax)) s.regs.pending
    exact eq ▸ counted.of_frame (by simp [Regs.control])
  | flushedCommit _ eq => exact eq ▸ h.unstage.of_frame rfl
  | wrongLength d _ _ eq | discarded d _ _ _ eq => exact eq ▸ h.unstage.of_frame (by simp [Regs.control])
  | inserted d ready _ _ eq => exact eq ▸ (h.setFifo ready 0#16 true).of_frame (by simp [Regs.control])

theorem emit (h : s.regs.ControlOk) (running : s.regs.running = true) : (phaseEmit s).regs.ControlOk := by
  have flagged : (s.setEventIf .resOvr (s.regs.flag .result)).regs.ControlOk := h.of_frame (by simp [Regs.control])
  have published := flagged.publish s.regs.filtered.2 s.regs.filtered.2
  exact (published.moveTo (q := .top) (by simpa using running) (by simp)).of_frame rfl

theorem phase (h : s.regs.ControlOk) (running : s.regs.running = true) (c : PhaseCase s t) : t.regs.ControlOk := by
  cases c with
  | exit _ _ eq => exact eq ▸ h.exitRun
  | top _ _ eq => exact eq ▸ h.moveTo running (by simp)
  | blocked _ _ _ eq => exact eq ▸ h
  | remove q pc _ eq => exact eq ▸ h.removeBlock.moveTo running (by rintro rfl; simp at pc)
  | badLength _ _ eq => exact eq ▸ h.raiseInRun running _
  | populate q pc _ eq | magnitude q pc eq | downsampleS2 q pc eq | downsampleS3 q pc eq | fundamental q pc eq =>
    have moved := h.moveTo running (q := q) (by rintro rfl; simp at pc)
    exact eq ▸ moved.of_frame rfl
  | transform q pc eq =>
    have moved := h.moveTo running (q := q) (by rintro rfl; simp at pc)
    exact eq ▸ moved.of_frame (by simp [Regs.control])
  | freqA _ eq => exact eq ▸ (h.moveTo running (q := .remB) (by simp)).of_frame rfl
  | freqB _ eq => exact eq ▸ (h.moveTo running (q := .filt) (by simp)).of_frame rfl
  | discard _ _ eq => exact eq ▸ (h.moveTo running (q := .top) (by simp)).of_frame rfl
  | accept _ _ eq => exact eq ▸ h.moveTo running (by simp)
  | emit _ eq => exact eq ▸ h.emit running

theorem idle_of_not_busy {r : Regs} (h : r.ControlOk) (busy : r.busy = false) : r.running = false := by
  cases running : r.running with
  | false => rfl
  | true => exact absurd (h.running_busy running) (by simp [busy])

theorem registerWrite {v : BusData} {r r' : Regs} (h : r.ControlOk) (w : RegisterWrite v r r') : r'.ControlOk := by
  cases w with
  | reset _ eq => exact eq ▸ reset
  | issue idle eq =>
    have running := h.idle_of_not_busy idle
    subst eq
    exact { h with
      running_busy := fun _ => rfl
      run_word := fun run => absurd run (by simp [running]) }
  | sampleRate _ eq | minHz _ eq | maxHz _ eq =>
    subst eq
    exact { h with
      unready := fun unready => by
        obtain ⟨power, _, pending, wp⟩ := h.unready unready
        exact ⟨power, rfl, pending, wp⟩ }
  | stop _ eq | clear eq | enable eq | pwrCfg _ eq | thresh _ eq | epsilon _ eq | args _ _ _ _ eq | blkLen _ eq =>
    exact eq ▸ h.of_frame rfl

theorem access (h : s.regs.ControlOk) (c : AccessCase s t) : t.regs.ControlOk := by
  cases c with
  | response r eq | word w i v _ _ eq => exact eq ▸ h
  | register r v ok eq => exact eq ▸ h.registerWrite (writeReg_cases ok)

theorem rstFall (h : s.regs.ControlOk) (c : Mems) : (s.rstFall c).regs.ControlOk := by
  unfold State.rstFall
  split
  · exact reset
  · exact h

end Regs.ControlOk

/-- Settles O49: every case of a step keeps the control registers consistent. -/
theorem stepKeepsControlOk : Obligations.StepKeepsControlOk := by
  intro s t h step
  cases step_cases step with
  | enginePasses _ _ eq | producerPasses _ eq | hostPasses _ eq | rstRise _ eq => exact eq ▸ h
  | phase _ _ _ running eq => exact Regs.ControlOk.phase (s := s.takeTurn) h running (runPhase_cases eq)
  | illegal _ _ _ idle _ _ eq => exact eq ▸ Regs.ControlOk.raise (s := s.takeTurn) h idle _
  | command _ _ busy idle i word eq =>
    exact Regs.ControlOk.command (s := s.takeTurn) h busy idle word
      (exec_command_cases (decodeCommand_isCommand word) eq)
  | beat _ b _ _ _ eq => exact Regs.ControlOk.beat (s := s.takeTurn.dropBeat) h (exec_beat_cases eq)
  | access _ _ r rest _ eq =>
    subst eq
    refine Regs.ControlOk.access ?_ (hostAccess_cases _ r)
    exact h
  | rstFall c _ eq => exact eq ▸ Regs.ControlOk.rstFall (s := s.takeTurn) h c
end Sys2Proof.Machine
end

section
/-! What binds the engine and the detector: the scan window stays current and BRT stays the bit reversal (10_state.md
R33, R54; 41_fft.md R153). After it the reset state and the plain register writes. -/

namespace Sys2Proof.Machine

/-- The registers that say what the engine and the detector were built for. -/
def Regs.binding (r : Regs) : (Bool × Bool) × BitVec 4 × Rate × Freq × Freq × BitVec 16 × BitVec 16 :=
  ((r.ready, r.detReady), r.power, r.sampleRate, r.minHz, r.maxHz, r.minIdx, r.maxIdx)

/-- What a change from `s` to `t` does to these registers and to BRT. -/
inductive BindingCase (s t : State) : Prop where
  | same (regs : t.regs.binding = s.regs.binding) (brt : t.mems.brt = s.mems.brt)
  | init (p : Nat) (unready : s.regs.ready = false) (le : p ≤ Config.pMax)
      (regs : t.regs.binding = (s.construct p).regs.binding) (brt : t.mems.brt = (s.construct p).mems.brt)
  | dinit (ready : s.regs.ready = true) (ok : s.regs.windowOk = true)
      (regs : t.regs.binding = s.bindWindow.regs.binding) (brt : t.mems.brt = s.mems.brt)
  | retune (fs : Rate) (lo hi : Freq)
      (regs : t.regs.binding =
        Regs.binding { s.regs with sampleRate := fs, minHz := lo, maxHz := hi, detReady := false })
      (brt : t.mems.brt = s.mems.brt)
  | reset (regs : t.regs = Regs.reset)

namespace BindingCase
variable {s t : State}

/-- The change does not depend on the outputs and on what comes from outside. -/
theorem of_frame {s' : State} (c : BindingCase s' t) (regs : s'.regs = s.regs) (mems : s'.mems = s.mems) :
    BindingCase s t := by
  obtain ⟨_, _, _, _⟩ := s
  cases regs
  cases mems
  cases c with
  | same regs brt => exact .same regs brt
  | init p unready le regs brt => exact .init p unready le regs brt
  | dinit ready ok regs brt => exact .dinit ready ok regs brt
  | retune fs lo hi regs brt => exact .retune fs lo hi regs brt
  | reset regs => exact .reset regs

theorem of_command {i : Instr} (c : CommandCase i s t) : BindingCase s t := by
  cases c with
  | init p _ unready le _ eq => exact eq ▸ .init p unready le rfl rfl
  | dinit _ ready ok eq => exact eq ▸ .dinit ready ok rfl rfl
  | xform inv _ _ eq => exact eq ▸ .same (by simp [Regs.binding]) (by simp)
  | error _ eq | nop _ eq | removed _ _ _ eq | cancelled _ _ _ _ eq | blocked _ _ _ _ eq | popul _ _ _ eq
  | mag _ _ eq | downsS2 _ _ _ _ eq | downsS3 _ _ _ _ eq | hps _ _ _ eq | results _ _ _ eq | run _ _ _ eq =>
    exact eq ▸ .same rfl rfl

theorem of_beat (c : BeatCase s t) : BindingCase s t := by
  cases c with
  | refused eq | flushedPush _ eq | flushedCommit _ eq => exact eq ▸ .same rfl rfl
  | pushed d _ eq | wrongLength d _ _ eq | discarded d _ _ _ eq | inserted d _ _ _ eq =>
    exact eq ▸ .same (by simp [Regs.binding]) (by simp)

theorem of_phase (c : PhaseCase s t) : BindingCase s t := by
  cases c with
  | exit _ _ eq | top _ _ eq | blocked _ _ _ eq | remove _ _ _ eq | badLength _ _ eq | populate _ _ _ eq
  | magnitude _ _ eq | downsampleS2 _ _ eq | downsampleS3 _ _ eq | fundamental _ _ eq | freqA _ eq | freqB _ eq
  | accept _ _ eq | discard _ _ eq => exact eq ▸ .same rfl rfl
  | transform _ _ eq => exact eq ▸ .same (by simp [Regs.binding]) (by simp)
  | emit _ eq => exact eq ▸ .same (by simp [Regs.binding, phaseEmit]) (by simp [phaseEmit])

theorem of_registerWrite {v : BusData} (w : RegisterWrite v s.regs t.regs) (brt : t.mems.brt = s.mems.brt) :
    BindingCase s t := by
  cases w with
  | reset _ eq => exact .reset eq
  | sampleRate _ eq => exact .retune _ s.regs.minHz s.regs.maxHz (by rw [eq]) brt
  | minHz _ eq => exact .retune s.regs.sampleRate _ s.regs.maxHz (by rw [eq]) brt
  | maxHz _ eq => exact .retune s.regs.sampleRate s.regs.minHz _ (by rw [eq]) brt
  | stop _ eq | clear eq | enable eq | issue _ eq | pwrCfg _ eq | thresh _ eq | epsilon _ eq | args _ _ _ _ eq
  | blkLen _ eq => exact .same (by rw [eq]; rfl) brt

theorem of_access (c : AccessCase s t) : BindingCase s t := by
  cases c with
  | response r eq => exact eq ▸ .same rfl rfl
  | register r v ok eq =>
    subst eq
    exact of_registerWrite (writeReg_cases ok) (by simp)
  | word w i v _ _ eq => exact eq ▸ .same rfl (by cases w <;> rfl)

/-- One step builds the engine, derives the window, makes the window stale, resets, or leaves all of it. -/
theorem of_step (h : step s = .next t) : BindingCase s t := by
  cases step_cases h with
  | enginePasses _ _ eq | producerPasses _ eq | hostPasses _ eq | rstRise _ eq | illegal _ _ _ _ _ _ eq =>
    exact eq ▸ .same rfl rfl
  | phase _ _ _ _ eq => exact (of_phase (runPhase_cases eq)).of_frame rfl rfl
  | command _ _ _ _ i word eq =>
    exact (of_command (exec_command_cases (decodeCommand_isCommand word) eq)).of_frame rfl rfl
  | beat _ b _ _ _ eq => exact (of_beat (exec_beat_cases eq)).of_frame rfl rfl
  | access _ _ r rest _ eq => exact eq ▸ (of_access (hostAccess_cases _ r)).of_frame rfl rfl
  | rstFall c _ eq =>
    subst eq
    unfold State.rstFall
    split
    · exact .reset rfl
    · exact .same rfl rfl

end BindingCase

theorem Regs.ScanWindowOk.of_frame {r r' : Regs} (h : r.ScanWindowOk) (same : r'.binding = r.binding) :
    r'.ScanWindowOk := by
  simp only [Regs.binding, Prod.mk.injEq] at same
  obtain ⟨⟨ready, det⟩, power, rate, minHz, maxHz, minIdx, maxIdx⟩ := same
  simp only [Regs.ScanWindowOk, Regs.windowOk, Regs.windowLo, Regs.windowHi, Regs.rate, Regs.minHzSigned,
    Regs.maxHzSigned, Regs.n, Regs.h, ready, det, power, rate, minHz, maxHz, minIdx, maxIdx] at h ⊢
  exact h

/-- DINIT binds the window of the current registers; both bounds fit their registers. -/
theorem State.bindWindow_scanWindowOk {s : State} (ready : s.regs.ready = true) (ok : s.regs.windowOk = true) :
    s.bindWindow.regs.ScanWindowOk := by
  intro _
  obtain ⟨_, _, _, lt, le⟩ := (Regs.windowOk_iff _).1 ok
  have hh := s.regs.h_le
  simp only [Config.hMax] at hh
  refine ⟨ready, ok, ?_, ?_⟩
  · exact Nat.mod_eq_of_lt (by omega)
  · exact Nat.mod_eq_of_lt (by omega)

/-- Settles O51: the window is derived by DINIT alone, and what it is derived from is written only with DET_READY. -/
theorem stepKeepsScanWindowOk : Obligations.StepKeepsScanWindowOk := by
  intro s t h step
  cases BindingCase.of_step step with
  | same regs _ => exact h.of_frame regs
  | init p unready _ regs _ =>
    refine Regs.ScanWindowOk.of_frame (r := (s.construct p).regs) (fun det => ?_) regs
    exact absurd (h det).1 (by simp [unready])
  | dinit ready ok regs _ => exact (State.bindWindow_scanWindowOk ready ok).of_frame regs
  | retune fs lo hi regs _ =>
    refine Regs.ScanWindowOk.of_frame (fun det => ?_) regs
    cases det
  | reset regs => exact fun det => by simp [regs, Regs.reset] at det

/-! ### The bit-reversal table -/

theorem bitrev_lt (p i : Nat) : bitrev p i < 2 ^ p := by
  induction p generalizing i with
  | zero => simp [bitrev]
  | succ p ih =>
    have high : i % 2 * 2 ^ p ≤ 1 * 2 ^ p := Nat.mul_le_mul_right _ (by omega)
    have low := ih (i / 2)
    rw [bitrev, pow_succ]
    omega

/-- INIT's table holds the bit reversal: for p <= 15 no entry is cut to the 15 bits of BRT. -/
theorem State.construct_bitReversalOk (s : State) {p : Nat} (le : p ≤ Config.pMax) :
    (s.construct p).BitReversalOk := by
  intro _ i hi
  have power : (BitVec.ofNat 4 p).toNat = p := Nat.mod_eq_of_lt (by simp only [Config.pMax] at le; omega)
  simp only [Regs.n, State.construct_regs, power] at hi ⊢
  rw [State.construct_brt_read, if_pos hi]
  have fits : bitrev p i < 2 ^ 15 := lt_of_lt_of_le (bitrev_lt p i) (Nat.pow_le_pow_right (by omega) le)
  exact Nat.mod_eq_of_lt fits

theorem State.BitReversalOk.of_frame {s t : State} (h : s.BitReversalOk) (ready : t.regs.ready = s.regs.ready)
    (power : t.regs.power = s.regs.power) (brt : t.mems.brt = s.mems.brt) : t.BitReversalOk := by
  simp only [State.BitReversalOk, Regs.n, ready, power, brt] at h ⊢
  exact h

/-- Settles O52: only INIT writes BRT and POWER, and only it sets READY. -/
theorem stepKeepsBitReversalOk : Obligations.StepKeepsBitReversalOk := by
  intro s t h step
  cases BindingCase.of_step step with
  | same regs brt | dinit _ _ regs brt | retune _ _ _ regs brt =>
    exact h.of_frame (congrArg (·.1.1) regs) (congrArg (·.2.1) regs) brt
  | init p _ le regs brt =>
    exact (s.construct_bitReversalOk le).of_frame (congrArg (·.1.1) regs) (congrArg (·.2.1) regs) brt
  | reset regs => exact fun ready => by simp [regs, Regs.reset] at ready

/-! ### At reset, and the plain host writes -/

/-- Settles O47: with READY = 0, DET_READY = 0 and PENDING = 0 every conditional invariant holds for want of its
premise, and the rest is read off the reset values. -/
theorem resetSatisfiesInvariants : Obligations.ResetSatisfiesInvariants := by
  refine ⟨⟨Mems.wf_empty, by decide, ?_⟩, ?_, ?_, ?_, ?_, ?_⟩
  · exact fun c mem => absurd mem List.not_mem_nil
  · exact Regs.ControlOk.reset
  · exact fun pending => by cases pending
  · exact fun det => by cases det
  · exact fun ready => by cases ready
  · constructor <;> decide

/-- An accepted write to a register has the register's effect and the response OK. -/
theorem State.hostWrite_reg {s : State} {a : Addr} {v : BusData} {r : HostReg} (target : targetOf a = .reg r)
    (accepted : s.regs.writeRefused v (.reg r) = false) :
    s.hostWrite a v = (s.writeReg v r).respond { err := false, rdata := none } := by
  simp [State.hostWrite, State.writeTarget, target, accepted]

/-- Settles O37, register by register: each address names its register, and no write is refused while BUSY = 0. -/
theorem hostWritesStoreLowBits : Obligations.HostWritesStoreLowBits := by
  intro s v idle wr
  have accepted {r : HostReg} (writable : r.writable = true) (cmd : r ≠ .cmd) :
      s.regs.writeRefused v (.reg r) = false := by
    simp [Regs.writeRefused, writable, idle, cmd]
  have written {a : Addr} (r : HostReg) (target : targetOf a = .reg r) (writable : r.writable = true)
      (cmd : r ≠ .cmd) : s.hostWrite a v = (s.writeReg v r).respond { err := false, rdata := none } :=
    State.hostWrite_reg target (accepted writable cmd)
  exact ⟨written .irqEn rfl rfl (by decide), written .pwrCfg rfl rfl (by decide),
    written .sampleRate rfl rfl (by decide), written .minHz rfl rfl (by decide), written .maxHz rfl rfl (by decide),
    written .thresh rfl rfl (by decide), written .epsilon rfl rfl (by decide), written .arg0 rfl rfl (by decide),
    written .arg1 rfl rfl (by decide), written .arg2 rfl rfl (by decide), written .blkLen rfl rfl (by decide)⟩

end Sys2Proof.Machine
end

section
/-! The host bus (20_memory.md sections 1 and 2): where each register and window lies on it, which accesses it refuses,
and what the windows read after a write to one of their words. -/

namespace Sys2Proof.Machine

/-! ### The address map -/

/-- The address of a register; `HostReg` lists them in that order (10_state.md R47). -/
def HostReg.address (r : HostReg) : Nat := r.ctorIdx

/-- The address of word 0 of a window (20_memory.md R75). -/
def Window.base : Window → Nat
  | .blk => 0x08000
  | .re => 0x10000
  | .im => 0x18000
  | .brt => 0x20000
  | .s1 => 0x28000
  | .s2 => 0x2C000
  | .s3 => 0x30000
  | .rspec => 0x34000
  | .twc => 0x38000
  | .tws => 0x3C000

theorem Window.le_base (w : Window) : 0x8000 ≤ w.base := by
  cases w <;> decide

theorem HostReg.address_lt (r : HostReg) : r.address < 0x20 := by
  cases r <;> decide

theorem address_of_hostRegAt : ∀ n < 0x20, (hostRegAt n).map HostReg.address = some n := by
  decide

theorem hostRegAt_of_le {n : Nat} (unused : 0x20 ≤ n) : hostRegAt n = none := by
  obtain ⟨m, rfl⟩ := Nat.exists_eq_add_of_le' unused
  rfl

/-- The windows fill their parts of the address map. -/
theorem targetOf_window {a : Addr} (w : Window) (low : w.base ≤ a.toNat) (high : a.toNat < w.base + w.depth) :
    targetOf a = .window w (a.toNat - w.base) := by
  unfold targetOf
  cases w <;> simp only [Window.base, Window.depth, Config.nMax, Config.hMax] at low high ⊢ <;>
    simp (disch := omega) only [if_pos, if_neg]

/-- The cases of a word address. -/
inductive AddressCase (a : Addr) : Prop where
  | register (r : HostReg) (addr : a.toNat = r.address) (target : targetOf a = .reg r)
  | unmapped (low : 0x20 ≤ a.toNat) (high : a.toNat < 0x8000) (target : targetOf a = .unmapped)
  | window (w : Window) (i : Nat) (lt : i < w.depth) (addr : a.toNat = w.base + i) (target : targetOf a = .window w i)

theorem AddressCase.of_window {a : Addr} (w : Window) (low : w.base ≤ a.toNat)
    (high : a.toNat < w.base + w.depth) : AddressCase a :=
  .window w (a.toNat - w.base) (by omega) (by omega) (targetOf_window w low high)

/-- Every word address below the windows is the address of a register, or unmapped. -/
theorem AddressCase.of_low {a : Addr} (high : a.toNat < 0x8000) : AddressCase a := by
  rcases Nat.lt_or_ge a.toNat 0x20 with h | h
  · obtain ⟨r, found, addr⟩ := Option.map_eq_some_iff.1 (address_of_hostRegAt a.toNat h)
    exact .register r addr.symm (by simp [targetOf, high, found])
  · exact .unmapped h high (by simp [targetOf, high, hostRegAt_of_le h])

/-- Every word address is one of the cases: the registers and the gap above them, then window after window. -/
theorem address_cases (a : Addr) : AddressCase a := by
  have top := a.toNat_lt
  have window (w : Window) := AddressCase.of_window (a := a) w
  rcases Nat.lt_or_ge a.toNat 0x08000 with h | _; · exact .of_low h
  rcases Nat.lt_or_ge a.toNat 0x10000 with h | _; · exact window .blk ‹_› h
  rcases Nat.lt_or_ge a.toNat 0x18000 with h | _; · exact window .re ‹_› h
  rcases Nat.lt_or_ge a.toNat 0x20000 with h | _; · exact window .im ‹_› h
  rcases Nat.lt_or_ge a.toNat 0x28000 with h | _; · exact window .brt ‹_› h
  rcases Nat.lt_or_ge a.toNat 0x2C000 with h | _; · exact window .s1 ‹_› h
  rcases Nat.lt_or_ge a.toNat 0x30000 with h | _; · exact window .s2 ‹_› h
  rcases Nat.lt_or_ge a.toNat 0x34000 with h | _; · exact window .s3 ‹_› h
  rcases Nat.lt_or_ge a.toNat 0x38000 with h | _; · exact window .rspec ‹_› h
  rcases Nat.lt_or_ge a.toNat 0x3C000 with h | _; · exact window .twc ‹_› h
  exact window .tws ‹_› top

/-! ### Which accesses are refused -/

/-- A window word is missing exactly where `NoWordAt` says so. -/
theorem Regs.noWordAt_window_iff (r : Regs) (w : Window) {i : Nat} (lt : i < w.depth) :
    r.NoWordAt (w.base + i) ↔ r.validLength w ≤ i := by
  have hn : 2 ^ r.power.toNat = r.n := rfl
  have hh : r.h = r.n / 2 := rfl
  unfold Regs.NoWordAt
  cases w <;> simp only [Window.base, Window.depth, Config.nMax, Config.hMax, Regs.validLength, hn, hh] at lt ⊢
  case twc | tws => omega
  all_goals
    cases r.ready <;>
      simp only [Bool.false_eq_true, Bool.true_eq_false, ↓reduceIte, and_false, and_true, false_or] <;> omega

/-- A read is refused exactly where there is no word. -/
theorem Regs.readRefused_iff (r : Regs) (a : Addr) : r.readRefused (targetOf a) = true ↔ r.NoWordAt a.toNat := by
  cases address_cases a with
  | register h addr target =>
    have := h.address_lt
    simp only [target, Regs.readRefused, Bool.false_eq_true, false_iff, Regs.NoWordAt]
    omega
  | unmapped low high target =>
    simp only [target, Regs.readRefused, true_iff]
    exact .inl ⟨low, high⟩
  | window w i lt addr target =>
    simp only [target, Regs.readRefused, decide_eq_true_eq, addr, r.noWordAt_window_iff w lt]

/-- Where a write is refused: no word, read-only, the engine busy, a CMD word wider than 32 bits (20_memory.md R74,
30_encoding.md R114). -/
def Regs.WriteRefusedAt (r : Regs) (a : Nat) (v : BusData) : Prop :=
  r.NoWordAt a ∨ ReadOnlyAt a ∨ (r.busy = true ∧ a ∉ [0x01, 0x03, 0x04]) ∨ (a = 0x05 ∧ 2 ^ 32 ≤ v.toNat)

theorem readOnlyAt_register_iff (h : HostReg) : ReadOnlyAt h.address ↔ h.writable = false := by
  unfold ReadOnlyAt
  cases h <;> decide

theorem HostReg.writableWhileBusy_iff (h : HostReg) :
    h.writableWhileBusy = true ↔ h.address ∈ [0x01, 0x03, 0x04] := by
  cases h <;> decide

theorem HostReg.eq_cmd_iff (h : HostReg) : h = .cmd ↔ h.address = 0x05 := by
  cases h <;> decide

theorem readOnlyAt_window_iff (w : Window) {i : Nat} (lt : i < w.depth) :
    ReadOnlyAt (w.base + i) ↔ w.writable = false := by
  have notRegister : w.base + i ∉ readOnlyRegisters := by
    intro mem
    have small : ∀ n ∈ readOnlyRegisters, n < 0x20 := by decide
    have := small _ mem
    have := w.le_base
    omega
  simp only [ReadOnlyAt, notRegister, false_or]
  cases w <;> simp only [Window.base, Window.depth, Config.nMax, Config.hMax, Window.writable] at lt ⊢ <;>
    simp only [Bool.true_eq_false, iff_false, iff_true] <;> omega

theorem BusData.highHalf_ne_zero_iff (v : BusData) : v.extractLsb' 32 32 ≠ 0#32 ↔ 2 ^ 32 ≤ v.toNat := by
  have := v.toNat_lt
  rw [ne_eq, ← BitVec.toNat_inj, BitVec.extractLsb'_toNat, Nat.shiftRight_eq_div_pow]
  simp only [BitVec.toNat_ofNat, Nat.zero_mod]
  omega

/-- A write is refused exactly where `WriteRefusedAt` says so. -/
theorem Regs.writeRefused_iff (r : Regs) (a : Addr) (v : BusData) :
    r.writeRefused v (targetOf a) = true ↔ r.WriteRefusedAt a.toNat v := by
  unfold Regs.WriteRefusedAt
  rw [← r.readRefused_iff a]
  cases address_cases a with
  | register h addr target =>
    rw [target, addr, readOnlyAt_register_iff, ← h.writableWhileBusy_iff, ← h.eq_cmd_iff,
      ← BusData.highHalf_ne_zero_iff v]
    simp [Regs.writeRefused, Regs.readRefused, or_assoc]
  | unmapped low high target => simp [target, Regs.writeRefused, Regs.readRefused]
  | window w i lt addr target =>
    have low := w.le_base
    have notAnytime : w.base + i ∉ [0x01, 0x03, 0x04] := by
      simp only [List.mem_cons, List.not_mem_nil, or_false, not_or]
      omega
    have notCmd : w.base + i ≠ 0x05 := by omega
    simp only [target, addr, readOnlyAt_window_iff w lt, notAnytime, notCmd, Regs.writeRefused, Regs.readRefused,
      Bool.or_eq_true, Bool.not_eq_true', decide_eq_true_eq, not_false_eq_true, and_true, false_and, or_false]
    tauto

theorem State.hostRead_of_noWord {s : State} {a : Addr} (missing : s.regs.NoWordAt a.toNat) :
    s.hostRead a = s.respond { err := true, rdata := some 0#64 } := by
  rw [State.hostRead_eq, if_pos ((s.regs.readRefused_iff a).2 missing)]

theorem State.hostRead_of_word {s : State} {a : Addr} (word : ¬ s.regs.NoWordAt a.toNat) :
    s.hostRead a = s.respond { err := false, rdata := some (s.readTarget (targetOf a)) } := by
  rw [State.hostRead_eq, if_neg (mt (s.regs.readRefused_iff a).1 word)]

theorem State.hostWrite_of_refused {s : State} {a : Addr} {v : BusData} (refused : s.regs.WriteRefusedAt a.toNat v) :
    s.hostWrite a v = s.respond { err := true, rdata := none } := by
  rw [State.hostWrite, if_pos ((s.regs.writeRefused_iff a v).2 refused)]

theorem State.hostWrite_of_accepted {s : State} {a : Addr} {v : BusData}
    (accepted : ¬ s.regs.WriteRefusedAt a.toNat v) :
    s.hostWrite a v = (s.writeTarget v (targetOf a)).respond { err := false, rdata := none } := by
  rw [State.hostWrite, if_neg (mt (s.regs.writeRefused_iff a v).1 accepted)]

/-- At the host's turn a step makes the host's next access. -/
theorem step_hostAccess {s : State} {r : HostReq} {rest : List HostReq} (turn : s.nextTurn = .host)
    (rst : s.env.rst = false) (queue : s.env.hostQ = r :: rest) :
    step s = .next (({ s.takeTurn with env := { s.takeTurn.env with hostQ := rest } } : State).hostAccess r) := by
  simp [step, fetch, turn, hostTurn, State.hReady, rst, queue]

/-- Settles O35: whether an access is refused is `Regs.readRefused_iff` and `Regs.writeRefused_iff`, and the response
tells which of the two it was. -/
theorem hostAccessRefusedExactly : Obligations.HostAccessRefusedExactly := by
  intro s t r rest turn rst queue h refused
  rw [step_hostAccess turn rst queue] at h
  obtain rfl := Host.Outcome.next.inj h
  set u : State := { s.takeTurn with env := { s.takeTurn.env with hostQ := rest } }
  suffices answer : ((∃ d, (u.hostAccess r).ports.hResp = some ⟨true, d⟩) ↔ refused) ∧
      (refused → (u.hostAccess r).regs = s.regs ∧ (u.hostAccess r).mems = s.mems ∧
        ((∃ a, r = .read a) → (u.hostAccess r).ports.hResp = some ⟨true, some 0#64⟩)) from
    ⟨answer.1, answer.2, u.hostAccess_env r⟩
  cases r with
  | read a =>
    by_cases missing : u.regs.NoWordAt a.toNat
    · rw [State.hostAccess, State.hostRead_of_noWord missing]
      exact ⟨iff_of_true ⟨_, rfl⟩ missing, fun _ => ⟨rfl, rfl, fun _ => rfl⟩⟩
    · rw [State.hostAccess, State.hostRead_of_word missing]
      exact ⟨iff_of_false (by simp) missing, fun contra => absurd contra missing⟩
  | write a v =>
    by_cases deny : u.regs.WriteRefusedAt a.toNat v
    · rw [State.hostAccess, State.hostWrite_of_refused deny]
      exact ⟨iff_of_true ⟨_, rfl⟩ deny, fun _ => ⟨rfl, rfl, by simp⟩⟩
    · rw [State.hostAccess, State.hostWrite_of_accepted deny]
      exact ⟨iff_of_false (by simp) deny, fun contra => absurd contra deny⟩

/-! ### What reads return -/

/-- A register reads as its own value (10_state.md R30). -/
theorem State.readTarget_register_toNat (s : State) {a : Addr} (r : HostReg) {k : Nat} {x : BitVec k}
    (target : targetOf a = .reg r) (reads : s.regs.readReg r = x.setWidth Config.busW) (narrow : k ≤ 64) :
    (s.readTarget (targetOf a)).toNat = x.toNat := by
  rw [target, State.readTarget, reads, BitVec.toNat_setWidth_of_le narrow]

/-- A window word reads as its own value (20_memory.md R76). -/
theorem State.readTarget_window_toNat (s : State) {a : Addr} (w : Window) {k : Nat} {x : BitVec k}
    (low : w.base ≤ a.toNat) (high : a.toNat < w.base + w.depth)
    (reads : s.mems.readWindow w (a.toNat - w.base) = x.setWidth Config.busW) (narrow : k ≤ 64) :
    (s.readTarget (targetOf a)).toNat = x.toNat := by
  rw [targetOf_window w low high, State.readTarget, reads, BitVec.toNat_setWidth_of_le narrow]

/-- A signed ROM word stands on the bus as its value modulo 2^18. -/
theorem twiddlePattern_toNat (v : Int) : ((twiddlePattern v).toNat : Int) = v % 2 ^ 18 := by
  rw [twiddlePattern, BitVec.toNat_ofInt, two_pow_twW]
  omega

theorem toNat_append_eq {k l : Nat} (x : BitVec k) (y : BitVec l) :
    (x ++ y).toNat = x.toNat * 2 ^ l + y.toNat := by
  rw [BitVec.toNat_append, ← Nat.shiftLeft_add_eq_or_of_lt y.isLt, Nat.shiftLeft_eq]

/-- The fields of STATUS at their bits (10_state.md R23). -/
theorem Regs.status_toNat (r : Regs) :
    r.status.toNat =
      r.ready.toNat + 2 * r.detReady.toNat + 4 * r.busy.toNat + 8 * r.running.toNat + 16 * r.pending.toNat +
        2 ^ 8 * r.seqPc.number.toNat + 2 ^ 16 * r.power.toNat := by
  simp only [Regs.status, toNat_append_eq, BitVec.toNat_ofBool, BitVec.toNat_ofNat]
  omega

/-- Settles O36: a register is read through its address, a window word through its window's base. -/
theorem hostReadReturnsWordAndChangesNothing : Obligations.HostReadReturnsWordAndChangesNothing := by
  intro s
  have window {a : Addr} (w : Window) {k : Nat} {x : BitVec k} := s.readTarget_window_toNat (a := a) w (x := x)
  refine ⟨fun a => ?_, rfl, ?_, ?_, ?_, fun a lo hi => window .blk lo hi rfl (by decide),
    fun a lo hi => window .re lo hi rfl (by decide), fun a lo hi => window .im lo hi rfl (by decide),
    fun a lo hi => window .brt lo hi rfl (by decide), fun a lo hi => window .s1 lo hi rfl (by decide),
    fun a lo hi => window .s2 lo hi rfl (by decide), fun a lo hi => window .s3 lo hi rfl (by decide),
    fun a lo hi => window .rspec lo hi rfl (by decide), fun a lo hi => ?_, fun a lo => ?_⟩
  · by_cases missing : s.regs.NoWordAt a.toNat
    · exact ⟨_, State.hostRead_of_noWord missing, fun _ => rfl, fun word => absurd missing word⟩
    · exact ⟨_, State.hostRead_of_word missing, fun noWord => absurd noWord missing, fun _ => rfl⟩
  · rw [s.readTarget_register_toNat .ctrl rfl rfl (by decide), toNat_append_eq]
    simp [BitVec.toNat_ofBool]
  · rw [s.readTarget_register_toNat .status rfl rfl (by decide), Regs.status_toNat]
  · simp only [List.forall_mem_cons, List.not_mem_nil, false_imp_iff, implies_true, and_true]
    and_intros <;> exact s.readTarget_register_toNat _ rfl rfl (by decide)
  · rw [window .twc lo hi rfl (by decide)]
    exact twiddlePattern_toNat _
  · rw [window .tws lo a.toNat_lt rfl (by decide)]
    exact twiddlePattern_toNat _

/-! ### Reading a window after a write to it

First what the write leaves of each memory. -/

section
variable (ms : Mems) (v : BusData) (w : Window) (i : Nat)

@[simp] theorem Mems.writeWindow_stg : (ms.writeWindow v w i).stg = ms.stg := by cases w <;> rfl
@[simp] theorem Mems.writeWindow_slot : (ms.writeWindow v w i).slot = ms.slot := by cases w <;> rfl
@[simp] theorem Mems.writeWindow_brt : (ms.writeWindow v w i).brt = ms.brt := by cases w <;> rfl
@[simp] theorem Mems.writeWindow_rspec : (ms.writeWindow v w i).rspec = ms.rspec := by cases w <;> rfl

theorem Mems.writeWindow_blk :
    (ms.writeWindow v w i).blk = if w = .blk then ms.blk.write i (v.setWidth 16) else ms.blk := by
  cases w <;> rfl
theorem Mems.writeWindow_re :
    (ms.writeWindow v w i).re = if w = .re then ms.re.write i (v.setWidth 48) else ms.re := by
  cases w <;> rfl
theorem Mems.writeWindow_im :
    (ms.writeWindow v w i).im = if w = .im then ms.im.write i (v.setWidth 48) else ms.im := by
  cases w <;> rfl
theorem Mems.writeWindow_s1 :
    (ms.writeWindow v w i).s1 = if w = .s1 then ms.s1.write i (v.setWidth 48) else ms.s1 := by
  cases w <;> rfl
theorem Mems.writeWindow_s2 :
    (ms.writeWindow v w i).s2 = if w = .s2 then ms.s2.write i (v.setWidth 48) else ms.s2 := by
  cases w <;> rfl
theorem Mems.writeWindow_s3 :
    (ms.writeWindow v w i).s3 = if w = .s3 then ms.s3.write i (v.setWidth 48) else ms.s3 := by
  cases w <;> rfl
end

/-- A read of a window word that was not the one written. -/
theorem Mems.readWindow_writeWindow_of_ne (ms : Mems) (v : BusData) {w w' : Window} {i j : Nat}
    (other : w' = w → j ≠ i) : (ms.writeWindow v w i).readWindow w' j = ms.readWindow w' j := by
  have untouched {k : Nat} (m : Memory k) (x : BitVec k) :
      (if w = w' then m.write i x else m).read j = m.read j := by
    split
    · rw [Memory.read_write, if_neg (other (by symm; assumption))]
    · rfl
  cases w' <;> simp only [Mems.readWindow, Mems.writeWindow_brt, Mems.writeWindow_rspec]
  case blk => rw [Mems.writeWindow_blk, untouched]
  case re => rw [Mems.writeWindow_re, untouched]
  case im => rw [Mems.writeWindow_im, untouched]
  case s1 => rw [Mems.writeWindow_s1, untouched]
  case s2 => rw [Mems.writeWindow_s2, untouched]
  case s3 => rw [Mems.writeWindow_s3, untouched]

/-- A read of the word written gives its low bits. -/
theorem Mems.readWindow_writeWindow_same (ms : Mems) (v : BusData) {w : Window} (i : Nat)
    (writable : w.writable = true) :
    ((ms.writeWindow v w i).readWindow w i).toNat = v.toNat % 2 ^ (if w = .blk then 16 else 48) := by
  have stored {k : Nat} (m : Memory k) (narrow : k ≤ 64) :
      (((m.write i (v.setWidth k)).read i).setWidth Config.busW).toNat = v.toNat % 2 ^ k := by
    rw [BitVec.toNat_setWidth_of_le narrow, Memory.read_write, if_pos rfl, BitVec.toNat_setWidth]
  cases w
  case blk | re | im | s1 | s2 | s3 => exact stored _ (by decide)
  case brt | rspec | twc | tws => cases writable

/-- The address that a window word is named by. -/
theorem toNat_of_targetOf_window {a : Addr} {w : Window} {i : Nat} (names : targetOf a = .window w i) :
    a.toNat = w.base + i := by
  cases address_cases a with
  | register r addr target => cases target.symm.trans names
  | unmapped low high target => cases target.symm.trans names
  | window w' j lt addr target =>
    cases target.symm.trans names
    exact addr

/-- A write to a window word is seen at no other target. -/
theorem State.readTarget_writeWindow_of_ne (s : State) (v : BusData) {w : Window} {i : Nat} {target : Target}
    (other : target ≠ .window w i) :
    (s.writeTarget v (.window w i)).readTarget target = s.readTarget target := by
  cases target with
  | reg r => rfl
  | unmapped => rfl
  | window w' j => exact s.mems.readWindow_writeWindow_of_ne v (fun same index => other (by rw [same, index]))

/-- Settles O38: the address names a window word, and the write to it is accepted. -/
theorem windowWriteThenRead : Obligations.WindowWriteThenRead := by
  intro s a v low high notBrt idle word t
  cases address_cases a with
  | register r addr target => have := r.address_lt; omega
  | unmapped _ above target => omega
  | window w i lt addr target =>
    have writable : w.writable = true := by
      cases w <;> simp only [Window.base, Window.depth, Window.writable, Config.hMax, Config.nMax] at lt addr ⊢ <;>
        omega
    have accepted : ¬ s.regs.WriteRefusedAt a.toNat v := by
      rintro (missing | readOnly | ⟨busy, _⟩ | ⟨cmd, _⟩)
      · exact word missing
      · rw [addr, readOnlyAt_window_iff w lt, writable] at readOnly
        cases readOnly
      · rw [idle] at busy
        cases busy
      · omega
    have written : t = (s.writeTarget v (.window w i)).respond { err := false, rdata := none } := by
      rw [← target]
      exact State.hostWrite_of_accepted accepted
    have blk_iff : a.toNat < 0x10000 ↔ w = .blk := by
      cases w <;> simp only [Window.base, Window.depth, Config.hMax, Config.nMax] at lt addr ⊢ <;>
        simp only [reduceCtorEq, iff_false, iff_true] <;> omega
    rw [written, target]
    refine ⟨rfl, rfl, rfl, s.mems.writeWindow_brt v w i, s.mems.writeWindow_rspec v w i,
      s.mems.writeWindow_stg v w i, s.mems.writeWindow_slot v w i, ?_, fun b ne => ?_⟩
    · simp only [blk_iff]
      exact s.mems.readWindow_writeWindow_same v i writable
    · exact s.readTarget_writeWindow_of_ne v (fun same =>
        ne (BitVec.eq_of_toNat_eq ((toNat_of_targetOf_window same).trans addr.symm)))

end Sys2Proof.Machine
end

section
/-! The encoding (30_encoding.md): the fields of a word that an encoder put together, the fields of any word in
arithmetic, which words are illegal, and what an engine step does with a legal and with an illegal word. -/

namespace Sys2Proof

/-! ### The fields of an assembled word -/

theorem opField_formatD (op dst : BitVec 8) (factor : BitVec 16) : opField (op ++ dst ++ factor) = op := by
  rw [opField, BitVec.extractLsb'_append_eq_of_le (by decide)]
  exact BitVec.extractLsb'_append_eq_left

theorem dstField_formatD (op dst : BitVec 8) (factor : BitVec 16) : dstField (op ++ dst ++ factor) = dst := by
  rw [dstField, BitVec.extractLsb'_append_eq_of_le (by decide)]
  exact BitVec.extractLsb'_append_eq_right

theorem factorField_formatD (op dst : BitVec 8) (factor : BitVec 16) :
    factorField (op ++ dst ++ factor) = factor :=
  BitVec.extractLsb'_append_eq_right

theorem decodeCommand_of_downs {w : CommandWord} (op : opField w = 0x14#8) : decodeCommand w = decodeD w := by
  simp [decodeCommand, op]

/-- An immediate in range survives the 16-bit field (R104, R110). -/
theorem toInt_ofInt_of_inS16 {v : Int} (range : inS16 v = true) : (BitVec.ofInt 16 v).toInt = v := by
  simp only [inS16, Bool.and_eq_true, decide_eq_true_eq] at range
  exact BitVec.toInt_ofInt_eq_self (by decide) (by omega) (by omega)

theorem decode_encodeD (dst : BitVec 8) {factor : Int} (range : inS16 factor = true) :
    decode (encodeD 0x14#8 dst factor) =
      if dst = 0x02#8 then .ok (.downsS2 factor) else if dst = 0x03#8 then .ok (.downsS3 factor)
      else .error .dst := by
  rw [encodeD, decode, decodeCommand_of_downs (opField_formatD ..), decodeD, dstField_formatD, factorField_formatD,
    toInt_ofInt_of_inS16 range]

theorem decode_encodeP (last : Bool) {d : Int} (range : inS16 d = true) :
    decode (encodeP last d) = .ok (if last = true then .commit d else .push d) := by
  have lastBit : (BitVec.ofBool last ++ BitVec.ofInt 16 d).getLsbD 16 = last := by
    rw [BitVec.getLsbD_append]
    simp
  rw [encodeP, decode, decodeBeat_eq, lastBit, BitVec.extractLsb'_append_eq_right, toInt_ofInt_of_inS16 range]

/-- Settles O1, constructor by constructor: a word with an immediate is taken apart field by field, and each of the
others is one written-out word. -/
theorem decodeEncodeRoundTrip : Obligations.DecodeEncodeRoundTrip := by
  intro i wf
  cases i with
  | downsS2 factor => exact decode_encodeD 0x02#8 wf
  | downsS3 factor => exact decode_encodeD 0x03#8 wf
  | push d => exact decode_encodeP false wf
  | commit d => exact decode_encodeP true wf
  | xform inv => cases inv <;> rfl
  | nop | init | dinit | remove | popul | mag | hps | b2f | ssf | fnote | tdir | run => rfl

/-! ### Which words are illegal -/

theorem opField_toNat (w : CommandWord) : (opField w).toNat = w.toNat / 2 ^ 24 := by
  have := w.toNat_lt
  rw [opField, BitVec.extractLsb'_toNat, Nat.shiftRight_eq_div_pow]
  omega

theorem zeroFieldZ_eq_zero_iff (w : CommandWord) : zeroFieldZ w = 0#24 ↔ w.toNat % 2 ^ 24 = 0 := by
  rw [← BitVec.toNat_inj, zeroFieldZ, BitVec.extractLsb'_toNat]
  rfl

theorem zeroFieldX_eq_zero_iff (w : CommandWord) : zeroFieldX w = 0#23 ↔ w.toNat % 2 ^ 24 / 2 = 0 := by
  rw [← BitVec.toNat_inj, zeroFieldX, BitVec.extractLsb'_toNat, Nat.shiftRight_eq_div_pow]
  simp only [BitVec.toNat_ofNat, Nat.zero_mod]
  omega

theorem dstField_eq_iff (w : CommandWord) (dst : BitVec 8) :
    dstField w = dst ↔ w.toNat / 2 ^ 16 % 2 ^ 8 = dst.toNat := by
  rw [← BitVec.toNat_inj, dstField, BitVec.extractLsb'_toNat, Nat.shiftRight_eq_div_pow]

/-- Does the decoder reject the word? -/
def Rejected (d : Except Illegal Instr) : Prop := ∃ e, d = .error e

@[simp] theorem rejected_error (e : Illegal) : Rejected (.error e) := ⟨e, rfl⟩

@[simp] theorem not_rejected_ok (i : Instr) : ¬ Rejected (.ok i) := by
  rintro ⟨e, eq⟩
  cases eq

theorem toBool_iff_not_rejected (d : Except Illegal Instr) : d.toBool = true ↔ ¬ Rejected d := by
  cases d <;> simp [Except.toBool]

theorem decodeZ_rejected_iff (i : Instr) (w : CommandWord) : Rejected (decodeZ i w) ↔ w.toNat % 2 ^ 24 ≠ 0 := by
  rw [ne_eq, ← zeroFieldZ_eq_zero_iff, decodeZ]
  split <;> simp [*]

theorem decodeX_rejected_iff (w : CommandWord) : Rejected (decodeX w) ↔ w.toNat % 2 ^ 24 / 2 ≠ 0 := by
  rw [ne_eq, ← zeroFieldX_eq_zero_iff, decodeX]
  split <;> simp [*]

theorem decodeD_rejected_iff (w : CommandWord) :
    Rejected (decodeD w) ↔ w.toNat / 2 ^ 16 % 2 ^ 8 ≠ 0x02 ∧ w.toNat / 2 ^ 16 % 2 ^ 8 ≠ 0x03 := by
  have s2 := dstField_eq_iff w 0x02#8
  have s3 := dstField_eq_iff w 0x03#8
  rw [ne_eq, ne_eq, decodeD]
  split
  · simp_all
  · split <;> simp_all

/-- The 14 opcodes of R105. -/
def opcodes : List Nat :=
  [0x00, 0x01, 0x02, 0x10, 0x11, 0x12, 0x13, 0x14, 0x15, 0x16, 0x17, 0x20, 0x21, 0x30]

/-- The cases (a), (b) for each format with a `zero` field, and (c) of R107, in arithmetic on the word. -/
def IllegalPattern (n : Nat) : Prop :=
  n / 2 ^ 24 ∉ opcodes ∨
    (n / 2 ^ 24 ≠ 0x12 ∧ n / 2 ^ 24 ≠ 0x14 ∧ n % 2 ^ 24 ≠ 0) ∨
    (n / 2 ^ 24 = 0x12 ∧ n % 2 ^ 24 / 2 ≠ 0) ∨
    (n / 2 ^ 24 = 0x14 ∧ n / 2 ^ 16 % 2 ^ 8 ≠ 0x02 ∧ n / 2 ^ 16 % 2 ^ 8 ≠ 0x03)

/-- The decoder rejects exactly the words of R107: row by row of the opcode map the format's own check decides, and
there is no row for any other opcode. -/
theorem decodeCommand_rejected_iff (w : CommandWord) : Rejected (decodeCommand w) ↔ IllegalPattern w.toNat := by
  unfold decodeCommand
  split <;> simp only [opField_toNat] at *
  case h_6 op =>
    rw [decodeX_rejected_iff, IllegalPattern, op]
    simp [opcodes]
  case h_8 op =>
    rw [decodeD_rejected_iff, IllegalPattern, op]
    simp [opcodes]
  case h_15 =>
    have noRow : w.toNat / 2 ^ 24 ∉ opcodes := by
      simp only [opcodes, List.mem_cons, List.not_mem_nil, or_false, not_or]
      and_intros <;> assumption
    exact iff_of_true (rejected_error _) (.inl noRow)
  all_goals
    rename_i op
    rw [decodeZ_rejected_iff, IllegalPattern, op]
    simp [opcodes]

/-! ### How many words are legal -/

/-- The legal words without an operand field: the 12 words of format Z (R102, R105). -/
def wordsZ : Finset Nat :=
  {0x00000000, 0x01000000, 0x02000000, 0x10000000, 0x11000000, 0x13000000, 0x15000000, 0x16000000, 0x17000000,
    0x20000000, 0x21000000, 0x30000000}

/-- The legal words: those of format Z, the two of XFORM, and those of DOWNS, whose two destinations are neighbours. -/
def legalWords : Finset Nat :=
  wordsZ ∪ (Finset.Ico 0x12000000 0x12000002 ∪ Finset.Ico 0x14020000 0x14040000)

theorem mem_legalWords_iff {n : Nat} : n ∈ legalWords ↔ n < 2 ^ 32 ∧ ¬ IllegalPattern n := by
  simp only [legalWords, wordsZ, Finset.mem_union, Finset.mem_insert, Finset.mem_singleton, Finset.mem_Ico,
    IllegalPattern, opcodes, List.mem_cons, List.not_mem_nil, or_false]
  omega

theorem legalWords_card : legalWords.card = 131086 := by
  have apart : Disjoint (Finset.Ico 0x12000000 0x12000002) (Finset.Ico 0x14020000 0x14040000) :=
    Finset.Ico_disjoint_Ico_consecutive _ _ _ |>.mono_right (Finset.Ico_subset_Ico_left (by decide))
  have operands : Disjoint wordsZ (Finset.Ico 0x12000000 0x12000002 ∪ Finset.Ico 0x14020000 0x14040000) := by
    rw [Finset.disjoint_left]
    intro n hz
    simp only [wordsZ, Finset.mem_insert, Finset.mem_singleton] at hz
    simp only [Finset.mem_union, Finset.mem_Ico]
    omega
  rw [legalWords, Finset.card_union_of_disjoint operands, Finset.card_union_of_disjoint apart, Nat.card_Ico,
    Nat.card_Ico]
  rfl

theorem legal_filter_eq :
    (Finset.range (2 ^ 32)).filter (fun n => (decodeCommand (BitVec.ofNat 32 n)).toBool = true) = legalWords := by
  ext n
  rw [Finset.mem_filter, Finset.mem_range, mem_legalWords_iff]
  refine and_congr_right fun lt => ?_
  rw [toBool_iff_not_rejected, decodeCommand_rejected_iff, BitVec.toNat_ofNat, Nat.mod_eq_of_lt lt]

end Sys2Proof

namespace Sys2Proof.Machine

/-! ### The engine step on a legal and on an illegal word -/

/-- An error outside RUN leaves what `afterError` writes out (60_exceptions.md R283). -/
theorem State.raise_eq_afterError (s : State) (e : ErrorCode) : s.raise e = afterError s e.number := rfl

theorem step_legalWord {s : State} {i : Instr} (moves : s.engineMoves) (busy : s.regs.busy = true)
    (idle : s.regs.running = false) (word : decodeCommand s.regs.cmdreg = .ok i) : step s = exec i s.atTurn := by
  obtain ⟨turn, rst⟩ := moves
  simp only [step, fetch, turn, rst, fetchEngine, State.takeTurn_regs, busy, idle, word]
  rfl

theorem step_illegalWord {s : State} {e : Illegal} (moves : s.engineMoves) (busy : s.regs.busy = true)
    (idle : s.regs.running = false) (word : decodeCommand s.regs.cmdreg = .error e) :
    step s = .next (afterError s.atTurn 0x31#8) := by
  obtain ⟨turn, rst⟩ := moves
  simp only [step, fetch, turn, rst, fetchEngine, State.takeTurn_regs, busy, idle, word]
  rfl

/-- Settles O3: the decoder's rejections are `decodeCommand_rejected_iff`, and the words it accepts are counted as the
set `legalWords`. -/
theorem illegalWordsAreRefused : Obligations.IllegalWordsAreRefused := by
  refine ⟨decodeCommand_rejected_iff, fun s e => step_illegalWord, ?_⟩
  rw [legal_filter_eq, legalWords_card]

/-- Settles O4 by running the decoder on each of the nine words. -/
theorem specWordsDecode : Obligations.SpecWordsDecode := by
  unfold Obligations.SpecWordsDecode
  decide

/-! ### Readiness (R106) -/

/-- The commands that are refused while READY = 0 (R106). -/
def needsReady : Instr → Bool
  | .dinit | .remove | .popul | .xform _ | .mag | .downsS2 _ | .downsS3 _ | .hps | .run => true
  | .nop | .init | .b2f | .ssf | .fnote | .tdir | .push _ | .commit _ => false

theorem exec_of_not_ready {s : State} {i : Instr} (unready : s.regs.ready = false) (needs : needsReady i = true) :
    exec i s = .next (s.raise .cmdNotReady) := by
  cases i with
  | dinit => simp [exec, execDinit, unready]
  | remove => simp [exec, execRemove, unready]
  | popul => simp [exec, execPopul, unready]
  | xform inv => simp [exec, execXform, unready]
  | mag => simp [exec, execMag, unready]
  | downsS2 f => simp [exec, execDownsS2, unready]
  | downsS3 f => simp [exec, execDownsS3, unready]
  | hps => simp [exec, execHps, unready]
  | run => simp [exec, execRun, unready]
  | nop | init | b2f | ssf | fnote | tdir | push | commit => cases needs

theorem exec_of_not_detReady {s : State} {i : Instr} (unready : s.regs.detReady = false)
    (needs : i = .hps ∨ i = .run) : exec i s = .next (s.raise .cmdNotReady) := by
  rcases needs with rfl | rfl
  · simp [exec, execHps, unready]
  · simp [exec, execRun, unready]

theorem ErrorCode.number_eq_notReady_iff (e : ErrorCode) : e.number = 0x32#8 ↔ e = .cmdNotReady := by
  cases e <;> decide

/-- The outcome is not a refusal with CMD_NOTREADY: ERR_CODE is its code only if it was before. -/
def NotUnready (s : State) (o : Host.Outcome State Fault Refusal) : Prop :=
  ∀ t, o = .next t → t.regs.errCode = 0x32#8 → s.regs.errCode = 0x32#8

theorem NotUnready.of_raise {s : State} {e : ErrorCode} (other : e ≠ .cmdNotReady) :
    NotUnready s (.next (s.raise e)) := by
  rintro _ ⟨⟩ code
  exact absurd (e.number_eq_notReady_iff.1 code) other

theorem NotUnready.of_same {s t : State} (same : t.regs.errCode = s.regs.errCode) : NotUnready s (.next t) := by
  rintro _ ⟨⟩ code
  exact same ▸ code

/-- The commands that need nothing (R106). -/
theorem exec_notUnready (s : State) {i : Instr} (free : i ∈ [Instr.nop, .init, .b2f, .ssf, .fnote, .tdir]) :
    NotUnready s (exec i s) := by
  simp only [List.mem_cons, List.not_mem_nil, or_false] at free
  rcases free with rfl | rfl | rfl | rfl | rfl | rfl <;> simp only [exec]
  · exact .of_same rfl
  · unfold execInit
    split
    · exact .of_raise (by decide)
    · split
      · exact .of_raise (by decide)
      · exact .of_same rfl
  · unfold execB2f
    split
    · exact .of_raise (by decide)
    · split
      · exact .of_raise (by decide)
      · exact .of_same rfl
  · exact .of_same rfl
  · unfold execFnote
    split
    · exact .of_raise (by decide)
    · exact .of_same rfl
  · unfold execTdir
    split
    · exact .of_raise (by decide)
    · split
      · exact .of_raise (by decide)
      · exact .of_same rfl

/-- Settles O7: what READY = 0 and DET_READY = 0 refuse, INIT's own refusal, and the commands that need nothing. -/
theorem readinessRequirements : Obligations.ReadinessRequirements := by
  intro s
  refine ⟨fun unready i listed => ?_,
    fun unready f => ⟨exec_of_not_ready unready rfl, exec_of_not_ready unready rfl⟩,
    fun unready i listed => exec_of_not_detReady unready (by simpa using listed),
    fun ready => by simp [exec, execInit, ready, State.raise_eq_afterError, ErrorCode.number],
    fun i free => exec_notUnready s free⟩
  have needs : ∀ i ∈ [Instr.dinit, .remove, .popul, .xform false, .xform true, .mag, .hps, .run],
      needsReady i = true := by decide
  exact exec_of_not_ready unready (needs i listed)

/-! ### Issuing a command (R101, R114) -/

theorem Regs.writeRefused_cmd_iff (r : Regs) (v : BusData) :
    r.writeRefused v (.reg .cmd) = true ↔ r.busy = true ∨ 2 ^ 32 ≤ v.toNat := by
  rw [← BusData.highHalf_ne_zero_iff]
  simp [Regs.writeRefused, HostReg.writable, HostReg.writableWhileBusy]

theorem State.hostWrite_cmd_accepted {s : State} {v : BusData} (idle : s.regs.busy = false)
    (narrow : v.toNat < 2 ^ 32) :
    s.hostWrite 0x05#18 v =
      (s.issue (BitVec.ofNat 32 v.toNat)).respond { err := false, rdata := none } := by
  have accepted : s.regs.writeRefused v (.reg .cmd) = false := by
    rw [← Bool.not_eq_true, Regs.writeRefused_cmd_iff, idle]
    simpa using narrow
  rw [State.hostWrite_reg (r := .cmd) rfl accepted, BitVec.ofNat_toNat]
  rfl

theorem State.hostWrite_cmd_refused {s : State} {v : BusData} (refused : s.regs.busy = true ∨ 2 ^ 32 ≤ v.toNat) :
    s.hostWrite 0x05#18 v = s.respond { err := true, rdata := none } :=
  if_pos ((s.regs.writeRefused_cmd_iff v).2 refused)

/-- Issuing a command leaves the engine's turn as it was. -/
theorem State.engineMoves_issue {s : State} (moves : s.engineMoves) (w : CommandWord) (r : BusResponse) :
    ((s.issue w).respond r).engineMoves := by
  obtain ⟨turn, rst⟩ := moves
  exact ⟨turn, rst⟩

/-- Settles O39: an accepted write is `State.issue`, and the engine's next step finds the word in CMDREG. -/
theorem cmdWriteIssuesCommand : Obligations.CmdWriteIssuesCommand := by
  intro s v
  refine ⟨fun idle narrow => ?_, fun idle narrow stopped moves => ?_, State.hostWrite_cmd_refused⟩
  · rw [State.hostWrite_cmd_accepted idle narrow]
    rfl
  · rw [State.hostWrite_cmd_accepted idle narrow]
    have issued := State.engineMoves_issue moves (BitVec.ofNat 32 v.toNat) { err := false, rdata := none }
    exact ⟨fun i word => step_legalWord issued rfl stopped word,
      fun e word => step_illegalWord issued rfl stopped word⟩

end Sys2Proof.Machine
end

section
/-! The handoff FIFO (40_fifo.md): which beats are accepted, what each beat and REMOVE do, and what any step can do to
the slot and its block. -/

namespace Sys2Proof.Machine

/-! ### The beat that is presented (R131) -/

/-- The operand of a beat is `sext_16(p_data)` (30_encoding.md R110). -/
theorem decodeBeat_of_last {b : BitVec 17} {last : Bool} (bit : b.getLsbD 16 = last) :
    decodeBeat b = if last then .commit (b.setWidth 16).toInt else .push (b.setWidth 16).toInt := by
  rw [decodeBeat_eq, bit, BitVec.setWidth_eq_extractLsb' (by decide)]

theorem State.pReady_push {s : State} (low : s.env.rst = false) :
    s.pReady false = if s.regs.ready then true else s.regs.stop := by
  simp [State.pReady, low]

theorem State.pReady_commit {s : State} (low : s.env.rst = false) :
    s.pReady true = if s.regs.ready then !s.regs.pending || s.regs.stop else s.regs.stop := by
  simp [State.pReady, low]

theorem step_refusedBeat {s : State} {b : BitVec 17} {rest : List (BitVec 17)} (turn : s.nextTurn = .producer)
    (beats : s.env.beats = b :: rest) (refused : s.pReady (b.getLsbD 16) = false) : step s = .next s.atTurn := by
  have refusedAtTurn : s.takeTurn.pReady (b.getLsbD 16) = false := refused
  simp only [step, fetch, turn, fetchProducer, State.takeTurn_env, beats, refusedAtTurn]
  rfl

/-- Settles O6: the two values of p_ready, and the producer's turn on a beat it refuses. -/
theorem refusedBeatStaysPresented : Obligations.RefusedBeatStaysPresented := by
  intro s low
  refine ⟨State.pReady_push low, ?_, fun b rest => step_refusedBeat⟩
  rw [State.pReady_commit low]
  cases s.regs.pending <;> rfl

/-! ### REMOVE (R134, R135) -/

theorem exec_remove_of_pending {s : State} (ready : s.regs.ready = true) (pending : s.regs.pending = true) :
    exec .remove s = .next s.removeBlock.finish := by
  simp [exec, execRemove, ready, pending]

theorem exec_remove_of_empty {s : State} (ready : s.regs.ready = true) (empty : s.regs.pending = false) :
    exec .remove s = .next (if s.regs.stop then (s.setEvent .stopped).finish else s) := by
  cases stop : s.regs.stop <;> simp [exec, execRemove, ready, empty, stop]

/-- The two flags of a cancelled REMOVE are one mask. -/
theorem State.setEvent_stopped_finish (s : State) :
    (s.setEvent .stopped).finish = { s with regs := { s.regs with evt := s.regs.evt ||| 0x009#9, busy := false } } := by
  have mask : s.regs.evt ||| Event.stopped.mask ||| Event.done.mask = s.regs.evt ||| 0x009#9 := BitVec.or_assoc ..
  simp only [State.finish, State.setEvent, mask]

/-- Settles O11: the refusal is that of every command that needs READY, the other three outcomes are REMOVE's own. -/
theorem removeTakesBlockOrWaits : Obligations.RemoveTakesBlockOrWaits := by
  refine ⟨rfl, fun s => ⟨fun unready => ?_, fun ready pending => ?_, fun ready empty stop => ?_,
    fun ready empty stop => ?_⟩⟩
  · exact exec_of_not_ready unready rfl
  · exact ⟨_, exec_remove_of_pending ready pending, rfl, rfl, rfl, rfl, s.removeBlock_blk_read⟩
  · rw [exec_remove_of_empty ready empty, if_pos stop, State.setEvent_stopped_finish]
  · rw [exec_remove_of_empty ready empty, if_neg (by simp [stop])]

/-! ### PUSH (R132) -/

theorem exec_push_refused {s : State} (d : Int) (refused : s.pReady false = false) : exec (.push d) s = .next s := by
  simp [exec, execPush, refused]

theorem exec_push_flushed {s : State} (d : Int) (accepted : s.pReady false = true) (unready : s.regs.ready = false) :
    exec (.push d) s = .next (s.setEvent .pDrop) := by
  simp [exec, execPush, accepted, unready]

theorem exec_push_staged {s : State} (d : Int) (accepted : s.pReady false = true) (ready : s.regs.ready = true) :
    exec (.push d) s = .next ((s.stage d).setWp (min (s.regs.wp.toNat + 1) Config.wpMax)) := by
  simp [exec, execPush, accepted, ready]

/-- `min(WP + 1, 65535)` in the 16 bits of WP: the count sticks at its top value. -/
theorem ofNat_min_succ_wpMax (wp : BitVec 16) :
    BitVec.ofNat 16 (min (wp.toNat + 1) Config.wpMax) = if wp = 0xFFFF#16 then 0xFFFF#16 else wp + 1#16 := by
  have := wp.isLt
  simp only [Config.wpMax]
  split
  · rename_i full
    rw [full]
    rfl
  · bv_omega

/-- Settles O22: an accepted sample is staged by `State.stage`, and `ofNat_min_succ_wpMax` is its count. -/
theorem pushStagesSample : Obligations.PushStagesSample := by
  refine ⟨fun b => decodeBeat_of_last, fun s d => ⟨exec_push_refused d, exec_push_flushed d, fun low ready => ?_⟩⟩
  have accepted : s.pReady false = true := by rw [State.pReady_push low, if_pos ready]
  refine ⟨_, exec_push_staged d accepted ready, ?_, ?_, ?_, ?_, fun room i => ?_, fun full => ?_⟩
  · rw [State.setWp_regs, State.stage_regs, ofNat_min_succ_wpMax]
  · simp
  · simp
  · simp
  · rw [State.setWp_mems, State.stage_stg_read]
    exact if_congr (and_iff_left_of_imp fun here => here.trans_lt room) rfl rfl
  · simp [Nat.not_lt.2 full]

/-! ### COMMIT (R133) -/

theorem exec_commit_refused {s : State} (d : Int) (refused : s.pReady true = false) :
    exec (.commit d) s = .next s := by
  simp [exec, execCommit, refused]

theorem exec_commit_flushed {s : State} (d : Int) (accepted : s.pReady true = true) (unready : s.regs.ready = false) :
    exec (.commit d) s = .next ((s.setEvent .pDrop).setWp 0) := by
  simp [exec, execCommit, accepted, unready]

theorem exec_commit_wrongLength {s : State} (d : Int) (accepted : s.pReady true = true) (ready : s.regs.ready = true)
    (len : s.regs.wp.toNat + 1 ≠ s.regs.n) : exec (.commit d) s = .next ((s.stage d).lengthError.setWp 0) := by
  simp [exec, execCommit, accepted, ready, len]

theorem exec_commit_discarded {s : State} (d : Int) (accepted : s.pReady true = true) (ready : s.regs.ready = true)
    (len : s.regs.wp.toNat + 1 = s.regs.n) (pending : s.regs.pending = true) :
    exec (.commit d) s = .next (((s.stage d).setEvent .pDrop).setWp 0) := by
  simp [exec, execCommit, accepted, ready, len, pending]

theorem exec_commit_inserted {s : State} (d : Int) (accepted : s.pReady true = true) (ready : s.regs.ready = true)
    (len : s.regs.wp.toNat + 1 = s.regs.n) (empty : s.regs.pending = false) :
    exec (.commit d) s = .next ((s.stage d).insertBlock.setWp 0) := by
  simp [exec, execCommit, accepted, ready, len, empty]

/-- The block that is inserted is the staged one, the last sample included. -/
theorem State.stage_insertBlock_slot_filled (s : State) (d : Int) :
    (s.stage d).insertBlock.mems.slot.Filled s.mems.slot s.regs.n (s.stage d).mems.stg.read := by
  intro i
  rw [State.insertBlock_slot_read, State.stage_regs, State.stage_mems]

/-- Settles O23: the five outcomes of COMMIT, each with its frame; `State.stage_stg_read` gives the staged words. -/
theorem commitInsertsBlock : Obligations.CommitInsertsBlock := by
  refine ⟨fun b => decodeBeat_of_last, fun s d => ?_⟩
  intro n staged
  have stagedWords : (s.stage d).mems.stg.read = staged := funext (s.stage_stg_read d)
  refine ⟨exec_commit_refused d, exec_commit_flushed d, fun accepted ready len => ?_,
    fun accepted ready len pending => ?_, fun low ready len empty => ?_⟩
  · exact ⟨_, exec_commit_wrongLength d accepted ready len, by simp [Event.mask, Event.bit], by simp, by simp, by simp,
      congrFun stagedWords⟩
  · exact ⟨_, exec_commit_discarded d accepted ready len pending, by simp [Event.mask, Event.bit], by simp, by simp,
      by simp, congrFun stagedWords⟩
  · have accepted : s.pReady true = true := by simp [State.pReady_commit low, ready, empty]
    exact ⟨_, exec_commit_inserted d accepted ready len empty, by simp [Regs.n, n], by simp, by simp, by simp,
      congrFun stagedWords, stagedWords ▸ s.stage_insertBlock_slot_filled d⟩

/-! ### What a step can do to the slot -/

/-- What the buffer is: its capacity, which READY and POWER give, and the slot with its block (R130). -/
structure Fifo where
  ready : Bool
  power : BitVec 4
  pending : Bool
  slotLen : BitVec 16
  slot : Memory Config.sampleW

/-- The buffer as the registers and SLOT hold it. -/
def State.fifo (s : State) : Fifo where
  ready := s.regs.ready
  power := s.regs.power
  pending := s.regs.pending
  slotLen := s.regs.slotLen
  slot := s.mems.slot

/-- `Regs.FifoOk`, of the buffer alone (`State.fifoOk_iff`). -/
def Fifo.Ok (f : Fifo) : Prop := f.pending = true → f.ready = true ∧ f.slotLen.toNat = 2 ^ f.power.toNat

theorem State.fifoOk_iff (s : State) : s.regs.FifoOk ↔ s.fifo.Ok := Iff.rfl

/-- The capacity 2^15 still fits the 16 bits of SLOT_LEN. -/
theorem toNat_ofNat_capacity (p : BitVec 4) : (BitVec.ofNat 16 (2 ^ p.toNat)).toNat = 2 ^ p.toNat :=
  Nat.mod_eq_of_lt (Nat.pow_lt_pow_right (by decide) p.isLt)

/-- What can happen to the buffer in one step. -/
inductive FifoCase (f g : Fifo) : Prop where
  | same (eq : g = f)
  | built (p : BitVec 4) (unready : f.ready = false) (eq : g = { f with ready := true, power := p })
  | inserted (block : Memory Config.sampleW) (ready : f.ready = true) (empty : f.pending = false)
      (eq : g = { f with pending := true, slotLen := BitVec.ofNat 16 (2 ^ f.power.toNat), slot := block })
  | removed (pending : f.pending = true) (eq : g = { f with pending := false })
  | reset (contents : Memory Config.sampleW)
      (eq : g = { ready := false, power := 0#4, pending := false, slotLen := 0#16, slot := contents })

namespace FifoCase
variable {s t : State} {f g : Fifo}

theorem of_command {i : Instr} (c : CommandCase i s t) : FifoCase s.fifo t.fifo := by
  cases c with
  | init p _ unready _ _ eq => exact eq ▸ .built (BitVec.ofNat 4 p) unready rfl
  | removed _ _ pending eq => exact eq ▸ .removed pending rfl
  | xform inv _ _ eq => exact eq ▸ .same (by simp [State.fifo])
  | error _ eq | nop _ eq | dinit _ _ _ eq | cancelled _ _ _ _ eq | blocked _ _ _ _ eq | popul _ _ _ eq
  | mag _ _ eq | downsS2 _ _ _ _ eq | downsS3 _ _ _ _ eq | hps _ _ _ eq | results _ _ _ eq | run _ _ _ eq =>
    exact eq ▸ .same rfl

/-- Of the beats only a COMMIT that finds the slot empty reaches it. -/
theorem of_beat (c : BeatCase s t) : FifoCase s.fifo t.fifo := by
  cases c with
  | inserted d ready _ empty eq =>
    exact eq ▸ .inserted (s.stage d).insertBlock.mems.slot ready empty (by simp [State.fifo, Regs.n])
  | refused eq | flushedPush _ eq | flushedCommit _ eq => exact eq ▸ .same rfl
  | pushed d _ eq | wrongLength d _ _ eq | discarded d _ _ _ eq => exact eq ▸ .same (by simp [State.fifo])

theorem of_phase (c : PhaseCase s t) : FifoCase s.fifo t.fifo := by
  cases c with
  | remove _ _ pending eq => exact eq ▸ .removed pending rfl
  | transform _ _ eq => exact eq ▸ .same (by simp [State.fifo])
  | emit _ eq => exact eq ▸ .same (by simp [State.fifo, phaseEmit])
  | exit _ _ eq | top _ _ eq | blocked _ _ _ eq | badLength _ _ eq | populate _ _ _ eq | magnitude _ _ eq
  | downsampleS2 _ _ eq | downsampleS3 _ _ eq | fundamental _ _ eq | freqA _ eq | freqB _ eq | accept _ _ eq
  | discard _ _ eq => exact eq ▸ .same rfl

theorem of_registerWrite {v : BusData} (w : RegisterWrite v s.regs t.regs) (slot : t.mems.slot = s.mems.slot) :
    FifoCase s.fifo t.fifo := by
  cases w with
  | reset _ eq => exact .reset t.mems.slot (by simp [State.fifo, eq, Regs.reset])
  | stop _ eq | clear eq | enable eq | issue _ eq | pwrCfg _ eq | sampleRate _ eq | minHz _ eq | maxHz _ eq
  | thresh _ eq | epsilon _ eq | args _ _ _ _ eq | blkLen _ eq => exact .same (by simp [State.fifo, eq, slot])

theorem of_access (c : AccessCase s t) : FifoCase s.fifo t.fifo := by
  cases c with
  | response r eq => exact eq ▸ .same rfl
  | register r v ok eq =>
    subst eq
    exact of_registerWrite (writeReg_cases ok) (by simp)
  | word w i v _ _ eq => exact eq ▸ .same (by simp [State.fifo])

theorem of_rstFall (s : State) (c : Mems) : FifoCase s.fifo (s.rstFall c).fifo := by
  unfold State.rstFall
  split
  · exact .reset c.slot rfl
  · exact .same rfl

/-- One step builds the buffer, fills or empties its slot, resets it, or leaves it. Taking the turn and dropping the
beat do not touch the buffer. -/
theorem of_step (h : step s = .next t) : FifoCase s.fifo t.fifo := by
  cases step_cases h with
  | enginePasses _ _ eq | producerPasses _ eq | hostPasses _ eq | rstRise _ eq | illegal _ _ _ _ _ _ eq =>
    exact eq ▸ .same rfl
  | phase _ _ _ _ eq => exact of_phase (s := s.takeTurn) (runPhase_cases eq)
  | command _ _ _ _ i word eq =>
    exact of_command (s := s.takeTurn) (exec_command_cases (decodeCommand_isCommand word) eq)
  | beat _ b _ _ _ eq => exact of_beat (s := s.takeTurn.dropBeat) (exec_beat_cases eq)
  | access _ _ r rest _ eq =>
    have access := of_access (hostAccess_cases { s.takeTurn with env := { s.takeTurn.env with hostQ := rest } } r)
    exact eq ▸ access
  | rstFall c _ eq => exact eq ▸ of_rstFall s.takeTurn c

/-- An insert finds the slot empty, a removal and a reset leave it empty; every other case leaves its block alone. -/
theorem pendingBlock_eq (c : FifoCase f g) (before : f.pending = true) (after : g.pending = true) :
    g.slot = f.slot ∧ g.slotLen = f.slotLen := by
  cases c with
  | same eq | built _ _ eq => exact eq ▸ ⟨rfl, rfl⟩
  | inserted _ _ empty _ => simp [before] at empty
  | removed _ eq | reset _ eq => simp [eq] at after

theorem keeps_ok (c : FifoCase f g) (ok : f.Ok) : g.Ok := by
  cases c with
  | same eq => exact eq ▸ ok
  | built p unready eq =>
    subst eq
    exact fun pending => absurd (ok pending).1 (by simp [unready])
  | inserted _ ready _ eq =>
    subst eq
    exact fun _ => ⟨ready, toNat_ofNat_capacity f.power⟩
  | removed _ eq | reset _ eq =>
    subst eq
    exact fun pending => by cases pending

end FifoCase

/-- Settles O24: while a block stays pending, none of the cases of a step touches SLOT or SLOT_LEN. -/
theorem pendingBlockStaysIntact : Obligations.PendingBlockStaysIntact :=
  fun _ _ step => (FifoCase.of_step step).pendingBlock_eq

/-- Settles O50: N is bound while the slot is empty, and a block is inserted with the length N. -/
theorem stepKeepsFifoOk : Obligations.StepKeepsFifoOk :=
  fun s t ok step => t.fifoOk_iff.2 ((FifoCase.of_step step).keeps_ok (s.fifoOk_iff.1 ok))

end Sys2Proof.Machine
end

section
/-! The commands of the FFT family (41_fft.md): INIT, POPUL, MAG, DOWNS and B2F, each an outcome per check and then the
words that its array operation leaves. -/

namespace Sys2Proof.Machine

/-! ### INIT (R152) -/

theorem exec_init_of_ready {s : State} (ready : s.regs.ready = true) : exec .init s = .next (s.raise .cmdReinit) := by
  simp [exec, execInit, ready]

theorem exec_init_of_badPower {s : State} (unready : s.regs.ready = false)
    (bad : s.regs.pwrSigned < 0 ∨ 15 < s.regs.pwrSigned) : exec .init s = .next (s.raise .cfgPower) := by
  simp [exec, execInit, unready, bad]

theorem exec_init_of_power {s : State} {p : Nat} (unready : s.regs.ready = false)
    (power : s.regs.pwrSigned = (p : Int)) (le : p ≤ 15) : exec .init s = .next (s.construct p).finish := by
  have valid : ¬ ((p : Int) < 0 ∨ (Config.pMax : Nat) < (p : Int)) := by simp only [Config.pMax]; omega
  simp only [exec, execInit, unready, power, if_neg valid, Bool.false_eq_true, if_false, Int.toNat_natCast]

theorem Memory.filled_fill {w : Nat} (m : Memory w) (n : Nat) (f : Nat → BitVec w) : (m.fill n f).Filled m n f :=
  fun i => m.read_fill n i f

/-- Settles O9: both refusals, and then every memory that INIT writes is an array write. -/
theorem initBindsOrRefuses : Obligations.InitBindsOrRefuses := by
  refine ⟨rfl, fun s => ⟨exec_init_of_ready, exec_init_of_badPower, fun p unready power le => ?_⟩⟩
  refine ⟨_, exec_init_of_power unready power le, rfl, rfl, rfl, rfl, rfl, ?_⟩
  simp only [State.finish_mems, State.construct]
  refine ⟨?_, ?_, ?_, ?_, ?_, ?_, ?_, ?_⟩ <;> exact Memory.filled_fill _ _ _

/-! ### POPUL (R158) -/

theorem exec_popul_of_badLength {s : State} (ready : s.regs.ready = true) (len : s.regs.blkLen.toNat ≠ s.regs.n) :
    exec .popul s = .next (s.raise .argLen) := by
  simp [exec, execPopul, ready, len]

theorem exec_popul_of_length {s : State} (ready : s.regs.ready = true) (len : s.regs.blkLen.toNat = s.regs.n) :
    exec .popul s = .next s.populate.finish := by
  simp [exec, execPopul, ready, len]

/-- A sample times 65536 lies in the range of Q31.16: RE holds it exactly. -/
theorem State.populate_re_toInt (s : State) {i : Nat} (below : i < s.regs.n) :
    (s.populate.mems.re.read i).toInt = (s.mems.blk.read i).toInt * 65536 := by
  obtain ⟨low, high⟩ := Sample.toInt_range (s.mems.blk.read i)
  rw [State.populate_re_read, if_pos below]
  exact toInt_ofInt_dataW _ (by simp only [Mems.blkAt, Config.one]; omega)
    (by simp only [Mems.blkAt, Config.one]; omega)

/-- Settles O12: both refusals, and then the words that `State.populate` leaves. -/
theorem populLoadsBlock : Obligations.PopulLoadsBlock := by
  refine ⟨rfl, fun s => ⟨fun unready => exec_of_not_ready unready rfl, exec_popul_of_badLength, fun ready len => ?_⟩⟩
  refine ⟨_, exec_popul_of_length ready len, rfl, rfl, rfl, rfl, fun i below => ⟨s.populate_re_toInt below, ?_⟩,
    fun i above => ⟨?_, ?_⟩⟩
  · exact (s.populate_im_read i).trans (if_pos below)
  · exact (s.populate_re_read i).trans (if_neg (Nat.not_lt.2 above))
  · exact (s.populate_im_read i).trans (if_neg (Nat.not_lt.2 above))

/-! ### MAG (R170) -/

theorem exec_mag_of_ready {s : State} (ready : s.regs.ready = true) :
    exec .mag s = .next s.magnitude.finish := by
  simp [exec, execMag, ready]

/-- The square of a word of RE or IM is at most 2^94. -/
theorem SeriesWord.sq_toInt_le (x : SeriesWord) : x.toInt ^ 2 ≤ 2 ^ 94 := by
  obtain ⟨low, high⟩ := x.toInt_range
  nlinarith

/-- The root of two squares of 48-bit words fits the 48 bits of a spectrum word. -/
theorem Mems.magnitudeAt_lt (ms : Mems) (i : Nat) : ms.magnitudeAt i < 2 ^ 48 := by
  have re := SeriesWord.sq_toInt_le (ms.re.read i)
  have im := SeriesWord.sq_toInt_le (ms.im.read i)
  rw [Mems.magnitudeAt, isqrt_eq_sqrt, Nat.sqrt_lt, Int.toNat_lt' (by norm_num)]
  simp only [Mems.reAt, Mems.imAt]
  push_cast
  nlinarith

/-- MAG stores the floor square root of the exact sum, without truncation. -/
theorem State.magnitude_s1_toNat (s : State) {i : Nat} (below : i < s.regs.h) :
    (s.magnitude.mems.s1.read i).toNat =
      Nat.sqrt ((s.mems.re.read i).toInt ^ 2 + (s.mems.im.read i).toInt ^ 2).toNat := by
  rw [State.magnitude_s1_read, if_pos below, toNat_ofNat_specW _ (s.mems.magnitudeAt_lt i), Mems.magnitudeAt,
    isqrt_eq_sqrt, Mems.reAt, Mems.imAt, pow_two, pow_two]

/-- MAG's two flags are one mask. -/
theorem State.magnitude_finish_regs (s : State) :
    s.magnitude.finish.regs =
      { s.regs with specSeq := s.regs.specSeq + 1#32, evt := s.regs.evt ||| 0x101#9, busy := false } := by
  have mask : s.regs.evt ||| Event.spectrum.mask ||| Event.done.mask = s.regs.evt ||| 0x101#9 := BitVec.or_assoc ..
  simp only [State.finish_regs, State.magnitude_regs, mask]

/-- Settles O14: the words that `State.magnitude` leaves. -/
theorem magWritesMagnitudes : Obligations.MagWritesMagnitudes := by
  refine ⟨rfl, fun s => ⟨fun unready => exec_of_not_ready unready rfl, fun ready => ?_⟩⟩
  exact ⟨_, exec_mag_of_ready ready, s.magnitude_finish_regs, rfl, rfl, rfl, fun i => s.magnitude_s1_toNat,
    fun i above => (s.magnitude_s1_read i).trans (if_neg (Nat.not_lt.2 above))⟩

/-! ### DOWNS (R173, R174) -/

/-- A word of format D as an integer: the opcode, the destination and `zext_16(factor)` (30_encoding.md R104). -/
theorem encodeD_eq_ofInt (op dst : BitVec 8) (f : Int) :
    encodeD op dst f = .command (BitVec.ofInt 32 (op.toNat * 2 ^ 24 + dst.toNat * 2 ^ 16 + f % 65536)) := by
  have opLt := op.isLt
  have dstLt := dst.isLt
  refine congrArg Encoding.command (BitVec.eq_of_toNat_eq ?_)
  rw [toNat_append_eq, toNat_append_eq, BitVec.toNat_ofInt, BitVec.toNat_ofInt]
  omega

theorem exec_downs_of_badFactor {s : State} {f : Int} (ready : s.regs.ready = true) (bad : f ≤ 0) :
    exec (.downsS2 f) s = .next (s.raise .cfgFactor) ∧ exec (.downsS3 f) s = .next (s.raise .cfgFactor) := by
  simp [exec, execDownsS2, execDownsS3, ready, bad]

theorem exec_downs_of_factor {s : State} {f : Int} (ready : s.regs.ready = true) (pos : 0 < f) :
    exec (.downsS2 f) s = .next (s.downsampleS2 f.toNat).finish ∧
      exec (.downsS3 f) s = .next (s.downsampleS3 f.toNat).finish := by
  simp [exec, execDownsS2, execDownsS3, ready, Int.not_le.2 pos]

/-- The mean of `f` values below a bound lies below the bound. -/
theorem sum_div_lt {g : Nat → Nat} {bound f : Nat} (lt : ∀ j, g j < bound) (pos : 0 < f) :
    (∑ j ∈ Finset.range f, g j) / f < bound := by
  rw [Nat.div_lt_iff_lt_mul pos]
  calc ∑ j ∈ Finset.range f, g j < ∑ _j ∈ Finset.range f, bound :=
        Finset.sum_lt_sum_of_nonempty (by simpa using pos.ne') (fun j _ => lt j)
    _ = bound * f := by simp [Nat.mul_comm]

/-- Each word of the downsampled copy holds its mean, or the neutral value, without truncation. -/
theorem State.downsampledAt_toNat (s : State) {f : Nat} (pos : 0 < f) (i : Nat) :
    (s.downsampledAt f i).toNat =
      if i < s.regs.h / f then (∑ j ∈ Finset.range f, (s.mems.s1.read (i * f + j)).toNat) / f else 65536 := by
  have fits : (if i < s.regs.h / f then (∑ j ∈ Finset.range f, (s.mems.s1.read (i * f + j)).toNat) / f else 65536)
      < 281474976710656 := by
    split
    · exact sum_div_lt (fun j => SpectrumWord.toNat_lt (s.mems.s1.read (i * f + j))) pos
    · norm_num
  exact toNat_ofNat_specW (downsampleAt s.mems.s1At s.regs.h f i) fits

/-- Settles O15: the word, both refusals, and then the words of the destination. -/
theorem downsWritesMeans : Obligations.DownsWritesMeans := by
  refine ⟨fun f _ _ => ⟨encodeD_eq_ofInt 0x14#8 0x02#8 f, encodeD_eq_ofInt 0x14#8 0x03#8 f⟩, fun s f => ?_⟩
  refine ⟨fun unready => ⟨exec_of_not_ready unready rfl, exec_of_not_ready unready rfl⟩, exec_downs_of_badFactor,
    fun ready pos => ⟨?_, ?_⟩⟩
  · refine ⟨_, (exec_downs_of_factor ready pos).1, rfl, rfl, rfl, rfl, fun i below => ?_, fun i above => ?_⟩
    · rw [State.finish_mems, (s.downsampleS2_s2_read _ i).trans (if_pos below), s.downsampledAt_toNat (by omega)]
      rfl
    · exact (s.downsampleS2_s2_read _ i).trans (if_neg (Nat.not_lt.2 above))
  · refine ⟨_, (exec_downs_of_factor ready pos).2, rfl, rfl, rfl, rfl, fun i below => ?_, fun i above => ?_⟩
    · rw [State.finish_mems, (s.downsampleS3_s3_read _ i).trans (if_pos below), s.downsampledAt_toNat (by omega)]
      rfl
    · exact (s.downsampleS3_s3_read _ i).trans (if_neg (Nat.not_lt.2 above))

/-! ### B2F (R172) -/

/-- Settles O17: the two guards in their order, and RES0 written when neither holds. -/
theorem b2fConvertsIndex : Obligations.B2fConvertsIndex := by
  have zero_iff : ∀ x : BitVec 32, x.toNat = 0 ↔ x = 0#32 := fun x => by simp [BitVec.toNat_eq]
  refine ⟨rfl, fun s => ⟨fun zero => ?_, fun nonzero large => ?_, fun nonzero small => ?_⟩⟩
  · exact if_pos ((zero_iff _).2 zero)
  · exact (if_neg (mt (zero_iff _).1 nonzero)).trans (if_pos large)
  · exact (if_neg (mt (zero_iff _).1 nonzero)).trans (if_neg (Nat.not_le.2 small))

end Sys2Proof.Machine
end

section
/-! The schedule of a transform for any butterfly (41_fft.md R163, R165): the bit reversal, what one stage does to every
pair, what the stages keep, and that the final permutation reads the series through BRT. -/

namespace Sys2Proof.Machine

/-! ### The bit reversal (00_scope.md R14, R153, R154) -/

/-- Bit p - 1 - b of the reversal is bit b of the index (00_scope.md R14). -/
theorem testBit_bitrev {p b : Nat} (i : Nat) (lt : b < p) : (bitrev p i).testBit (p - 1 - b) = i.testBit b := by
  induction p generalizing i b with
  | zero => omega
  | succ p ih =>
    rw [bitrev, Nat.mul_comm, Nat.testBit_two_pow_mul_add _ (bitrev_lt p (i / 2))]
    cases b with
    | zero => simp
    | succ b =>
      rw [if_pos (by omega), Nat.testBit_succ, ← ih (i / 2) (by omega : b < p)]
      congr 1
      omega

/-- Reversing twice gives the index back (R154). -/
theorem bitrev_bitrev {p i : Nat} (lt : i < 2 ^ p) : bitrev p (bitrev p i) = i := by
  refine Nat.eq_of_testBit_eq fun b => ?_
  by_cases inside : b < p
  · have twice : p - 1 - (p - 1 - b) = b := by omega
    have outer := testBit_bitrev (bitrev p i) (show p - 1 - b < p by omega)
    rw [twice] at outer
    rw [outer, testBit_bitrev i inside]
  · have pow : 2 ^ p ≤ 2 ^ b := Nat.pow_le_pow_right (by omega) (by omega)
    rw [Nat.testBit_lt_two_pow ((bitrev_lt p _).trans_le pow), Nat.testBit_lt_two_pow (lt.trans_le pow)]

/-- Settles O56: the involution, and from it that no two indices share a value. -/
theorem bitReversalIsInvolution : Obligations.BitReversalIsInvolution := by
  refine fun p i lt => ⟨bitrev_lt p i, bitrev_bitrev lt, fun b => testBit_bitrev i, fun j ltj same => ?_⟩
  rw [← bitrev_bitrev ltj, same, bitrev_bitrev lt]

/-- The reversal with one bit `e` more at the low end of the index. -/
theorem bitrev_two_mul_add (q u : Nat) {e : Nat} (bit : e < 2) :
    bitrev (q + 1) (2 * u + e) = e * 2 ^ q + bitrev q u := by
  rw [bitrev, show (2 * u + e) % 2 = e by omega, show (2 * u + e) / 2 = u by omega]

/-- A leading zero bit of the index becomes a trailing zero bit of its reversal. -/
theorem bitrev_succ_of_lt {p i : Nat} (lt : i < 2 ^ p) : bitrev (p + 1) i = 2 * bitrev p i := by
  induction p generalizing i with
  | zero => simp [bitrev, show i = 0 by omega]
  | succ p ih =>
    rw [bitrev, ih (by omega : i / 2 < 2 ^ p), bitrev, pow_succ]
    ring

/-- With `s` leading zero bits the reversal ends in `s` zero bits. -/
theorem bitrev_add_of_lt {q i : Nat} (s : Nat) (lt : i < 2 ^ q) : bitrev (q + s) i = 2 ^ s * bitrev q i := by
  induction s with
  | zero => simp
  | succ s ih =>
    have wide : i < 2 ^ (q + s) := lt.trans_le (Nat.pow_le_pow_right (by omega) (by omega))
    rw [← Nat.add_assoc, bitrev_succ_of_lt wide, ih, pow_succ]
    ring

/-- The entry of BRT that selects the twiddle of group `2 u` in the stage with that shift (R163). -/
theorem bitrev_add_two_mul {q u : Nat} (shift : Nat) (lt : u < 2 ^ q) :
    bitrev (shift + (q + 1)) (2 * u) = 2 ^ shift * bitrev q u := by
  have even := bitrev_two_mul_add (q + shift) u (e := 0) (by omega)
  rw [Nat.add_zero, Nat.zero_mul, Nat.zero_add, bitrev_add_of_lt shift lt] at even
  rw [← even]
  congr 1
  omega

/-! ### The pairs of a stage (R163) -/

/-- `k` lies in the lower half of its group: bit `shift` of it is 0 (R163). -/
def InLowerHalf (shift k : Nat) : Prop := k / 2 ^ shift % 2 = 0

theorem lowerIndices_succ_of_lower {m shift : Nat} (lower : InLowerHalf shift m) :
    lowerIndices (m + 1) shift = lowerIndices m shift ++ [m] := by
  simp [lowerIndices, List.range_succ, show m / 2 ^ shift % 2 = 0 from lower]

theorem lowerIndices_succ_of_upper {m shift : Nat} (upper : ¬ InLowerHalf shift m) :
    lowerIndices (m + 1) shift = lowerIndices m shift := by
  simp [lowerIndices, List.range_succ, show m / 2 ^ shift % 2 ≠ 0 from upper]

theorem not_inLowerHalf_add {shift k : Nat} (lower : InLowerHalf shift k) : ¬ InLowerHalf shift (k + 2 ^ shift) := by
  unfold InLowerHalf at *
  rw [Nat.add_div_right _ (by positivity)]
  omega

theorem inLowerHalf_sub {shift k : Nat} (upper : ¬ InLowerHalf shift k) :
    2 ^ shift ≤ k ∧ InLowerHalf shift (k - 2 ^ shift) := by
  unfold InLowerHalf at *
  have le : 2 ^ shift ≤ k := by
    by_contra lt
    exact upper (by rw [Nat.div_eq_of_lt (Nat.not_le.1 lt)])
  refine ⟨le, ?_⟩
  have := Nat.add_div_right (k - 2 ^ shift) (show 0 < 2 ^ shift by positivity)
  rw [Nat.sub_add_cancel le] at this
  omega

/-- Both members of a pair lie inside the series. -/
theorem pair_lt {p shift k : Nat} (inside : shift < p) (lt : k < 2 ^ p) (lower : InLowerHalf shift k) :
    k + 2 ^ shift < 2 ^ p := by
  obtain ⟨d, rfl⟩ := Nat.exists_eq_add_of_lt inside
  have size : 2 ^ (shift + d + 1) = 2 ^ shift * (2 * 2 ^ d) := by ring
  have group : k / 2 ^ shift < 2 * 2 ^ d := Nat.div_lt_of_lt_mul (size ▸ lt)
  have next : k / 2 ^ shift + 2 ≤ 2 * 2 ^ d := by unfold InLowerHalf at lower; omega
  calc k + 2 ^ shift < 2 ^ shift * (k / 2 ^ shift + 1) + 2 ^ shift := by
        have := Nat.lt_mul_div_succ k (show 0 < 2 ^ shift by positivity)
        omega
    _ = 2 ^ shift * (k / 2 ^ shift + 2) := by ring
    _ ≤ 2 ^ (shift + d + 1) := size ▸ Nat.mul_le_mul_left _ next

/-- Every index is in a pair, at the one place or at the other. -/
theorem exists_pair {p shift i : Nat} (lt : i < 2 ^ p) :
    ∃ k < 2 ^ p, InLowerHalf shift k ∧ (i = k ∨ i = k + 2 ^ shift) := by
  by_cases lower : InLowerHalf shift i
  · exact ⟨i, lt, lower, .inl rfl⟩
  · obtain ⟨le, low⟩ := inLowerHalf_sub lower
    exact ⟨i - 2 ^ shift, (Nat.sub_le ..).trans_lt lt, low, .inr (Nat.sub_add_cancel le).symm⟩

/-! ### One stage -/

section
variable {α : Type} [Inhabited α]

theorem getD_set_default (x : List α) (a i : Nat) (v : α) (lt : a < x.length) :
    (x.set a v).getD i default = if i = a then v else x.getD i default := by
  simp only [List.getD_eq_getElem?_getD, List.getElem?_set, lt, if_true, eq_comm (a := a)]
  split <;> rfl

/-- What a butterfly in place leaves at each index. -/
theorem getD_applyPair (bf : Butterfly α) {a b : Nat} (x : Series α) (ha : a < x.1.length) (hb : b < x.1.length)
    (i : Nat) :
    (applyPair bf a b x).1.getD i default =
      if i = a then (bf (x.1.getD a default) (x.1.getD b default)).1.1
      else if i = b then (bf (x.1.getD a default) (x.1.getD b default)).1.2 else x.1.getD i default := by
  rw [applyPair, getD_set_default _ _ _ _ (by simpa using ha), getD_set_default _ _ _ _ hb]

@[simp] theorem length_applyPair (bf : Butterfly α) (a b : Nat) (x : Series α) :
    (applyPair bf a b x).1.length = x.1.length := by simp [applyPair]

/-- The two elements at `k` and `k + 2^shift`. -/
def pairAt (shift : Nat) (x : List α) (k : Nat) : α × α := (x.getD k default, x.getD (k + 2 ^ shift) default)

/-- What the butterfly of a stage answers of the pair at `k`. -/
def stagePair (bf : Nat → Butterfly α) (brt : Nat → Nat) (shift : Nat) (x : List α) (k : Nat) : (α × α) × Bool :=
  bf (brt (k / 2 ^ shift)) (pairAt shift x k).1 (pairAt shift x k).2

/-- The series `y` when a stage on `x`, with the overflow `ovf` before it, has handled the pairs below `m`. -/
structure StageDone (bf : Nat → Butterfly α) (brt : Nat → Nat) (shift m : Nat) (x : List α) (ovf : Bool)
    (y : Series α) : Prop where
  length : y.1.length = x.length
  pair : ∀ k, InLowerHalf shift k → k + 2 ^ shift < x.length →
    pairAt shift y.1 k = if k < m then (stagePair bf brt shift x k).1 else pairAt shift x k
  overflow : y.2 = true ↔ ovf = true ∨ ∃ k < m, InLowerHalf shift k ∧ (stagePair bf brt shift x k).2 = true

variable {bf : Nat → Butterfly α} {brt : Nat → Nat} {shift m : Nat} {x : List α} {ovf : Bool} {y : Series α}

/-- A butterfly on the pair at `m` leaves every other pair as it was. -/
theorem pairAt_applyPair (f : Butterfly α) {k : Nat} (hm : InLowerHalf shift m) (hk : InLowerHalf shift k)
    (inside : m + 2 ^ shift < y.1.length) :
    pairAt shift (applyPair f m (m + 2 ^ shift) y).1 k =
      if k = m then (f (pairAt shift y.1 m).1 (pairAt shift y.1 m).2).1 else pairAt shift y.1 k := by
  have upperm := not_inLowerHalf_add hm
  have upperk := not_inLowerHalf_add hk
  have cross : k ≠ m + 2 ^ shift := fun same => upperm (same ▸ hk)
  have cross' : k + 2 ^ shift ≠ m := fun same => upperk (same ▸ hm)
  have low : m < y.1.length := (Nat.le_add_right ..).trans_lt inside
  rw [pairAt, getD_applyPair f y low inside, getD_applyPair f y low inside, if_neg cross, if_neg cross']
  by_cases same : k = m
  · rw [if_pos same, if_pos (by rw [same]), if_pos same]
    rfl
  · rw [if_neg same, if_neg (by omega), if_neg same]
    rfl

theorem StageDone.zero : StageDone bf brt shift 0 x ovf (x, ovf) :=
  ⟨rfl, fun k _ _ => by simp, by simp⟩

theorem StageDone.skip (done : StageDone bf brt shift m x ovf y) (upper : ¬ InLowerHalf shift m) :
    StageDone bf brt shift (m + 1) x ovf y := by
  have same : ∀ k, InLowerHalf shift k → (k < m + 1 ↔ k < m) := fun k lower => by
    have : k ≠ m := fun eq => upper (eq ▸ lower)
    omega
  refine ⟨done.length, fun k lower lt => ?_, done.overflow.trans (or_congr_right (exists_congr fun k => ?_))⟩
  · simp only [done.pair k lower lt, same k lower]
  · exact and_congr_left fun ⟨lower, _⟩ => (same k lower).symm

theorem StageDone.apply (done : StageDone bf brt shift m x ovf y) (lower : InLowerHalf shift m)
    (inside : m + 2 ^ shift < x.length) :
    StageDone bf brt shift (m + 1) x ovf (applyPair (bf (brt (m / 2 ^ shift))) m (m + 2 ^ shift) y) := by
  have old : pairAt shift y.1 m = pairAt shift x m := by simpa using done.pair m lower inside
  refine ⟨(length_applyPair ..).trans done.length, fun k lowerk lt => ?_, ?_⟩
  · rw [pairAt_applyPair _ lower lowerk (done.length ▸ inside), old, done.pair k lowerk lt]
    by_cases same : k = m
    · simp [same, stagePair]
    · simp only [if_neg same, show k < m + 1 ↔ k < m by omega]
  · have flag : (applyPair (bf (brt (m / 2 ^ shift))) m (m + 2 ^ shift) y).2 =
        (y.2 || (stagePair bf brt shift x m).2) := by rw [stagePair, ← old]; rfl
    rw [flag, Bool.or_eq_true, done.overflow, or_assoc]
    refine or_congr_right ⟨?_, ?_⟩
    · rintro (⟨k, lt, rest⟩ | set)
      · exact ⟨k, by omega, rest⟩
      · exact ⟨m, by omega, lower, set⟩
    · rintro ⟨k, lt, lowerk, set⟩
      by_cases same : k = m
      · exact .inr (same ▸ set)
      · exact .inl ⟨k, by omega, lowerk, set⟩

/-- A stage handles every pair once, from the values before the stage (R163). -/
theorem runStage_done (bf : Nat → Butterfly α) (brt : Nat → Nat) {p shift : Nat} {x : List α} (ovf : Bool)
    (length : x.length = 2 ^ p) (inside : shift < p) :
    StageDone bf brt shift (2 ^ p) x ovf (runStage bf brt (2 ^ p) shift (x, ovf)) := by
  suffices all : ∀ m ≤ 2 ^ p, StageDone bf brt shift m x ovf (runStage bf brt m shift (x, ovf)) from all _ le_rfl
  intro m le
  induction m with
  | zero => exact StageDone.zero
  | succ m ih =>
    have done := ih (by omega)
    unfold runStage at done ⊢
    by_cases lower : InLowerHalf shift m
    · rw [lowerIndices_succ_of_lower lower, List.foldl_append]
      exact done.apply lower (length ▸ pair_lt inside (by omega) lower)
    · rw [lowerIndices_succ_of_upper lower]
      exact done.skip lower

/-- The two elements of each pair after a stage. -/
theorem getD_runStage (bf : Nat → Butterfly α) (brt : Nat → Nat) {p shift : Nat} {x : List α} (ovf : Bool)
    (length : x.length = 2 ^ p) (inside : shift < p) {k : Nat} (lt : k < 2 ^ p) (lower : InLowerHalf shift k) :
    (runStage bf brt (2 ^ p) shift (x, ovf)).1.getD k default = (stagePair bf brt shift x k).1.1 ∧
      (runStage bf brt (2 ^ p) shift (x, ovf)).1.getD (k + 2 ^ shift) default = (stagePair bf brt shift x k).1.2 := by
  have pair := (runStage_done bf brt ovf length inside).pair k lower (length ▸ pair_lt inside lt lower)
  rw [if_pos lt] at pair
  exact ⟨congrArg Prod.fst pair, congrArg Prod.snd pair⟩

/-! ### All stages, and the permutation (R163, R165) -/

/-- What every stage carries from one shift to the next holds after all of them. -/
theorem runStages_induction (bf : Nat → Butterfly α) (brt : Nat → Nat) (p : Nat) {motive : Nat → Series α → Prop}
    {x : Series α} (start : motive p x)
    (stage : ∀ shift < p, ∀ y, motive (shift + 1) y → motive shift (runStage bf brt (2 ^ p) shift y)) :
    motive 0 (runStages bf brt p x) := by
  suffices all : ∀ q ≤ p, ∀ y, motive q y →
      motive 0 ((List.range q).reverse.foldl (fun y shift => runStage bf brt (2 ^ p) shift y) y) from
    all p le_rfl x start
  intro q le
  induction q with
  | zero => exact fun y hy => hy
  | succ q ih =>
    intro y hy
    rw [List.range_succ, List.reverse_append]
    exact ih (by omega) _ (stage q (by omega) y hy)

/-- The stages keep the length, also over a series of another length. -/
@[simp] theorem length_runStages (bf : Nat → Butterfly α) (brt : Nat → Nat) (p : Nat) (x : Series α) :
    (runStages bf brt p x).1.length = x.1.length := by
  refine runStages_induction bf brt p (motive := fun _ y => y.1.length = x.1.length) rfl fun shift _ y hy => ?_
  exact List.foldlRecOn (motive := fun y : Series α => y.1.length = x.1.length) _ _ hy
    fun z hz k _ => (length_applyPair ..).trans hz

@[simp] theorem length_permute (brt : Nat → Nat) (n : Nat) (x : List α) : (permute brt n x).length = x.length := by
  refine List.foldlRecOn (motive := fun y : List α => y.length = x.length) _ _ rfl fun y hy k _ => ?_
  split
  · simpa [swapAt] using hy
  · exact hy

theorem getD_swapAt {x : List α} {k r : Nat} (hk : k < x.length) (hr : r < x.length) (i : Nat) :
    (swapAt x k r).getD i default =
      if i = r then x.getD k default else if i = k then x.getD r default else x.getD i default := by
  rw [swapAt, getD_set_default _ _ _ _ (by simpa using hr), getD_set_default _ _ _ _ hk]

/-- With a table that is an involution of the indices the permutation reads the series through the table (R165). -/
theorem getD_permute {brt : Nat → Nat} {n : Nat} {x : List α} (length : x.length = n) (maps : ∀ k < n, brt k < n)
    (involution : ∀ k < n, brt (brt k) = k) {i : Nat} (lt : i < n) :
    (permute brt n x).getD i default = x.getD (brt i) default := by
  suffices all : ∀ m ≤ n, ∀ i < n, (permute brt m x).getD i default =
      x.getD (if i < m ∨ brt i < m then brt i else i) default by
    rw [all n le_rfl i lt, if_pos (.inl lt)]
  intro m le
  induction m with
  | zero => simp [permute]
  | succ m ih =>
    intro i lt
    have hm : m < n := by omega
    have before := ih (by omega)
    have next : permute brt (m + 1) x =
        if m < brt m then swapAt (permute brt m x) m (brt m) else permute brt m x := by
      simp [permute, List.range_succ]
    have twicem := involution m hm
    have partner : brt i = m → i = brt m := fun eq => eq ▸ (involution i lt).symm
    rw [next]
    by_cases up : m < brt m
    · rw [if_pos up, getD_swapAt (by simpa [length] using hm) (by simpa [length] using maps m hm), before m hm,
        before (brt m) (maps m hm), before i lt, twicem]
      by_cases top : i = brt m
      · simp only [top, twicem, if_true, show ¬ (m < m ∨ brt m < m) by omega, show brt m < m + 1 ∨ m < m + 1 by omega,
          if_false]
      · by_cases low : i = m
        · simp [low, up.ne, show ¬ brt m < m by omega]
        · simp only [if_neg top, if_neg low, show (i < m + 1 ∨ brt i < m + 1) ↔ (i < m ∨ brt i < m) by omega]
    · rw [if_neg up, before i lt]
      congr 1
      by_cases low : i = m
      · subst low
        split_ifs <;> omega
      · by_cases top : i = brt m
        · subst top
          simp [twicem, show brt m < m by omega]
        · simp only [show (i < m + 1 ∨ brt i < m + 1) ↔ (i < m ∨ brt i < m) by omega]

end

end Sys2Proof.Machine
end

section
/-! The transform in fixed point (41_fft.md R162, R164, R166, R167): the butterfly as a rotation, a sum and a
difference, the range of every word it stores, and XFORM. -/

namespace Sys2Proof.Machine

/-! ### Complex words -/

def Cplx.add (x y : Cplx) : Cplx := ⟨x.re + y.re, x.im + y.im⟩

def Cplx.sub (x y : Cplx) : Cplx := ⟨x.re - y.re, x.im - y.im⟩

/-- Both parts reduced to 48 bits. -/
def Cplx.wrap (x : Cplx) : Cplx := ⟨wrap48 x.re, wrap48 x.im⟩

/-- Both parts lie in the range of Q31.16. -/
def Cplx.Fits (x : Cplx) : Prop := fits48 x.re = true ∧ fits48 x.im = true

/-- The element `b` times the twiddle, `(tr, ti)` of R164: one rounding for each part. -/
def rotate (c s : Int) (b : Cplx) : Cplx := ⟨rshr (b.re * c + b.im * s) 16, rshr (b.im * c - b.re * s) 16⟩

theorem Cplx.wrap_fits (x : Cplx) : x.wrap.Fits := ⟨(wrap48_congr_and_fits _).2, (wrap48_congr_and_fits _).2⟩

theorem Cplx.wrap_of_fits {x : Cplx} (fits : x.Fits) : x.wrap = x := by
  rw [Cplx.wrap, wrap48_of_fits _ fits.1, wrap48_of_fits _ fits.2]

theorem fixedButterfly_fst (c s : Int) (a b : Cplx) :
    (fixedButterfly c s a b).1 = ((a.add (rotate c s b)).wrap, (a.sub (rotate c s b)).wrap) := rfl

/-- A butterfly overflows when one of its results does not fit (R166). -/
theorem fixedButterfly_snd (c s : Int) (a b : Cplx) :
    (fixedButterfly c s a b).2 = false ↔ (a.add (rotate c s b)).Fits ∧ (a.sub (rotate c s b)).Fits := by
  simp only [fixedButterfly, Cplx.Fits, Cplx.add, Cplx.sub, rotate, Bool.not_eq_false', Bool.and_eq_true]
  tauto

/-- Without an overflow the butterfly is the sum and the difference. -/
theorem fixedButterfly_of_fits {c s : Int} {a b : Cplx} (sum : (a.add (rotate c s b)).Fits)
    (diff : (a.sub (rotate c s b)).Fits) :
    fixedButterfly c s a b = ((a.add (rotate c s b), a.sub (rotate c s b)), false) :=
  Prod.ext (by rw [fixedButterfly_fst, Cplx.wrap_of_fits sum, Cplx.wrap_of_fits diff])
    ((fixedButterfly_snd c s a b).2 ⟨sum, diff⟩)

theorem rshr_eq (v : Int) (n : Nat) : rshr v n = if n = 0 then v else (v + 2 ^ (n - 1)) / 2 ^ n := by
  simp [rshr]

theorem rshr_sixteen (v : Int) : rshr v 16 = (v + 32768) / 65536 := rfl

/-- The scaling makes no value larger than the range (R167). -/
theorem fits48_rshr {v : Int} (fits : fits48 v = true) (n : Nat) : fits48 (rshr v n) = true := by
  rw [fits48_iff] at *
  obtain ⟨low, high⟩ := fits
  rw [rshr_eq]
  cases n with
  | zero => exact ⟨low, high⟩
  | succ n =>
    rw [if_neg (by omega), Nat.add_sub_cancel, pow_succ]
    have pos : (0 : Int) < 2 ^ n := by positivity
    exact ⟨(Int.le_ediv_iff_mul_le (by omega)).2 (by omega), (Int.ediv_lt_iff_lt_mul (by omega)).2 (by omega)⟩

theorem scale_fits {x : Cplx} (fits : x.Fits) (p : Nat) : (scale p x).Fits :=
  ⟨fits48_rshr fits.1 p, fits48_rshr fits.2 p⟩

@[simp] theorem scale_zero (x : Cplx) : scale 0 x = x := rfl

/-! ### Every word of a transformed series fits -/

section
variable {α : Type} [Inhabited α] {P : α → Prop}

theorem forall_mem_applyPair {bf : Butterfly α} (made : ∀ a b, P (bf a b).1.1 ∧ P (bf a b).1.2) (a b : Nat)
    {x : Series α} (old : ∀ v ∈ x.1, P v) : ∀ v ∈ (applyPair bf a b x).1, P v := by
  intro v mem
  rcases List.mem_or_eq_of_mem_set mem with mem | rfl
  · rcases List.mem_or_eq_of_mem_set mem with mem | rfl
    · exact old v mem
    · exact (made _ _).2
  · exact (made _ _).1

theorem forall_mem_runStages {bf : Nat → Butterfly α} (made : ∀ t a b, P (bf t a b).1.1 ∧ P (bf t a b).1.2)
    (brt : Nat → Nat) (p : Nat) {x : Series α} (old : ∀ v ∈ x.1, P v) : ∀ v ∈ (runStages bf brt p x).1, P v := by
  refine runStages_induction bf brt p (motive := fun _ y => ∀ v ∈ y.1, P v) old fun shift _ y hy => ?_
  exact List.foldlRecOn (motive := fun y : Series α => ∀ v ∈ y.1, P v) _ _ hy
    fun z hz k _ => forall_mem_applyPair (made _) _ _ hz

theorem prop_getD {x : List α} (base : P default) (all : ∀ v ∈ x, P v) (i : Nat) : P (x.getD i default) := by
  rcases Nat.lt_or_ge i x.length with lt | ge
  · rw [List.getD_eq_getElem _ _ lt]
    exact all _ (List.getElem_mem lt)
  · rwa [List.getD_eq_default _ _ ge]

theorem forall_mem_permute (base : P default) (brt : Nat → Nat) (n : Nat) {x : List α} (old : ∀ v ∈ x, P v) :
    ∀ v ∈ permute brt n x, P v := by
  refine List.foldlRecOn (motive := fun y : List α => ∀ v ∈ y, P v) _ _ old fun y hy k _ => ?_
  split
  · intro v mem
    rcases List.mem_or_eq_of_mem_set mem with mem | rfl
    · rcases List.mem_or_eq_of_mem_set mem with mem | rfl
      · exact hy v mem
      · exact prop_getD base hy _
    · exact prop_getD base hy _
  · exact hy

end

theorem Cplx.default_fits : (default : Cplx).Fits := ⟨rfl, rfl⟩

theorem romButterfly_fits (inv : Bool) (p t : Nat) (a b : Cplx) :
    (romButterfly inv p t a b).1.1.Fits ∧ (romButterfly inv p t a b).1.2.Fits := by
  rw [romButterfly, fixedButterfly_fst]
  exact ⟨Cplx.wrap_fits _, Cplx.wrap_fits _⟩

/-- A series of words in range is transformed to one, also with a table that is no bit reversal. -/
theorem transformSeries_fits (inv : Bool) (brt : Nat → Nat) (p : Nat) {x : List Cplx} (old : ∀ v ∈ x, v.Fits) :
    ∀ v ∈ (transformSeries inv brt p x).1, v.Fits := by
  have stages := forall_mem_runStages (P := Cplx.Fits) (bf := romButterfly inv p)
    (romButterfly_fits inv p) brt p (x := (x, false)) old
  have permuted := forall_mem_permute Cplx.default_fits brt (2 ^ p) stages
  cases inv with
  | true => exact permuted
  | false =>
    intro v mem
    obtain ⟨w, memw, rfl⟩ := List.mem_map.1 mem
    exact scale_fits (permuted w memw) p

@[simp] theorem length_transformSeries (inv : Bool) (brt : Nat → Nat) (p : Nat) (x : List Cplx) :
    (transformSeries inv brt p x).1.length = x.length := by
  cases inv <;> simp [transformSeries]

/-- A transform of one element changes nothing. -/
theorem transformSeries_zero (inv : Bool) {brt : Nat → Nat} (fixed : brt 0 = 0) (x : List Cplx) :
    transformSeries inv brt 0 x = (x, false) := by
  have unscaled : x.map (scale 0) = x := List.map_id x
  cases inv <;> simp [transformSeries, runStages, permute, fixed, unscaled]

/-! ### XFORM -/

theorem exec_xform_of_ready {s : State} (inv : Bool) (ready : s.regs.ready = true) :
    exec (.xform inv) s = .next (s.transform inv).finish := by
  simp [exec, execXform, ready]

theorem State.series_fits (s : State) : ∀ v ∈ s.series, v.Fits := by
  intro v mem
  obtain ⟨i, _, rfl⟩ := List.mem_map.1 mem
  exact ⟨(fits48_iff _).2 (SeriesWord.toInt_range _), (fits48_iff _).2 (SeriesWord.toInt_range _)⟩

@[simp] theorem State.length_series (s : State) : s.series.length = s.regs.n := by simp [State.series]

/-- RE and IM hold the transformed series exactly: no value is lost in storing it. -/
theorem State.transform_toInt (s : State) (inv : Bool) {i : Nat} (below : i < s.regs.n) :
    ((s.transform inv).mems.re.read i).toInt = ((s.transformed inv).1.getD i default).re ∧
      ((s.transform inv).mems.im.read i).toInt = ((s.transformed inv).1.getD i default).im := by
  obtain ⟨re, im⟩ : ((s.transformed inv).1.getD i default).Fits :=
    prop_getD Cplx.default_fits (transformSeries_fits inv _ _ s.series_fits) i
  rw [fits48_iff] at re im
  rw [State.transform_re_read, State.transform_im_read, if_pos below, if_pos below]
  exact ⟨toInt_ofInt_dataW _ re.1 re.2, toInt_ofInt_dataW _ im.1 im.2⟩

theorem State.series_getD (s : State) {i : Nat} (below : i < s.regs.n) :
    s.series.getD i default = ⟨s.mems.reAt i, s.mems.imAt i⟩ := by
  simp [State.series, below]

/-- With one element XFORM changes neither RE nor IM, nor does it overflow (R162). -/
theorem State.transform_of_power_zero {s : State} (inv : Bool) (power : s.regs.power = 0#4)
    (ready : s.regs.ready = true) (table : s.BitReversalOk) :
    (s.transformed inv).2 = false ∧ ∀ i, (s.transform inv).mems.re.read i = s.mems.re.read i ∧
      (s.transform inv).mems.im.read i = s.mems.im.read i := by
  have one : s.regs.n = 1 := by rw [Regs.n, power]; rfl
  have fixed : s.mems.brtAt 0 = 0 := by
    have entry := table ready 0 (by omega)
    rwa [power] at entry
  have same : s.transformed inv = (s.series, false) := by
    rw [State.transformed, power]
    exact transformSeries_zero inv fixed _
  refine ⟨by rw [same], fun i => ?_⟩
  by_cases below : i < s.regs.n
  · obtain ⟨re, im⟩ := s.transform_toInt inv below
    rw [same, s.series_getD below] at re im
    exact ⟨BitVec.eq_of_toInt_eq re, BitVec.eq_of_toInt_eq im⟩
  · rw [State.transform_re_read, State.transform_im_read, if_neg below, if_neg below]
    exact ⟨rfl, rfl⟩

theorem State.transform_finish_regs (s : State) (inv : Bool) :
    (s.transform inv).finish.regs =
      { s.regs with
        evt := s.regs.evt ||| (if (s.transformed inv).2 = true then 0x010#9 else 0x000#9) ||| 0x001#9
        busy := false } := by
  rw [State.finish_regs, State.transform_regs]
  cases (s.transformed inv).2
  · simp [Event.mask, Event.bit]
  · rfl

/-- The butterfly in arithmetic: the four results modulo 2^48, and what an overflow is (R164, R166). -/
theorem fixedButterfly_arith (c s : Int) (a b : Cplx) :
    let tr := (b.re * c + b.im * s + 32768) / 65536
    let ti := (b.im * c - b.re * s + 32768) / 65536
    let r := fixedButterfly c s a b
    (∀ q ∈ [(r.1.1.re, a.re + tr), (r.1.1.im, a.im + ti), (r.1.2.re, a.re - tr), (r.1.2.im, a.im - ti)],
      q.1 % 2 ^ 48 = q.2 % 2 ^ 48 ∧ -2 ^ 47 ≤ q.1 ∧ q.1 < 2 ^ 47) ∧
    (r.2 = true ↔ ∃ v ∈ [a.re + tr, a.im + ti, a.re - tr, a.im - ti], v < -2 ^ 47 ∨ 2 ^ 47 ≤ v) := by
  intro tr ti r
  have reduced : ∀ v : Int, wrap48 v % 2 ^ 48 = v % 2 ^ 48 ∧ -2 ^ 47 ≤ wrap48 v ∧ wrap48 v < 2 ^ 47 := fun v =>
    ⟨(wrap48_congr_and_fits v).1, (fits48_iff _).1 (wrap48_congr_and_fits v).2⟩
  have out : ∀ v : Int, (v < -2 ^ 47 ∨ 2 ^ 47 ≤ v) ↔ ¬ fits48 v = true := fun v => by
    rw [fits48_iff, not_and_or, not_le, not_lt]
  constructor
  · simp only [List.forall_mem_cons]
    exact ⟨reduced _, reduced _, reduced _, reduced _, by simp⟩
  · have flag := not_congr (fixedButterfly_snd c s a b)
    rw [Bool.not_eq_false] at flag
    simp only [List.exists_mem_cons_iff, List.not_mem_nil, false_and, exists_false, or_false, out]
    refine flag.trans ?_
    rw [not_and_or]
    unfold Cplx.Fits
    rw [not_and_or, not_and_or, or_assoc]
    rfl

/-- Settles O13: the butterfly, a stage and the scaling each by their own lemma, and the words XFORM leaves. -/
theorem xformStoresTransformedSeries : Obligations.XformStoresTransformedSeries := by
  refine ⟨fun inv p t a b _ _ => fixedButterfly_arith _ _ a b, fun bf brt p shift x ovf length inside => ?_,
    fun p x => ?_, fun s inv => ⟨fun unready => exec_of_not_ready unready rfl, fun ready => ?_⟩⟩
  · have done := runStage_done bf brt ovf length inside
    exact ⟨done.length.trans length, fun k lt lower => getD_runStage bf brt ovf length inside lt lower, done.overflow⟩
  · simp only [scale, rshr_eq]
    split <;> rfl
  · refine ⟨_, exec_xform_of_ready inv ready, s.transform_finish_regs inv, by simp, by simp, by simp, by simp,
      fun i => s.transform_toInt inv, fun i above => ?_,
      fun power table => s.transform_of_power_zero inv power ready table⟩
    exact ⟨(s.transform_re_read inv i).trans (if_neg (Nat.not_lt.2 above)),
      (s.transform_im_read inv i).trans (if_neg (Nat.not_lt.2 above))⟩

end Sys2Proof.Machine
end

section
/-! The schedule computes the Fourier transform (41_fft.md R168): with exact butterflies on a ring that has a root of
unity, the stages done so far leave transforms of strided parts of the series, in bit-reversed order. -/

namespace Sys2Proof.Machine

section
variable {R : Type} [CommRing R]

/-- The butterfly without rounding, with the twiddle `w ^ t`. -/
def exactButterfly (w : R) (t : Nat) : Butterfly R := fun a b => ((a + w ^ t * b, a - w ^ t * b), false)

theorem sum_range_two_mul (n : Nat) (f : Nat → R) :
    ∑ m ∈ Finset.range (2 * n), f m = ∑ m ∈ Finset.range n, (f (2 * m) + f (2 * m + 1)) := by
  induction n with
  | zero => rfl
  | succ n ih => rw [Nat.mul_succ, Finset.sum_range_succ, Finset.sum_range_succ, ih, Finset.sum_range_succ, add_assoc]

/-- The twiddle of element `2 m + i` at the place of low bit `e`, half a turn for each pair of set bits `e` and `i`. -/
theorem pow_twiddle {w : R} {s q : Nat} (half : w ^ 2 ^ (s + q) = -1) (e i m r : Nat) :
    w ^ (2 ^ s * ((2 * m + i) * (e * 2 ^ q + r))) =
      (-1) ^ (e * i) * w ^ (2 ^ s * r * i) * w ^ (2 ^ (s + 1) * (m * r)) := by
  have split : 2 ^ s * ((2 * m + i) * (e * 2 ^ q + r)) =
      2 ^ (s + q) * (2 * (e * m)) + 2 ^ (s + q) * (e * i) + 2 ^ s * r * i + 2 ^ (s + 1) * (m * r) := by ring
  rw [split, pow_add, pow_add, pow_add, pow_mul w (2 ^ (s + q)), pow_mul w (2 ^ (s + q)), half, pow_mul, neg_one_sq,
    one_pow, one_mul]

variable [Inhabited R]

/-- The transform of the 2^q elements `x[v], x[2^s + v], x[2 * 2^s + v], ...`, its entry at place `u` of the
bit-reversed order. -/
def stridedDft (w : R) (x : List R) (s q u v : Nat) : R :=
  ∑ m ∈ Finset.range (2 ^ q), x.getD (m * 2 ^ s + v) default * w ^ (2 ^ s * (m * bitrev q u))

/-- One more stage: the transform of twice the elements is the butterfly of the two transforms of every other one. -/
theorem stridedDft_succ {w : R} {s q : Nat} (half : w ^ 2 ^ (s + q) = -1) (x : List R) (u v : Nat) {e : Nat}
    (bit : e < 2) :
    stridedDft w x s (q + 1) (2 * u + e) v =
      stridedDft w x (s + 1) q u v +
        (-1) ^ e * (w ^ (2 ^ s * bitrev q u) * stridedDft w x (s + 1) q u (v + 2 ^ s)) := by
  simp only [stridedDft, bitrev_two_mul_add q u bit, pow_succ 2 q, Nat.mul_comm (2 ^ q) 2, sum_range_two_mul,
    Finset.mul_sum, ← Finset.sum_add_distrib]
  refine Finset.sum_congr rfl fun m _ => ?_
  have even := pow_twiddle half e 0 m (bitrev q u)
  have odd := pow_twiddle half e 1 m (bitrev q u)
  rw [Nat.add_zero] at even
  rw [even, odd, show 2 * m * 2 ^ s + v = m * 2 ^ (s + 1) + v by ring,
    show (2 * m + 1) * 2 ^ s + v = m * 2 ^ (s + 1) + (v + 2 ^ s) by ring]
  simp only [mul_zero, pow_zero, mul_one, one_mul]
  ring

/-- The series once only the shifts below `s` remain: 2^s strided transforms. -/
structure StridedTransforms (w : R) (p : Nat) (x : List R) (s : Nat) (y : Series R) : Prop where
  length : y.1.length = 2 ^ p
  entry : ∀ q, s + q = p → ∀ u < 2 ^ q, ∀ v < 2 ^ s, y.1.getD (u * 2 ^ s + v) default = stridedDft w x s q u v

theorem StridedTransforms.start (w : R) {p : Nat} {x : List R} (length : x.length = 2 ^ p) :
    StridedTransforms w p x p (x, false) := by
  refine ⟨length, fun q whole u hu v _ => ?_⟩
  obtain rfl : q = 0 := by omega
  obtain rfl : u = 0 := by omega
  simp [stridedDft, bitrev]

theorem StridedTransforms.stage {w : R} {p s : Nat} {x : List R} {y : Series R} (half : w ^ 2 ^ (p - 1) = -1)
    (inside : s < p) (done : StridedTransforms w p x (s + 1) y) :
    StridedTransforms w p x s (runStage (exactButterfly w) (bitrev p) (2 ^ p) s y) := by
  refine ⟨(runStage_done _ _ y.2 done.length inside).length.trans done.length, fun q' whole u' hu' v hv => ?_⟩
  obtain ⟨q, rfl⟩ : ∃ q, q' = q + 1 := ⟨q' - 1, by omega⟩
  obtain ⟨u, e, bit, rfl⟩ : ∃ u e, e < 2 ∧ u' = 2 * u + e := ⟨u' / 2, u' % 2, by omega, by omega⟩
  have hu : u < 2 ^ q := by rw [pow_succ] at hu'; omega
  set k := 2 * u * 2 ^ s + v with hk
  have group : k / 2 ^ s = 2 * u := by
    rw [hk, Nat.mul_comm, Nat.mul_add_div (by positivity), Nat.div_eq_of_lt hv, Nat.add_zero]
  have lower : InLowerHalf s k := by rw [InLowerHalf, group]; omega
  have lt : k < 2 ^ p := by
    have := Nat.div_lt_iff_lt_mul (x := k) (y := 2 ^ (q + 1)) (show 0 < 2 ^ s by positivity)
    rw [group, ← pow_add, show q + 1 + s = p by omega, pow_succ] at this
    omega
  have twiddle : bitrev p (k / 2 ^ s) = 2 ^ s * bitrev q u := by
    rw [group, ← whole, bitrev_add_two_mul s hu]
  have first : y.1.getD k default = stridedDft w x (s + 1) q u v := by
    rw [← done.entry q (by omega) u hu v (by rw [pow_succ]; omega), hk]
    congr 1
    ring
  have second : y.1.getD (k + 2 ^ s) default = stridedDft w x (s + 1) q u (v + 2 ^ s) := by
    rw [← done.entry q (by omega) u hu (v + 2 ^ s) (by rw [pow_succ]; omega), hk]
    congr 1
    ring
  have after := getD_runStage (exactButterfly w) (bitrev p) y.2 done.length inside lt lower
  simp only [stagePair, pairAt, exactButterfly, twiddle, first, second] at after
  rw [stridedDft_succ (by rwa [show s + q = p - 1 by omega]) x u v bit]
  obtain rfl | rfl : e = 0 ∨ e = 1 := by omega
  · rw [Nat.add_zero, ← hk, pow_zero, one_mul]
    exact after.1
  · rw [Nat.add_mul, Nat.one_mul, Nat.add_right_comm, ← hk, pow_one, neg_one_mul, ← sub_eq_add_neg]
    exact after.2

/-- The loops of stages and the permutation compute the discrete Fourier sum (R168). -/
theorem schedule_getD {w : R} {p : Nat} {x : List R} (half : 0 < p → w ^ 2 ^ (p - 1) = -1) (length : x.length = 2 ^ p)
    {k : Nat} (lt : k < 2 ^ p) :
    (permute (bitrev p) (2 ^ p) (runStages (exactButterfly w) (bitrev p) p (x, false)).1).getD k default =
      ∑ n ∈ Finset.range (2 ^ p), x.getD n default * w ^ (n * k) := by
  have done : StridedTransforms w p x 0 (runStages (exactButterfly w) (bitrev p) p (x, false)) :=
    runStages_induction _ _ p (StridedTransforms.start w length) fun s inside y before =>
      before.stage (half (by omega)) inside
  have entry := done.entry p (Nat.zero_add p) (bitrev p k) (bitrev_lt p k) 0 (by norm_num)
  rw [getD_permute done.length (fun i _ => bitrev_lt p i) (fun i => bitrev_bitrev) lt]
  simpa [stridedDft, bitrev_bitrev lt] using entry

end

/-! ### The complex root of unity -/

/-- The generator of the twiddles of one direction: a turn over 2^p, its sense given by `sign`. -/
noncomputable def twiddleRoot (sign : ℂ) (p : Nat) : ℂ := Complex.exp (sign * (2 * Real.pi * Complex.I / 2 ^ p))

theorem twiddleRoot_pow (sign : ℂ) (p t : Nat) :
    twiddleRoot sign p ^ t = Complex.exp (sign * (2 * Real.pi * Complex.I * t / 2 ^ p)) := by
  rw [twiddleRoot, ← Complex.exp_nat_mul]
  congr 1
  ring

theorem twiddleRoot_half {sign : ℂ} (unit : sign = 1 ∨ sign = -1) {p : Nat} (pos : 0 < p) :
    twiddleRoot sign p ^ 2 ^ (p - 1) = -1 := by
  obtain ⟨q, rfl⟩ : ∃ q, p = q + 1 := ⟨p - 1, by omega⟩
  have turn : (2 * Real.pi * Complex.I * (2 ^ q : Nat) / 2 ^ (q + 1) : ℂ) = Real.pi * Complex.I := by
    push_cast
    field_simp
    ring
  rw [twiddleRoot_pow, Nat.add_sub_cancel, turn]
  rcases unit with rfl | rfl
  · rw [one_mul, Complex.exp_pi_mul_I]
  · rw [neg_one_mul, Complex.exp_neg, Complex.exp_pi_mul_I, inv_neg, inv_one]

/-- A rounding shift answers the integer nearest to the quotient, the upper one on a tie (00_scope.md R14). -/
theorem rshr_nearest {K : Type} [Field K] [LinearOrder K] [IsStrictOrderedRing K] (v : Int) (p : Nat) :
    -(1 / 2 : K) < rshr v p - v / 2 ^ p ∧ (rshr v p - v / 2 ^ p : K) ≤ 1 / 2 := by
  rw [rshr_eq]
  cases p with
  | zero => norm_num
  | succ p =>
    rw [if_neg (by omega), Nat.add_sub_cancel]
    set r := (v + 2 ^ p) / 2 ^ (p + 1)
    have pos : (0 : Int) < 2 ^ (p + 1) := by positivity
    have low : r * 2 ^ (p + 1) ≤ v + 2 ^ p := Int.ediv_mul_le _ pos.ne'
    have high : v + 2 ^ p < (r + 1) * 2 ^ (p + 1) := Int.lt_ediv_add_one_mul_self _ pos
    have posK : (0 : K) < 2 ^ (p + 1) := by positivity
    have half : (2 : K) ^ p = 1 / 2 * 2 ^ (p + 1) := by rw [pow_succ]; ring
    have lowK : (r : K) * 2 ^ (p + 1) ≤ v + 1 / 2 * 2 ^ (p + 1) := by rw [← half]; exact_mod_cast low
    have highK : (v : K) + 1 / 2 * 2 ^ (p + 1) < (r + 1) * 2 ^ (p + 1) := by rw [← half]; exact_mod_cast high
    rw [lt_sub_iff_add_lt, ← lt_sub_iff_add_lt', sub_le_iff_le_add, div_lt_iff₀ posK]
    refine ⟨by linarith, ?_⟩
    rw [← sub_le_iff_le_add', le_div_iff₀ posK]
    linarith

/-- Settles O58: the Fourier sum with the powers of the root as twiddles, the model's transform as it is defined, and
the rounding of its scaling. -/
theorem scheduleComputesFourierTransform : Obligations.ScheduleComputesFourierTransform := by
  refine ⟨fun inv p x length => ?_, fun inv brt p x => rfl, fun p x => ?_⟩
  · intro sign root bf y
    have unit : sign = 1 ∨ sign = -1 := by cases inv <;> simp [sign]
    have power : ∀ t, root t = twiddleRoot sign p ^ t := fun t => (twiddleRoot_pow sign p t).symm
    have exact_bf : bf = exactButterfly (twiddleRoot sign p) := by
      funext t a b
      simp only [bf, exactButterfly, power]
    refine ⟨by simp [y, length], fun k lt => ?_⟩
    simp only [y, exact_bf, power]
    exact schedule_getD (twiddleRoot_half unit) length lt
  · simp only [List.forall_mem_cons]
    exact ⟨rshr_nearest x.re p, rshr_nearest x.im p, by simp⟩

end Sys2Proof.Machine
end

section
/-! The twiddle ROMs are the nearest integers to the cosine and the sine (41_fft.md R160): the cosine's Taylor
polynomial at a rational angle, evaluated in integers against every entry of the quarter wave. -/

namespace Sys2Proof.Machine

/-! ### The cosine near its Taylor polynomial -/

/-- The even part of the exponential series at an imaginary argument. -/
theorem abs_cos_sub_taylor_le (x : ℝ) (n : Nat) (small : |x| / (2 * n + 1 : Nat) ≤ 1 / 2) :
    |Real.cos x - ∑ k ∈ Finset.range n, (-x ^ 2) ^ k / (2 * k).factorial| ≤ |x| ^ (2 * n) / (2 * n).factorial * 2 := by
  have series : (∑ m ∈ Finset.range (2 * n), ((x : ℂ) * Complex.I) ^ m / m.factorial).re =
      ∑ k ∈ Finset.range n, (-x ^ 2) ^ k / (2 * k).factorial := by
    rw [sum_range_two_mul, Complex.re_sum]
    refine Finset.sum_congr rfl fun k _ => ?_
    have square : ((x : ℂ) * Complex.I) ^ 2 = ((-x ^ 2 : ℝ) : ℂ) := by
      rw [mul_pow, Complex.I_sq]
      push_cast
      ring
    have even : ((x : ℂ) * Complex.I) ^ (2 * k) / (2 * k).factorial =
        (((-x ^ 2) ^ k / (2 * k).factorial : ℝ) : ℂ) := by
      rw [pow_mul, square]
      push_cast
      rfl
    have odd : ((x : ℂ) * Complex.I) ^ (2 * k + 1) / (2 * k + 1).factorial =
        (((-x ^ 2) ^ k * x / (2 * k + 1).factorial : ℝ) : ℂ) * Complex.I := by
      rw [pow_succ, pow_mul, square]
      push_cast
      ring
    rw [Complex.add_re, even, odd, Complex.ofReal_re, Complex.re_ofReal_mul, Complex.I_re, mul_zero, add_zero]
  have norm : ‖(x : ℂ) * Complex.I‖ = |x| := by simp
  have bound := Complex.exp_bound' (x := x * Complex.I) (n := 2 * n) (by rw [norm]; exact small)
  rw [norm] at bound
  rw [← Complex.exp_ofReal_mul_I_re, ← series, ← Complex.sub_re]
  exact (Complex.abs_re_le_norm _).trans bound

/-- The terms of even index, with `t / d` for the square of the angle, times `14! * d^7`. -/
def cosTermsPos (t d : Nat) : Nat :=
  87178291200 * d ^ 7 + 3632428800 * t ^ 2 * d ^ 5 + 2162160 * t ^ 4 * d ^ 3 + 182 * t ^ 6 * d

/-- The terms of odd index, without their sign. -/
def cosTermsNeg (t d : Nat) : Nat :=
  43589145600 * t * d ^ 6 + 121080960 * t ^ 3 * d ^ 4 + 24024 * t ^ 5 * d ^ 2 + t ^ 7

theorem cosTerms_eq_taylor {x : ℝ} {t d : Nat} (pos : 0 < d) (square : x ^ 2 = t / d) :
    ∑ k ∈ Finset.range 8, (-x ^ 2) ^ k / (2 * k).factorial =
      ((cosTermsPos t d : ℝ) - cosTermsNeg t d) / (87178291200 * d ^ 7) := by
  have nonzero : (d : ℝ) ≠ 0 := by positivity
  simp only [Finset.sum_range_succ, Finset.sum_range_zero, square, cosTermsPos, cosTermsNeg]
  norm_num [Nat.factorial]
  field_simp
  ring

/-! ### The integers against every entry -/

/-- The angle of entry `j`, with an approximation of pi over 2^40, times 2^54. -/
def scaledAngle (j : Nat) : Nat := j * 3454217652358

/-- The denominator of the square of that angle. -/
def angleScale : Nat := 2 ^ 108

/-- Does 65536 times the Taylor polynomial at the angle of `j` lie within 1/2 - 2^-15 of `c`? -/
def nearCos (j c : Nat) : Bool :=
  let t := scaledAngle j ^ 2
  let pos := cosTermsPos t angleScale
  let neg := cosTermsNeg t angleScale
  let unit := 87178291200 * angleScale ^ 7
  Nat.ble (2 ^ 31 * pos) (2 ^ 31 * neg + (2 ^ 15 * c + 16383) * unit) &&
    Nat.ble (2 ^ 31 * neg + 2 ^ 15 * c * unit) (2 ^ 31 * pos + 16383 * unit)

/-- The rational angle is close to the true one. -/
theorem abs_angle_sub_le {j : Nat} (le : j ≤ 8192) :
    |2 * Real.pi * j / 32768 - scaledAngle j / 2 ^ 54| ≤ 1 / 2 ^ 40 := by
  have pi_close : |Real.pi - 3454217652358 / 2 ^ 40| ≤ 1 / 2 ^ 40 :=
    abs_le.2 ⟨by linarith [Real.pi_gt_d20], by linarith [Real.pi_lt_d20]⟩
  have factor : 2 * Real.pi * j / 32768 - scaledAngle j / 2 ^ 54 =
      (j / 16384 : ℝ) * (Real.pi - 3454217652358 / 2 ^ 40) := by
    rw [scaledAngle]
    push_cast
    ring
  have fraction : (j / 16384 : ℝ) ≤ 1 := by
    have : (j : ℝ) ≤ 8192 := by exact_mod_cast le
    linarith
  rw [factor, abs_mul, abs_of_nonneg (by positivity)]
  calc (j / 16384 : ℝ) * |Real.pi - 3454217652358 / 2 ^ 40| ≤ 1 * (1 / 2 ^ 40) := by gcongr
    _ = 1 / 2 ^ 40 := one_mul _

/-- The polynomial at the rational angle is close to the cosine of the true one. -/
theorem abs_cos_sub_terms_le {j : Nat} (le : j ≤ 8192) :
    |Real.cos (2 * Real.pi * j / 32768) -
      ((cosTermsPos (scaledAngle j ^ 2) angleScale : ℝ) - cosTermsNeg (scaledAngle j ^ 2) angleScale) /
        (87178291200 * angleScale ^ 7)| < 1 / 2 ^ 31 := by
  set x : ℝ := scaledAngle j / 2 ^ 54 with hx
  have nonneg : 0 ≤ x := by positivity
  have small : x ≤ 1.6 := by
    have : (scaledAngle j : ℝ) ≤ 8192 * 3454217652358 := by exact_mod_cast Nat.mul_le_mul_right _ le
    rw [hx, div_le_iff₀ (by positivity)]
    norm_num
    linarith
  have square : x ^ 2 = ((scaledAngle j ^ 2 : Nat) : ℝ) / angleScale := by
    rw [hx, angleScale]
    push_cast
    ring
  have taylor := abs_cos_sub_taylor_le x 8 (by rw [abs_of_nonneg nonneg]; norm_num; linarith)
  rw [cosTerms_eq_taylor (by simp [angleScale]) square, abs_of_nonneg nonneg] at taylor
  have remainder : x ^ (2 * 8) / (2 * 8 : Nat).factorial * 2 ≤ 1.6 ^ 16 / 20922789888000 * 2 := by
    have : x ^ 16 ≤ 1.6 ^ 16 := by gcongr
    norm_num [Nat.factorial] at this ⊢
    linarith
  have moved := (Real.abs_cos_sub_cos_le (2 * Real.pi * j / 32768) x).trans (abs_angle_sub_le le)
  refine (abs_sub_le _ (Real.cos x) _).trans_lt ?_
  refine (add_le_add moved (taylor.trans remainder)).trans_lt ?_
  norm_num

/-- An entry that the integers accept is the nearest integer to the cosine. -/
theorem nearCos_sound {j c : Nat} (le : j ≤ 8192) (near : nearCos j c = true) :
    |(c : ℝ) - 65536 * Real.cos (2 * Real.pi * j / 32768)| < 1 / 2 := by
  simp only [nearCos, Bool.and_eq_true, Nat.ble_eq] at near
  have close := abs_lt.1 (abs_cos_sub_terms_le le)
  set pos := cosTermsPos (scaledAngle j ^ 2) angleScale
  set neg := cosTermsNeg (scaledAngle j ^ 2) angleScale
  set unit : ℝ := 87178291200 * angleScale ^ 7 with hunit
  have positive : 0 < unit := by simp [hunit, angleScale]
  have high : 2 ^ 31 * (pos : ℝ) ≤ 2 ^ 31 * neg + (2 ^ 15 * c + 16383) * unit := by
    rw [hunit]
    exact_mod_cast near.1
  have low : 2 ^ 31 * (neg : ℝ) + 2 ^ 15 * c * unit ≤ 2 ^ 31 * pos + 16383 * unit := by
    rw [hunit]
    exact_mod_cast near.2
  have highQ : ((pos : ℝ) - neg) / unit ≤ (2 ^ 15 * c + 16383) / 2 ^ 31 := by
    rw [div_le_div_iff₀ positive (by positivity)]
    linarith
  have lowQ : (2 ^ 15 * c - 16383) / 2 ^ 31 ≤ ((pos : ℝ) - neg) / unit := by
    rw [div_le_div_iff₀ (by positivity) positive]
    linarith
  obtain ⟨above, below⟩ := close
  exact abs_lt.2 ⟨by linarith, by linarith⟩

/-- `near` of every element and its index, for a list of the given length. -/
def allIndexed {α : Type} (length : Nat) (near : Nat → α → Bool) (xs : List α) : Bool :=
  xs.length == length && xs.zipIdx.all fun c => near c.2 c.1

theorem allIndexed_getD {α : Type} {length : Nat} {near : Nat → α → Bool} {xs : List α}
    (all : allIndexed length near xs = true) {i : Nat} (lt : i < length) (d : α) : near i (xs.getD i d) = true := by
  simp only [allIndexed, Bool.and_eq_true, beq_iff_eq, List.all_eq_true] at all
  obtain ⟨rfl, each⟩ := all
  rw [List.getD_eq_getElem _ _ lt]
  exact each (xs[i], i) (List.mk_mem_zipIdx_iff_getElem?.2 (List.getElem?_eq_getElem lt))

/-- The quarter wave, evaluated: 16 blocks of 16 rows of 32 entries. -/
theorem twcBlocks_near : allIndexed 16 (fun b => allIndexed 16 fun r => allIndexed 32 fun e =>
    nearCos (512 * b + 32 * r + e)) twcBlocks = true := by
  decide +kernel

theorem twcQuarter_near {j : Nat} (lt : j < 8192) : nearCos j (twcQuarter j) = true := by
  have block := allIndexed_getD twcBlocks_near (show j / 512 < 16 by omega) []
  have row := allIndexed_getD block (show j / 32 % 16 < 16 by omega) []
  have entry := allIndexed_getD row (show j % 32 < 32 by omega) 0
  rwa [show 512 * (j / 512) + 32 * (j / 32 % 16) + j % 32 = j by omega] at entry

/-- The quarter wave with its last entry, where the cosine is 0. -/
theorem twcQuarter_nearest {j : Nat} (le : j ≤ 8192) :
    |(twcQuarter j : ℝ) - 65536 * Real.cos (2 * Real.pi * j / 32768)| < 1 / 2 := by
  rcases le.lt_or_eq with lt | rfl
  · exact nearCos_sound le (twcQuarter_near lt)
  · have right : 2 * Real.pi * (8192 : Nat) / 32768 = Real.pi / 2 := by
      push_cast
      ring
    rw [right, Real.cos_pi_div_two, show twcQuarter 8192 = 0 from rfl]
    norm_num

/-! ### The symmetries (R161) -/

theorem twc_nearest {j : Nat} (lt : j < 16384) :
    |(twc j : ℝ) - 65536 * Real.cos (2 * Real.pi * j / 32768)| < 1 / 2 := by
  unfold twc
  split
  · exact_mod_cast twcQuarter_nearest ‹j ≤ 8192›
  · have mirrored := twcQuarter_nearest (show Config.hMax - j ≤ 8192 by simp only [Config.hMax]; omega)
    have angle : 2 * Real.pi * ((Config.hMax - j : Nat) : ℝ) / 32768 = Real.pi - 2 * Real.pi * j / 32768 := by
      rw [Nat.cast_sub (by simp only [Config.hMax]; omega)]
      push_cast
      ring
    rw [angle, Real.cos_pi_sub, ← abs_neg] at mirrored
    push_cast
    convert mirrored using 2
    ring

theorem tws_nearest {j : Nat} (lt : j < 16384) :
    |(tws j : ℝ) - 65536 * Real.sin (2 * Real.pi * j / 32768)| < 1 / 2 := by
  unfold tws
  split
  · have mirrored := twcQuarter_nearest (show 8192 - j ≤ 8192 by omega)
    have angle : 2 * Real.pi * ((8192 - j : Nat) : ℝ) / 32768 = Real.pi / 2 - 2 * Real.pi * j / 32768 := by
      rw [Nat.cast_sub ‹j ≤ 8192›]
      push_cast
      ring
    rw [angle, Real.cos_pi_div_two_sub] at mirrored
    exact_mod_cast mirrored
  · have shifted := twcQuarter_nearest (show j - 8192 ≤ 8192 by omega)
    have angle : 2 * Real.pi * ((j - 8192 : Nat) : ℝ) / 32768 = 2 * Real.pi * j / 32768 - Real.pi / 2 := by
      rw [Nat.cast_sub (by omega)]
      push_cast
      ring
    rw [angle, Real.cos_sub_pi_div_two] at shifted
    exact_mod_cast shifted

/-- An integer nearest to a value in [-65536, 65536] lies there itself. -/
theorem abs_le_of_nearest {v : Int} {y : ℝ} (unit : |y| ≤ 1) (near : |(v : ℝ) - 65536 * y| < 1 / 2) : |v| ≤ 65536 := by
  obtain ⟨low, high⟩ := abs_le.1 unit
  obtain ⟨below, above⟩ := abs_lt.1 near
  have upper : (v : ℝ) < (65537 : Int) := by push_cast; linarith
  have lower : ((-65537 : Int) : ℝ) < v := by push_cast; linarith
  have := Int.cast_lt.1 upper
  have := Int.cast_lt.1 lower
  exact abs_le.2 ⟨by omega, by omega⟩

/-- Settles O57: the quarter wave by evaluation, the rest by the symmetries. -/
theorem twiddleRomIsNearest : Obligations.TwiddleRomIsNearest := fun _ lt =>
  ⟨twc_nearest lt, tws_nearest lt, abs_le_of_nearest (Real.abs_cos_le_one _) (twc_nearest lt),
    abs_le_of_nearest (Real.abs_sin_le_one _) (tws_nearest lt)⟩

end Sys2Proof.Machine
end

section
/-! Two claims about the fixed-point transform (41_fft.md section 5): a forward transform of samples never overflows
(R166), since every stage at most doubles the largest modulus but for the rounding; and up to four elements a forward
and an inverse transform give the series back (R168), since all their twiddles are whole quarter turns. -/

namespace Sys2Proof.Machine

/-! ### The modulus of an element through a butterfly -/

/-- A complex word as a complex number, raw value. -/
def Cplx.toComplex (x : Cplx) : ℂ := ⟨x.re, x.im⟩

theorem Cplx.toComplex_add (x y : Cplx) : (x.add y).toComplex = x.toComplex + y.toComplex :=
  Complex.ext (Int.cast_add ..) (Int.cast_add ..)

theorem Cplx.toComplex_sub (x y : Cplx) : (x.sub y).toComplex = x.toComplex - y.toComplex :=
  Complex.ext (Int.cast_sub ..) (Int.cast_sub ..)

theorem Cplx.norm_default : ‖(default : Cplx).toComplex‖ = 0 :=
  norm_eq_zero.2 (Complex.ext Int.cast_zero Int.cast_zero)

/-- A modulus below 2^47 leaves both parts in range. -/
theorem Cplx.fits_of_norm_lt {x : Cplx} (lt : ‖x.toComplex‖ < 2 ^ 47) : x.Fits := by
  have part : ∀ v : Int, |(v : ℝ)| < 2 ^ 47 → fits48 v = true := fun v hv => by
    obtain ⟨low, high⟩ := abs_lt.1 hv
    exact (fits48_iff v).2 ⟨by exact_mod_cast low.le, by exact_mod_cast high⟩
  exact ⟨part _ ((Complex.abs_re_le_norm x.toComplex).trans_lt lt),
    part _ ((Complex.abs_im_le_norm x.toComplex).trans_lt lt)⟩

theorem abs_rshr_sixteen_sub_le (v : Int) : |(rshr v 16 : ℝ) - v / 65536| ≤ 1 / 2 := by
  obtain ⟨low, high⟩ := rshr_nearest (K := ℝ) v 16
  norm_num at low high
  exact abs_le.2 ⟨by linarith, by linarith⟩

/-- A rotation by a twiddle of modulus at most 65537 / 65536, with its rounding. -/
theorem norm_rotate_le {c s : Int} (unit : c ^ 2 + s ^ 2 ≤ 65537 ^ 2) (b : Cplx) :
    ‖(rotate c s b).toComplex‖ ≤ ‖b.toComplex‖ * (65537 / 65536) + 1 := by
  set w : ℂ := ⟨c / 65536, -s / 65536⟩ with hw
  have modulus : ‖w‖ ≤ 65537 / 65536 := by
    refine abs_le_of_sq_le_sq' ?_ (by norm_num) |>.2
    have real : (c : ℝ) ^ 2 + s ^ 2 ≤ 65537 ^ 2 := by exact_mod_cast unit
    rw [Complex.sq_norm, Complex.normSq_mk]
    norm_num at real ⊢
    linarith
  have rounding : ‖(rotate c s b).toComplex - b.toComplex * w‖ ≤ 1 := by
    have re := abs_rshr_sixteen_sub_le (b.re * c + b.im * s)
    have im := abs_rshr_sixteen_sub_le (b.im * c - b.re * s)
    refine (Complex.norm_le_abs_re_add_abs_im _).trans ?_
    have partRe : ((rotate c s b).toComplex - b.toComplex * w).re =
        (rshr (b.re * c + b.im * s) 16 : ℝ) - (b.re * c + b.im * s : Int) / 65536 := by
      simp only [rotate, Cplx.toComplex, hw, Complex.sub_re, Complex.mul_re]
      push_cast
      ring
    have partIm : ((rotate c s b).toComplex - b.toComplex * w).im =
        (rshr (b.im * c - b.re * s) 16 : ℝ) - (b.im * c - b.re * s : Int) / 65536 := by
      simp only [rotate, Cplx.toComplex, hw, Complex.sub_im, Complex.mul_im]
      push_cast
      ring
    rw [partRe, partIm]
    linarith
  calc ‖(rotate c s b).toComplex‖ ≤ ‖b.toComplex * w‖ + ‖(rotate c s b).toComplex - b.toComplex * w‖ :=
        norm_le_insert' ..
    _ ≤ ‖b.toComplex‖ * (65537 / 65536) + 1 := by
        rw [norm_mul]
        gcongr

/-- Every pair of ROM entries is a twiddle of modulus at most 65537 / 65536. -/
theorem twiddle_sq_le (j : Nat) : twc j ^ 2 + tws j ^ 2 ≤ 65537 ^ 2 := by
  rcases Nat.lt_or_ge j 16384 with lt | ge
  · set θ := 2 * Real.pi * j / 32768
    have circle := Real.sin_sq_add_cos_sq θ
    have errorSq : ∀ v y : ℝ, |y| ≤ 1 → |v - 65536 * y| < 1 / 2 → v ^ 2 ≤ (65536 * y) ^ 2 + 65536 + 1 / 4 :=
      fun v y unit near => by
        have product : |(v - 65536 * y) * y| ≤ 1 / 2 * 1 := by
          rw [abs_mul]
          gcongr
        have square : (v - 65536 * y) ^ 2 ≤ (1 / 2) ^ 2 := sq_le_sq' (abs_lt.1 near).1.le (abs_lt.1 near).2.le
        linarith [(abs_le.1 product).2]
    have cosine := errorSq _ _ (Real.abs_cos_le_one θ) (twc_nearest lt)
    have sine := errorSq _ _ (Real.abs_sin_le_one θ) (tws_nearest lt)
    have bound : (twc j : ℝ) ^ 2 + (tws j : ℝ) ^ 2 ≤ 65537 ^ 2 := by linarith
    exact_mod_cast bound
  · have outside : ¬ j ≤ 8192 ∧ ¬ j < Config.hMax := ⟨by omega, Nat.not_lt.2 ge⟩
    simp [twc, tws, outside]

/-- The largest modulus after `k` stages on samples. -/
noncomputable def stageBound : Nat → ℝ
  | 0 => 2 ^ 31
  | k + 1 => stageBound k + (stageBound k * (65537 / 65536) + 1)

theorem stageBound_nonneg (k : Nat) : 0 ≤ stageBound k := by
  induction k with
  | zero => norm_num [stageBound]
  | succ k ih => unfold stageBound; positivity

theorem stageBound_lt {k : Nat} (le : k ≤ 15) : stageBound k < 2 ^ 47 := by
  have mono : Monotone stageBound := monotone_nat_of_le_succ fun k => by
    have := stageBound_nonneg k
    rw [stageBound]
    exact le_add_of_nonneg_right (by positivity)
  refine (mono le).trans_lt ?_
  norm_num [stageBound]

/-- A butterfly on elements within the bound of one stage does not overflow and stays within the bound of the next. -/
theorem romButterfly_bounded (inv : Bool) (p t : Nat) {a b : Cplx} {k : Nat} (lt : k < 15)
    (ha : ‖a.toComplex‖ ≤ stageBound k) (hb : ‖b.toComplex‖ ≤ stageBound k) :
    (romButterfly inv p t a b).2 = false ∧ ‖(romButterfly inv p t a b).1.1.toComplex‖ ≤ stageBound (k + 1) ∧
      ‖(romButterfly inv p t a b).1.2.toComplex‖ ≤ stageBound (k + 1) := by
  set j := t * 2 ^ (Config.pMax - p)
  set c := twc j
  set s := if inv then -(tws j) else tws j with hs
  have unit : c ^ 2 + s ^ 2 ≤ 65537 ^ 2 := by
    have := twiddle_sq_le j
    rw [hs]
    split
    · rwa [neg_sq]
    · exact this
  have turned : ‖(rotate c s b).toComplex‖ ≤ stageBound k * (65537 / 65536) + 1 :=
    (norm_rotate_le unit b).trans (by gcongr)
  have sum : ‖(a.add (rotate c s b)).toComplex‖ ≤ stageBound (k + 1) := by
    rw [Cplx.toComplex_add]
    exact (norm_add_le _ _).trans (add_le_add ha turned)
  have diff : ‖(a.sub (rotate c s b)).toComplex‖ ≤ stageBound (k + 1) := by
    rw [Cplx.toComplex_sub]
    exact (norm_sub_le _ _).trans (add_le_add ha turned)
  have below := stageBound_lt (show k + 1 ≤ 15 by omega)
  have same : romButterfly inv p t a b = ((a.add (rotate c s b), a.sub (rotate c s b)), false) :=
    fixedButterfly_of_fits (Cplx.fits_of_norm_lt (sum.trans_lt below)) (Cplx.fits_of_norm_lt (diff.trans_lt below))
  rw [same]
  exact ⟨rfl, sum, diff⟩

/-- The series once only the shifts below `s` remain, when the transform began with samples. -/
structure StagesBounded (p s : Nat) (y : Series Cplx) : Prop where
  length : y.1.length = 2 ^ p
  silent : y.2 = false
  norm_le : ∀ i < 2 ^ p, ‖(y.1.getD i default).toComplex‖ ≤ stageBound (p - s)

theorem StagesBounded.stage (inv : Bool) (brt : Nat → Nat) {p s : Nat} {y : Series Cplx} (le : p ≤ 15) (inside : s < p)
    (before : StagesBounded p (s + 1) y) : StagesBounded p s (runStage (romButterfly inv p) brt (2 ^ p) s y) := by
  have done := runStage_done (romButterfly inv p) brt y.2 before.length inside
  have next : p - s = p - (s + 1) + 1 := by omega
  have pair : ∀ k < 2 ^ p, InLowerHalf s k → (stagePair (romButterfly inv p) brt s y.1 k).2 = false ∧
      ‖(stagePair (romButterfly inv p) brt s y.1 k).1.1.toComplex‖ ≤ stageBound (p - s) ∧
      ‖(stagePair (romButterfly inv p) brt s y.1 k).1.2.toComplex‖ ≤ stageBound (p - s) := fun k lt lower => by
    rw [next]
    exact romButterfly_bounded inv p _ (by omega) (before.norm_le k lt)
      (before.norm_le _ (pair_lt inside lt lower))
  refine ⟨done.length.trans before.length, ?_, fun i lt => ?_⟩
  · rw [← Bool.not_eq_true, done.overflow, before.silent]
    rintro (set | ⟨k, lt, lower, set⟩)
    · cases set
    · rw [(pair k lt lower).1] at set
      cases set
  · obtain ⟨k, ltk, lower, place⟩ := exists_pair (shift := s) lt
    obtain ⟨low, high⟩ := getD_runStage (romButterfly inv p) brt y.2 before.length inside ltk lower
    obtain ⟨_, boundLow, boundHigh⟩ := pair k ltk lower
    rcases place with rfl | rfl
    · exact low ▸ boundLow
    · exact high ▸ boundHigh

/-- A sample as POPUL writes it. -/
def sampleWord (d : BitVec 16) : Cplx := ⟨d.toInt * 65536, 0⟩

theorem norm_sampleWord_le (d : BitVec 16) : ‖(sampleWord d).toComplex‖ ≤ 2 ^ 31 := by
  obtain ⟨low, high⟩ := Sample.toInt_range d
  have part : |((d.toInt * 65536 : Int) : ℝ)| ≤ 2 ^ 31 := by
    have : |d.toInt * 65536| ≤ 2 ^ 31 := abs_le.2 ⟨by omega, by omega⟩
    exact_mod_cast this
  refine (Complex.norm_le_abs_re_add_abs_im _).trans ?_
  simpa [sampleWord, Cplx.toComplex] using part

/-- Settles O59: after all stages on samples the bound of 15 stages still lies below 2^47. -/
theorem forwardTransformOfSamplesFits : Obligations.ForwardTransformOfSamplesFits := by
  intro p samples le length
  have start : StagesBounded p p (samples.map sampleWord, false) := by
    refine ⟨by simpa using length, rfl, fun i _ => ?_⟩
    rw [Nat.sub_self]
    refine prop_getD (P := fun x : Cplx => ‖x.toComplex‖ ≤ stageBound 0) ?_ ?_ i
    · rw [Cplx.norm_default]
      exact stageBound_nonneg 0
    · intro x mem
      obtain ⟨d, _, rfl⟩ := List.mem_map.1 mem
      exact norm_sampleWord_le d
  have done := runStages_induction (romButterfly false p) (bitrev p) p start fun s inside y before =>
    before.stage false (bitrev p) le inside
  exact done.silent

end Sys2Proof.Machine
end

section
/-! Up to four elements a forward and an inverse transform give samples back (41_fft.md R168): all their twiddles are
whole quarter turns, which round nothing, and the scaling divides exactly. -/

namespace Sys2Proof.Machine

/-! ### Butterflies of whole quarter turns -/

/-- Both parts are at most `bound` in absolute value. -/
def Cplx.Within (bound : Int) (x : Cplx) : Prop := |x.re| ≤ bound ∧ |x.im| ≤ bound

theorem Cplx.Within.add {m n : Int} {x y : Cplx} (hx : x.Within m) (hy : y.Within n) : (x.add y).Within (m + n) :=
  ⟨(abs_add_le _ _).trans (add_le_add hx.1 hy.1), (abs_add_le _ _).trans (add_le_add hx.2 hy.2)⟩

theorem Cplx.Within.sub {m n : Int} {x y : Cplx} (hx : x.Within m) (hy : y.Within n) : (x.sub y).Within (m + n) :=
  ⟨(abs_sub _ _).trans (add_le_add hx.1 hy.1), (abs_sub _ _).trans (add_le_add hx.2 hy.2)⟩

theorem Cplx.Within.fits {bound : Int} {x : Cplx} (hx : x.Within bound) (lt : bound < 2 ^ 47) : x.Fits := by
  obtain ⟨re, im⟩ := hx
  rw [abs_le] at re im
  exact ⟨(fits48_iff _).2 ⟨by omega, by omega⟩, (fits48_iff _).2 ⟨by omega, by omega⟩⟩

/-- A quarter turn in the sense of the direction: by -i forward, by i inverse. -/
def Cplx.turn (inv : Bool) (x : Cplx) : Cplx := if inv then ⟨-x.im, x.re⟩ else ⟨x.im, -x.re⟩

theorem Cplx.Within.turn {bound : Int} {x : Cplx} (inv : Bool) (hx : x.Within bound) : (x.turn inv).Within bound := by
  obtain ⟨re, im⟩ := hx
  cases inv
  · exact ⟨im, (abs_neg _).trans_le re⟩
  · exact ⟨(abs_neg _).trans_le im, re⟩

/-- A multiple of the unit of the twiddles is shifted back exactly. -/
theorem rshr_mul_one (v : Int) : rshr (v * 65536) 16 = v := by
  rw [rshr_sixteen]
  omega

/-- The butterfly with t = 0 is the sum and the difference. -/
theorem romButterfly_zero (inv : Bool) (p : Nat) {a b : Cplx} {m : Int} (ha : a.Within m) (hb : b.Within m)
    (lt : m + m < 2 ^ 47) : romButterfly inv p 0 a b = ((a.add b, a.sub b), false) := by
  have one : rotate 65536 0 b = b := by simp [rotate, rshr_mul_one]
  have rom : romButterfly inv p 0 a b = fixedButterfly 65536 0 a b := by
    cases inv <;> simp [romButterfly, twc, tws] <;> rfl
  rw [rom, fixedButterfly_of_fits (by rw [one]; exact (ha.add hb).fits lt)
    (by rw [one]; exact (ha.sub hb).fits lt), one]

/-- The butterfly with t = 1 of four elements turns its second element by a quarter. -/
theorem romButterfly_quarter (inv : Bool) {a b : Cplx} {m : Int} (ha : a.Within m) (hb : b.Within m)
    (lt : m + m < 2 ^ 47) : romButterfly inv 2 1 a b = ((a.add (b.turn inv), a.sub (b.turn inv)), false) := by
  have quarter : rotate 0 (if inv then -65536 else 65536) b = b.turn inv := by
    cases inv <;> simp [rotate, Cplx.turn, rshr_mul_one, ← neg_mul]
  have rom : romButterfly inv 2 1 a b = fixedButterfly 0 (if inv then -65536 else 65536) a b := by
    cases inv <;> rfl
  rw [rom, fixedButterfly_of_fits (by rw [quarter]; exact (ha.add (hb.turn inv)).fits lt)
    (by rw [quarter]; exact (ha.sub (hb.turn inv)).fits lt), quarter]

/-! ### The transforms of two and of four elements -/

/-- The scaling of a direction (R167). -/
def rescale (inv : Bool) (p : Nat) (x : Cplx) : Cplx := if inv then x else scale p x

theorem transformSeries_two (inv : Bool) {a b : Cplx} {m : Int} (ha : a.Within m) (hb : b.Within m)
    (lt : m + m < 2 ^ 47) :
    transformSeries inv (bitrev 1) 1 [a, b] = ([a.add b, a.sub b].map (rescale inv 1), false) := by
  have stages : runStages (romButterfly inv 1) (bitrev 1) 1 ([a, b], false) = ([a.add b, a.sub b], false) := by
    have shape : runStages (romButterfly inv 1) (bitrev 1) 1 ([a, b], false) =
      ([(romButterfly inv 1 0 a b).1.1, (romButterfly inv 1 0 a b).1.2], false || (romButterfly inv 1 0 a b).2) := rfl
    rw [shape, romButterfly_zero inv 1 ha hb lt]
    rfl
  rw [transformSeries, stages]
  cases inv <;> rfl

/-- What one stage of four elements does, and then the other. -/
theorem runStages_four (bf : Nat → Butterfly Cplx) (a b c d : Cplx) :
    runStages bf (bitrev 2) 2 ([a, b, c, d], false) =
      let u := bf 0 a c
      let v := bf 0 b d
      let w := bf 0 u.1.1 v.1.1
      let z := bf 1 u.1.2 v.1.2
      ([w.1.1, w.1.2, z.1.1, z.1.2], (((false || u.2) || v.2) || w.2) || z.2) := rfl

theorem transformSeries_four (inv : Bool) {a b c d : Cplx} {m : Int} (ha : a.Within m) (hb : b.Within m)
    (hc : c.Within m) (hd : d.Within m) (pos : 0 ≤ m) (lt : 4 * m < 2 ^ 47) :
    transformSeries inv (bitrev 2) 2 [a, b, c, d] =
      ([(a.add c).add (b.add d), (a.sub c).add ((b.sub d).turn inv), (a.add c).sub (b.add d),
        (a.sub c).sub ((b.sub d).turn inv)].map (rescale inv 2), false) := by
  have stages : runStages (romButterfly inv 2) (bitrev 2) 2 ([a, b, c, d], false) =
      ([(a.add c).add (b.add d), (a.add c).sub (b.add d), (a.sub c).add ((b.sub d).turn inv),
        (a.sub c).sub ((b.sub d).turn inv)], false) := by
    rw [runStages_four, romButterfly_zero inv 2 ha hc (by omega), romButterfly_zero inv 2 hb hd (by omega)]
    simp only
    rw [romButterfly_zero inv 2 (ha.add hc) (hb.add hd) (by omega),
      romButterfly_quarter inv (ha.sub hc) (hb.sub hd) (by omega)]
    rfl
  rw [transformSeries, stages]
  cases inv <;> rfl

/-! ### There and back -/

theorem sampleWord_within (d : BitVec 16) : (sampleWord d).Within (2 ^ 31) := by
  obtain ⟨low, high⟩ := Sample.toInt_range d
  exact ⟨abs_le.2 ⟨by simp only [sampleWord]; omega, by simp only [sampleWord]; omega⟩, by simp [sampleWord]⟩

theorem rshr_one (v : Int) : rshr v 1 = (v + 1) / 2 := rfl

theorem rshr_two (v : Int) : rshr v 2 = (v + 2) / 4 := rfl

/-- The forward transform of two samples, exactly. -/
theorem forward_two (a b : BitVec 16) :
    transformSeries false (bitrev 1) 1 [sampleWord a, sampleWord b] =
      ([⟨32768 * (a.toInt + b.toInt), 0⟩, ⟨32768 * (a.toInt - b.toInt), 0⟩], false) := by
  rw [transformSeries_two false (sampleWord_within a) (sampleWord_within b) (by norm_num)]
  simp only [List.map_cons, List.map_nil, rescale, Bool.false_eq_true, if_false, scale, rshr_one, Cplx.add, Cplx.sub,
    sampleWord, Prod.mk.injEq, List.cons.injEq, Cplx.mk.injEq, and_true]
  omega

theorem inverse_two (a b : BitVec 16) :
    transformSeries true (bitrev 1) 1 [⟨32768 * (a.toInt + b.toInt), 0⟩, ⟨32768 * (a.toInt - b.toInt), 0⟩] =
      ([sampleWord a, sampleWord b], false) := by
  have rangeA := Sample.toInt_range a
  have rangeB := Sample.toInt_range b
  have within : ∀ v : Int, |v| ≤ 65536 → (⟨32768 * v, 0⟩ : Cplx).Within (2 ^ 31) := fun v hv => by
    rw [abs_le] at hv
    exact ⟨abs_le.2 ⟨by simp only; omega, by simp only; omega⟩, by simp⟩
  rw [transformSeries_two true (within _ (abs_le.2 (by omega))) (within _ (abs_le.2 (by omega))) (by norm_num)]
  simp only [List.map_cons, List.map_nil, rescale, if_true, Cplx.add, Cplx.sub, sampleWord, Prod.mk.injEq,
    List.cons.injEq, Cplx.mk.injEq, and_true]
  omega

/-- The forward transform of four samples, exactly. -/
theorem forward_four (a b c d : BitVec 16) :
    transformSeries false (bitrev 2) 2 [sampleWord a, sampleWord b, sampleWord c, sampleWord d] =
      ([⟨16384 * (a.toInt + c.toInt + (b.toInt + d.toInt)), 16384 * 0⟩,
        ⟨16384 * (a.toInt - c.toInt), 16384 * (d.toInt - b.toInt)⟩,
        ⟨16384 * (a.toInt + c.toInt - (b.toInt + d.toInt)), 16384 * 0⟩,
        ⟨16384 * (a.toInt - c.toInt), 16384 * (b.toInt - d.toInt)⟩], false) := by
  rw [transformSeries_four false (sampleWord_within a) (sampleWord_within b) (sampleWord_within c) (sampleWord_within d)
    (by norm_num) (by norm_num)]
  simp only [List.map_cons, List.map_nil, rescale, Bool.false_eq_true, if_false, scale, rshr_two, Cplx.add, Cplx.sub,
    Cplx.turn, sampleWord, Prod.mk.injEq, List.cons.injEq, Cplx.mk.injEq, and_true]
  omega

theorem inverse_four (a b c d : BitVec 16) :
    transformSeries true (bitrev 2) 2
        [⟨16384 * (a.toInt + c.toInt + (b.toInt + d.toInt)), 16384 * 0⟩,
          ⟨16384 * (a.toInt - c.toInt), 16384 * (d.toInt - b.toInt)⟩,
          ⟨16384 * (a.toInt + c.toInt - (b.toInt + d.toInt)), 16384 * 0⟩,
          ⟨16384 * (a.toInt - c.toInt), 16384 * (b.toInt - d.toInt)⟩] =
      ([sampleWord a, sampleWord b, sampleWord c, sampleWord d], false) := by
  have rangeA := Sample.toInt_range a
  have rangeB := Sample.toInt_range b
  have rangeC := Sample.toInt_range c
  have rangeD := Sample.toInt_range d
  have within : ∀ v w : Int, |v| ≤ 131072 → |w| ≤ 131072 → (⟨16384 * v, 16384 * w⟩ : Cplx).Within (2 ^ 31) :=
    fun v w hv hw => by
      rw [abs_le] at hv hw
      exact ⟨abs_le.2 ⟨by simp only; omega, by simp only; omega⟩, abs_le.2 ⟨by simp only; omega, by simp only; omega⟩⟩
  rw [transformSeries_four true (within _ _ (abs_le.2 (by omega)) (abs_le.2 (by omega)))
    (within _ _ (abs_le.2 (by omega)) (abs_le.2 (by omega))) (within _ _ (abs_le.2 (by omega)) (abs_le.2 (by omega)))
    (within _ _ (abs_le.2 (by omega)) (abs_le.2 (by omega))) (by norm_num) (by norm_num)]
  simp only [List.map_cons, List.map_nil, rescale, if_true, Cplx.add, Cplx.sub, Cplx.turn, sampleWord, Prod.mk.injEq,
    List.cons.injEq, Cplx.mk.injEq, and_true]
  omega

/-- A series that comes back exactly, once both transforms are known. -/
theorem roundTrip_of {p : Nat} {x y : List Cplx} (forward : transformSeries false (bitrev p) p x = (y, false))
    (inverse : transformSeries true (bitrev p) p y = (x, false)) :
    (transformSeries true (bitrev p) p (transformSeries false (bitrev p) p x).1).1 = x ∧
      (transformSeries false (bitrev p) p x).2 = false ∧
      (transformSeries true (bitrev p) p (transformSeries false (bitrev p) p x).1).2 = false := by
  rw [forward, inverse]
  exact ⟨rfl, rfl, rfl⟩

/-- Settles O60, one power at a time. -/
theorem shortTransformsRoundTrip : Obligations.ShortTransformsRoundTrip := by
  intro p samples le length
  obtain rfl | rfl | rfl : p = 0 ∨ p = 1 ∨ p = 2 := by omega
  · exact roundTrip_of (transformSeries_zero false rfl _) (transformSeries_zero true rfl _)
  · obtain ⟨a, b, rfl⟩ := List.length_eq_two.1 length
    exact roundTrip_of (forward_two a b) (inverse_two a b)
  · obtain ⟨a, b, c, d, rfl⟩ : ∃ a b c d, samples = [a, b, c, d] := by
      match samples, length with
      | [a, b, c, d], _ => exact ⟨a, b, c, d, rfl⟩
    exact roundTrip_of (forward_four a b c d) (inverse_four a b c d)

end Sys2Proof.Machine
end

section
/-! The search over the note table answers the nearest note (43_note.md R244). -/

namespace Sys2Proof.Machine

/-- The table ascends strictly (R240). -/
theorem noteFreq_lt : ∀ {i j : Nat}, i < j → j < 36 → noteFreq i < noteFreq j := by
  have table : ∀ j < 36, ∀ i < j, noteFreq i < noteFreq j := by decide
  exact fun {i j} lt inside => table j inside i lt

theorem noteFreq_le {i j : Nat} (le : i ≤ j) (inside : j < 36) : noteFreq i ≤ noteFreq j := by
  rcases Nat.lt_or_eq_of_le le with lt | rfl
  · exact (noteFreq_lt lt inside).le
  · exact le_rfl

/-- Where `f` would be inserted into the table: below `ip` every entry is lower, `ip` itself is not. -/
structure InsertionPoint (f : Int) (ip : Nat) : Prop where
  inside : ip < 36
  below : ∀ j < ip, noteFreq j < f
  le : f ≤ noteFreq ip

/-- The bisection keeps the insertion point between its bounds, and every round narrows them by one at least. -/
theorem insertionPoint_spec (rounds : Nat) {lo hi : Nat} {f : Int} (enough : hi ≤ lo + rounds) (ordered : lo ≤ hi)
    (inside : hi < 36) (below : ∀ j < lo, noteFreq j < f) (le : f ≤ noteFreq hi) :
    InsertionPoint f (insertionPoint rounds lo hi f) := by
  induction rounds generalizing lo hi with
  | zero =>
    obtain rfl : lo = hi := by omega
    exact ⟨inside, below, le⟩
  | succ n ih =>
    unfold insertionPoint
    split
    · split
      · rename_i lower
        refine ih (by omega) (by omega) inside (fun j hj => ?_) le
        exact (noteFreq_le (by omega) (by omega)).trans_lt lower
      · exact ih (by omega) (by omega) (by omega) below (by omega)
    · obtain rfl : lo = hi := by omega
      exact ⟨inside, below, le⟩

/-- Of the two entries around the insertion point the nearer one is the nearest of all, the lower one on a tie. -/
theorem InsertionPoint.nearerOf {f : Int} {ip : Nat} (point : InsertionPoint f ip) (low : noteFreq 0 ≤ f) :
    NearestNote f (nearerOf ip f) := by
  obtain ⟨inside, below, le⟩ := point
  have above {j : Nat} (lt : ip < j) (hj : j < 36) : noteFreq ip < noteFreq j := noteFreq_lt lt hj
  unfold Machine.nearerOf
  split
  · refine ⟨inside, fun j hj => ?_⟩
    rcases Nat.lt_trichotomy j ip with lt | rfl | gt
    · have := below j lt
      omega
    · omega
    · have := above gt hj
      omega
  · have pos : 0 < ip := by
      rcases Nat.eq_zero_or_pos ip with rfl | pos
      · omega
      · exact pos
    have next := below (ip - 1) (by omega)
    have under {j : Nat} (lt : j < ip - 1) : noteFreq j < noteFreq (ip - 1) := noteFreq_lt lt (by omega)
    split
    all_goals
      refine ⟨by omega, fun j hj => ?_⟩
      rcases Nat.lt_trichotomy j (ip - 1) with lt | rfl | gt
      · have := under lt
        omega
      · omega
      · have := noteFreq_le (show ip ≤ j by omega) hj
        omega

/-- `find_note` answers the nearest entry of the table, clamped to the extreme ones (R244). -/
theorem findNote_nearest (f : Int) : NearestNote f (findNote f) := by
  unfold findNote
  split
  · refine ⟨by omega, fun j hj => ?_⟩
    have := noteFreq_le (show j ≤ 35 by omega) (by omega)
    rcases Nat.lt_or_ge j 35 with lt | ge
    · have := noteFreq_lt lt (by omega)
      omega
    · obtain rfl : j = 35 := by omega
      omega
  · split
    · refine ⟨by omega, fun j hj => ?_⟩
      have := noteFreq_le (Nat.zero_le j) hj
      omega
    · refine (insertionPoint_spec Config.notes ?_ (Nat.zero_le 35) (by omega) ?_ (by omega)).nearerOf (by omega)
      · decide
      · exact fun j hj => absurd hj (Nat.not_lt_zero j)

end Sys2Proof.Machine
end

section
/-! The commands of the detector (42_hps_detector.md): DINIT, HPS, SSF and the start of RUN. -/

namespace Sys2Proof.Machine

/-! ### DINIT (R201) -/

theorem exec_dinit_of_badWindow {s : State} (ready : s.regs.ready = true) (bad : s.regs.windowOk = false) :
    exec .dinit s = .next (s.raise .cfgWindow) := by
  simp [exec, execDinit, ready, bad]

theorem exec_dinit_of_window {s : State} (ready : s.regs.ready = true) (ok : s.regs.windowOk = true) :
    exec .dinit s = .next s.bindWindow.finish := by
  simp [exec, execDinit, State.bindWindow, ready, ok]

/-- For a frequency that is not negative the bound is the quotient of the integers (R201). -/
theorem windowBound_cast {hz : Freq} (nonneg : 0 ≤ hz.toInt) (r : Regs) :
    (windowBound hz.toInt r.n r.rate : Int) =
      hz.toInt * 2 ^ r.power.toNat / ((r.sampleRate.toNat : Int) * 65536) := by
  simp only [windowBound, Config.one, Regs.n, Regs.rate, Int.natCast_ediv, Nat.cast_mul, Nat.cast_pow, Nat.cast_ofNat,
    Int.toNat_of_nonneg nonneg]

/-- Settles O10: with the two bounds read as integers, the four outcomes are the two branches of DINIT's check. -/
theorem dinitDerivesWindow : Obligations.DinitDerivesWindow := by
  refine ⟨rfl, fun s => ?_⟩
  intro fs loHz hiHz n lo hi
  have half : (s.regs.h : Int) = n / 2 := by simp [n, Regs.h, Regs.n]
  have loEq (valid : ¬ (fs = 0 ∨ loHz < 0 ∨ hiHz < 0)) : (s.regs.windowLo : Int) = lo :=
    windowBound_cast (by omega) s.regs
  have hiEq (valid : ¬ (fs = 0 ∨ loHz < 0 ∨ hiHz < 0)) : (s.regs.windowHi : Int) = hi :=
    windowBound_cast (by omega) s.regs
  have ok_iff : s.regs.windowOk = true ↔ ¬ (fs = 0 ∨ loHz < 0 ∨ hiHz < 0) ∧ lo < hi ∧ hi ≤ n / 2 := by
    have named : s.regs.rate = fs ∧ s.regs.minHzSigned = loHz ∧ s.regs.maxHzSigned = hiHz := ⟨rfl, rfl, rfl⟩
    rw [Regs.windowOk_iff]
    by_cases valid : fs = 0 ∨ loHz < 0 ∨ hiHz < 0
    · omega
    · have := loEq valid
      have := hiEq valid
      omega
  have refused (bad : ¬ (¬ (fs = 0 ∨ loHz < 0 ∨ hiHz < 0) ∧ lo < hi ∧ hi ≤ n / 2)) : s.regs.windowOk = false :=
    Bool.eq_false_iff.2 (mt ok_iff.1 bad)
  refine ⟨fun unready => exec_of_not_ready unready rfl,
    fun ready invalid => exec_dinit_of_badWindow ready (refused fun ok => ok.1 invalid),
    fun ready _ empty => exec_dinit_of_badWindow ready (refused fun ok => empty ok.2),
    fun ready valid window => ?_, fun _ scan invalid => ?_⟩
  · rw [exec_dinit_of_window ready (ok_iff.2 ⟨valid, window⟩), ← loEq valid, ← hiEq valid, BitVec.ofInt_natCast,
      BitVec.ofInt_natCast]
    rfl
  · have bad := refused (by tauto)
    rw [← Bool.not_eq_true]
    intro det
    obtain ⟨_, ok, _⟩ := scan det
    exact Bool.false_ne_true (bad ▸ ok)

/-! ### HPS (R204, R205) -/

theorem exec_hps_of_ready {s : State} (ready : s.regs.ready = true) (det : s.regs.detReady = true) :
    exec .hps s = .next s.findFundamental.finish := by
  simp [exec, execHps, ready, det]

/-- A loop over a window that is not empty answers its first maximum (R204). -/
theorem hpsArgmax_firstMaximum (ms : Mems) {lo hi : Nat} (lt : lo < hi) :
    FirstMaximum ms lo hi (hpsArgmax ms.hpsProduct lo hi) := by
  obtain ⟨_, low, below, first⟩ := hpsBetter_fold ms.hpsProduct lo (hi - (lo + 1))
  have length : lo + 1 + (hi - (lo + 1)) = hi := by omega
  rw [length] at below first
  exact ⟨low, below, first⟩

/-- Settles O16: both refusals, and the index that `hpsArgmax_firstMaximum` is about. -/
theorem hpsFindsFirstMaximum : Obligations.HpsFindsFirstMaximum := by
  refine ⟨rfl, fun s => ⟨?_, fun ready det lt => ⟨_, hpsArgmax_firstMaximum s.mems lt, exec_hps_of_ready ready det⟩⟩⟩
  rintro (unready | undetected)
  · exact exec_of_not_ready unready rfl
  · exact exec_of_not_detReady undetected (.inl rfl)

/-! ### SSF (R207, R208) -/

/-- The average of two frequencies, rounded down, is a frequency. -/
theorem toInt_ofInt_average (a b : Freq) :
    (BitVec.ofInt 32 ((a.toInt + b.toInt) / 2)).toInt = (a.toInt + b.toInt) / 2 := by
  have := a.toInt_range
  have := b.toInt_range
  exact toInt_ofInt_freqW _ (by omega) (by omega)

/-- Settles O18: RES0 is the bit of the comparison, whichever way it falls. -/
theorem ssfFiltersAndAverages : Obligations.SsfFiltersAndAverages := by
  refine ⟨rfl, fun s => ?_⟩
  intro a b accept avg
  have bit : (ssFilter s.regs.arg0Signed s.regs.arg1Signed s.regs.threshSigned).1 = decide accept := rfl
  refine ⟨fun holds => ?_, fun fails => ?_, toInt_ofInt_average _ _⟩
  · simp only [exec, execSsf, bit, holds]
    rfl
  · simp only [exec, execSsf, bit, fails]
    rfl

/-! ### RUN (R213) -/

theorem exec_run_of_ready {s : State} (ready : s.regs.ready = true) (det : s.regs.detReady = true) :
    exec .run s = .next { s with regs := { s.regs with running := true, seqPc := .top } } := by
  simp [exec, execRun, ready, det]

theorem step_runPhase {s : State} (moves : s.engineMoves) (busy : s.regs.busy = true)
    (running : s.regs.running = true) : step s = runPhase s.atTurn := by
  obtain ⟨turn, rst⟩ := moves
  simp only [step, fetch, turn, rst, fetchEngine, State.takeTurn_regs, busy, running]
  rfl

/-- Settles O21: both refusals, the start, and the engine step while RUNNING = 1. -/
theorem runStartsSequencer : Obligations.RunStartsSequencer := by
  refine ⟨rfl, fun s => ⟨?_, exec_run_of_ready, step_runPhase⟩⟩
  rintro (unready | undetected)
  · exact exec_of_not_ready unready rfl
  · exact exec_of_not_detReady undetected (.inr rfl)

end Sys2Proof.Machine
end

section
/-! The phases of RUN (42_hps_detector.md sections 5 and 6), each an outcome of `runPhase` and then what it leaves. -/

namespace Sys2Proof.Machine

variable {s : State}

/-- The exit writes out R222: STOPPED and DONE are one mask. -/
theorem State.exitRun_eq (s : State) :
    s.exitRun = { s with
      regs := { s.regs with running := false, seqPc := .idle, busy := false, evt := s.regs.evt ||| 0x009#9 } } := by
  have mask : s.regs.evt ||| Event.stopped.mask ||| Event.done.mask = s.regs.evt ||| 0x009#9 := BitVec.or_assoc ..
  simp only [State.exitRun, mask]

/-! ### TOP (R215) -/

theorem runPhase_top (pc : s.regs.seqPc = .top) :
    runPhase s = .next (if s.regs.stop then s.exitRun else s.goTo .remA) := by
  rw [runPhase, pc]
  rfl

/-- Settles O26: the exit and the start of a cycle, the two branches of TOP. -/
theorem topPollsStop : Obligations.TopPollsStop := by
  refine fun s pc => ⟨fun stop => ?_, fun go => ?_⟩
  · rw [runPhase_top pc, if_pos stop, State.exitRun_eq]
  · rw [runPhase_top pc, if_neg (by simp [go])]
    rfl

/-! ### REM_A and REM_B (R216) -/

theorem runPhase_rem (pc : s.regs.seqPc = .remA ∨ s.regs.seqPc = .remB) :
    runPhase s = .next (phaseRem (if s.regs.seqPc = .remA then .popA else .popB) s) := by
  rcases pc with pc | pc <;> simp [runPhase, pc]

/-- Settles O27: the three branches of `phaseRem`. -/
theorem removePhaseTakesBlockOrWaits : Obligations.RemovePhaseTakesBlockOrWaits := by
  intro s pc
  refine ⟨fun pending => ⟨_, runPhase_rem pc, ?_⟩, fun empty stop => ?_, fun empty go => ?_⟩
  · rw [phaseRem, if_pos pending]
    exact ⟨rfl, rfl, rfl, rfl, s.removeBlock_blk_read⟩
  · rw [runPhase_rem pc, phaseRem, if_neg (by simp [empty]), if_pos stop, State.exitRun_eq]
  · rw [runPhase_rem pc, phaseRem, if_neg (by simp [empty]), if_neg (by simp [go])]

/-! ### POP_A and POP_B (R217, 60_exceptions.md R284) -/

theorem runPhase_pop (pc : s.regs.seqPc = .popA ∨ s.regs.seqPc = .popB) :
    runPhase s = .next (phasePop (if s.regs.seqPc = .popA then .fftA else .fftB) s) := by
  rcases pc with pc | pc <;> simp [runPhase, pc]

theorem runPhase_pop_of_badLength (pc : s.regs.seqPc = .popA ∨ s.regs.seqPc = .popB)
    (bad : s.regs.blkLen.toNat ≠ s.regs.n) : runPhase s = .next (s.raiseInRun .argLen) := by
  rw [runPhase_pop pc, phasePop, if_pos bad]

theorem runPhase_pop_of_length (pc : s.regs.seqPc = .popA ∨ s.regs.seqPc = .popB)
    (len : s.regs.blkLen.toNat = s.regs.n) :
    runPhase s = .next (s.populate.goTo (if s.regs.seqPc = .popA then .fftA else .fftB)) := by
  rw [runPhase_pop pc, phasePop, if_neg (not_not.2 len)]

theorem number_of_pop (pc : s.regs.seqPc = .popA ∨ s.regs.seqPc = .popB) :
    s.regs.seqPc.number = if s.regs.seqPc = .popA then 3#5 else 11#5 := by
  rcases pc with pc | pc <;> simp [pc, Phase.number]

theorem State.populate_beyond (s : State) {i : Nat} (above : s.regs.n ≤ i) :
    s.populate.mems.re.read i = s.mems.re.read i ∧ s.populate.mems.im.read i = s.mems.im.read i :=
  ⟨(s.populate_re_read i).trans (if_neg (Nat.not_lt.2 above)),
    (s.populate_im_read i).trans (if_neg (Nat.not_lt.2 above))⟩

/-- Settles O28: the error entry of RUN, and otherwise the words that `State.populate` leaves. -/
theorem populatePhaseLoadsOrDiscards : Obligations.PopulatePhaseLoadsOrDiscards := by
  refine fun s pc => ⟨fun bad => ?_, fun len => ⟨_, runPhase_pop_of_length pc len, rfl, rfl, rfl, rfl,
    fun i below => ⟨s.populate_re_toInt below, ?_⟩, fun i => s.populate_beyond⟩⟩
  · rw [runPhase_pop_of_badLength pc bad, ← number_of_pop pc]
    rfl
  · exact (s.populate_im_read i).trans (if_pos below)

/-! ### The phases that act as commands (R218, R219) -/

theorem getLsbD_zero_or_mask (evt : BitVec 9) {e : Event} (other : e ≠ .done) :
    (evt ||| e.mask).getLsbD 0 = evt.getLsbD 0 := by
  cases e <;> simp [Event.mask, Event.bit] at other ⊢

/-- The phase in SEQ_PC makes the state change of the command `i`, but goes to `q` and does not end. -/
def ActsAs (s : State) (i : Instr) (q : Phase) : Prop :=
  ∃ t u, exec i s = .next t ∧ runPhase s = .next u ∧
    u.mems = t.mems ∧ u.ports = t.ports ∧ u.env = t.env ∧
    t.regs = { u.regs with evt := u.regs.evt ||| 0x001#9, busy := false, seqPc := s.regs.seqPc } ∧
    u.regs.busy = s.regs.busy ∧ u.regs.seqPc = q ∧ u.regs.evt.getLsbD 0 = s.regs.evt.getLsbD 0

/-- A command that ends the change to `w`, and a phase that goes on from `w`. -/
theorem ActsAs.of_change {i : Instr} {q : Phase} {w : State} (command : exec i s = .next w.finish)
    (phase : runPhase s = .next (w.goTo q)) (busy : w.regs.busy = s.regs.busy) (pc : w.regs.seqPc = s.regs.seqPc)
    (done : w.regs.evt.getLsbD 0 = s.regs.evt.getLsbD 0) : ActsAs s i q :=
  ⟨_, _, command, phase, rfl, rfl, rfl, by rw [← pc]; rfl, busy, rfl, done⟩

theorem fft_actsAs_xform {q : Phase} (ready : s.regs.ready = true) (phase : runPhase s = .next (phaseFft q s)) :
    ActsAs s (.xform false) q := by
  refine .of_change (exec_xform_of_ready false ready) phase (by simp) (by simp) ?_
  rw [State.transform_regs]
  dsimp only
  split
  · exact getLsbD_zero_or_mask _ (by decide)
  · rfl

theorem mag_actsAs_mag {q : Phase} (ready : s.regs.ready = true) (phase : runPhase s = .next (phaseMag q s)) :
    ActsAs s .mag q :=
  .of_change (exec_mag_of_ready ready) phase rfl rfl (getLsbD_zero_or_mask _ (by decide))

theorem ds2_actsAs_downsS2 {q : Phase} (ready : s.regs.ready = true) (phase : runPhase s = .next (phaseDs2 q s)) :
    ActsAs s (.downsS2 2) q :=
  .of_change (exec_downs_of_factor ready (by decide)).1 phase rfl rfl rfl

theorem ds3_actsAs_downsS3 {q : Phase} (ready : s.regs.ready = true) (phase : runPhase s = .next (phaseDs3 q s)) :
    ActsAs s (.downsS3 3) q :=
  .of_change (exec_downs_of_factor ready (by decide)).2 phase rfl rfl rfl

theorem hps_actsAs_hps {q : Phase} (ready : s.regs.ready = true) (det : s.regs.detReady = true)
    (phase : runPhase s = .next (phaseHps q s)) : ActsAs s .hps q :=
  .of_change (exec_hps_of_ready ready det) phase rfl rfl rfl

/-- Settles O29, row by row of the list: both phases of a kind are the one function with its successor. -/
theorem phasesActAsTheirCommands : Obligations.PhasesActAsTheirCommands := by
  intro s ready det q listed
  suffices acts : s.regs.seqPc = q.1 → ActsAs s q.2.1 q.2.2 from acts
  simp only [List.mem_cons, List.not_mem_nil, or_false] at listed
  rcases listed with rfl | rfl | rfl | rfl | rfl | rfl | rfl | rfl | rfl | rfl <;> intro pc
  iterate 2 exact fft_actsAs_xform ready (by rw [runPhase, pc])
  iterate 2 exact mag_actsAs_mag ready (by rw [runPhase, pc])
  iterate 2 exact ds2_actsAs_downsS2 ready (by rw [runPhase, pc])
  iterate 2 exact ds3_actsAs_downsS3 ready (by rw [runPhase, pc])
  iterate 2 exact hps_actsAs_hps ready det (by rw [runPhase, pc])

/-! ### B2F_A and B2F_B (R219) -/

/-- For an index inside the spectrum the division by N leaves no remainder, and the frequency fits Q15.16 (R219). -/
theorem Regs.bin2freq_hpsIdx {r : Regs} (inside : r.hpsIdx.toNat < r.h) :
    bin2freq r.rate r.n r.hpsIdx.toNat = r.hpsIdx.toNat * r.rate * 2 ^ (16 - r.power.toNat) ∧
      r.hpsIdx.toNat * r.rate * 2 ^ (16 - r.power.toNat) < 2 ^ 31 := by
  have unit : 2 ^ r.power.toNat * 2 ^ (16 - r.power.toNat) = 65536 := by
    rw [← pow_add, Nat.add_sub_cancel' (by have := r.power.isLt; omega)]
    rfl
  have pos : 0 < 2 ^ r.power.toNat := by positivity
  have rate : r.rate < 65536 := Rate.toNat_lt _
  simp only [Regs.h, Regs.n] at inside
  constructor
  · rw [bin2freq, Config.one, ← unit, Regs.n, Nat.mul_comm (2 ^ r.power.toNat), ← Nat.mul_assoc,
      Nat.mul_div_cancel _ pos]
  · set scale := 2 ^ (16 - r.power.toNat)
    have half : 2 * (r.hpsIdx.toNat * scale) ≤ 65536 := by
      calc 2 * (r.hpsIdx.toNat * scale) = 2 * r.hpsIdx.toNat * scale := by ring
        _ ≤ 2 ^ r.power.toNat * scale := Nat.mul_le_mul_right _ (by omega)
        _ = 65536 := unit
    calc r.hpsIdx.toNat * r.rate * scale = r.hpsIdx.toNat * scale * r.rate := by ring
      _ ≤ 32768 * r.rate := Nat.mul_le_mul_right _ (by omega)
      _ < 2 ^ 31 := by omega

/-- F_A and F_B take that frequency without truncation. -/
theorem Regs.fundamentalFreq_toInt {r : Regs} (inside : r.hpsIdx.toNat < r.h) :
    r.fundamentalFreq.toInt = (r.hpsIdx.toNat * r.rate * 2 ^ (16 - r.power.toNat) : Nat) := by
  obtain ⟨whole, fits⟩ := r.bin2freq_hpsIdx inside
  rw [Regs.fundamentalFreq, whole, ← BitVec.ofInt_natCast]
  exact toInt_ofInt_freqW _ (by omega) (by omega)

theorem runPhase_b2fA (pc : s.regs.seqPc = .b2fA) :
    runPhase s = .next { s with regs := { s.regs with fA := s.regs.fundamentalFreq, seqPc := .remB } } := by
  rw [runPhase, pc]
  rfl

theorem runPhase_b2fB (pc : s.regs.seqPc = .b2fB) :
    runPhase s = .next { s with regs := { s.regs with fB := s.regs.fundamentalFreq, seqPc := .filt } } := by
  rw [runPhase, pc]
  rfl

/-- Settles O30: the one frequency, exact by `Regs.fundamentalFreq_toInt`, and the two phases that store it. -/
theorem fundamentalPhaseIsExact : Obligations.FundamentalPhaseIsExact :=
  fun _ inside => ⟨_, Regs.fundamentalFreq_toInt inside, runPhase_b2fA, runPhase_b2fB⟩

/-! ### FILT (R220) -/

theorem runPhase_filt (pc : s.regs.seqPc = .filt) :
    runPhase s = .next (if s.regs.filtered.1 then s.goTo .emit else s.discardCycle) := by
  rw [runPhase, pc]
  rfl

/-- The filter's answer is the strict comparison of R207. -/
theorem Regs.filtered_fst_iff (r : Regs) :
    r.filtered.1 = true ↔ ((r.fB.toInt - r.fA.toInt).natAbs : Int) < r.thresh.toInt := decide_eq_true_iff

/-- Settles O31: the filter decides, and its answer is the comparison of `Regs.filtered_fst_iff`. -/
theorem filterPhaseAcceptsOrDiscards : Obligations.FilterPhaseAcceptsOrDiscards := by
  refine fun s pc => ⟨fun accept => ?_, fun reject => ?_⟩
  · rw [runPhase_filt pc, if_pos (s.regs.filtered_fst_iff.2 accept)]
    rfl
  · rw [runPhase_filt pc, if_neg (mt s.regs.filtered_fst_iff.1 reject)]
    rfl

/-! ### EMIT (R221) -/

/-- The direction in the two bits of RES_DIR (43_note.md R246). -/
theorem ofNat_tuningDir (i : Nat) (f eps : Int) :
    BitVec.ofNat 2 (tuningDir i f eps) =
      if ((f - noteFreq i).natAbs : Int) < eps then 1#2 else if f - noteFreq i < 0 then 0#2 else 2#2 := by
  unfold tuningDir
  split
  · rfl
  · split <;> rfl

/-- RES_OVR and RESULT are one mask when RESULT was still set. -/
theorem phaseEmit_evt (s : State) :
    (phaseEmit s).regs.evt = s.regs.evt ||| (if s.regs.evt.getLsbD 2 = true then 0x024#9 else 0x004#9) := by
  have flag : s.regs.flag .result = s.regs.evt.getLsbD 2 := rfl
  simp only [phaseEmit, State.goTo_regs, State.setEvent_regs, State.publish_regs, State.setEventIf_regs, flag]
  split
  · exact BitVec.or_assoc ..
  · rfl

theorem phaseEmit_regs (s : State) :
    (phaseEmit s).regs = { s.regs with
      resName := noteName (findNote s.regs.filtered.2)
      resIdx := BitVec.ofNat 6 (findNote s.regs.filtered.2)
      resFreq := BitVec.ofInt 32 s.regs.filtered.2
      resDir := BitVec.ofNat 2 (tuningDir (findNote s.regs.filtered.2) s.regs.filtered.2 s.regs.epsilonSigned)
      resSeq := s.regs.resSeq + 1#32
      evt := s.regs.evt ||| (if s.regs.evt.getLsbD 2 = true then 0x024#9 else 0x004#9)
      seqPc := .top } := by
  rw [← phaseEmit_evt]
  simp [phaseEmit, Regs.epsilonSigned]

theorem phaseEmit_rspec_filled (s : State) :
    (phaseEmit s).mems.rspec.Filled s.mems.rspec s.regs.h s.mems.s1.read := by
  simp [phaseEmit, Regs.h, Regs.n, Memory.filled_fill]

/-- Settles O32: the note that the search finds is the nearest, and then what `phaseEmit` leaves. -/
theorem emitPublishesResult : Obligations.EmitPublishesResult := by
  intro s pc _ _ avg
  have run : runPhase s = .next (phaseEmit s) := by rw [runPhase, pc]
  refine ⟨findNote avg, _, findNote_nearest avg, run, ?_, by simp [phaseEmit], by simp [phaseEmit], by simp [phaseEmit],
    phaseEmit_rspec_filled s⟩
  intro d
  rw [phaseEmit_regs, ofNat_tuningDir]
  rfl

end Sys2Proof.Machine
end

section
/-! The control flow of RUN (42_hps_detector.md sections 5 and 6): where each phase goes, and that only the exit and a
reset end RUN. -/

namespace Sys2Proof.Machine

/-! ### Where a phase goes (R214, R222) -/

/-- The table of R214 without the exit: from which phase to which a phase step goes or waits. -/
def phaseMoves : List (Phase × Phase) :=
  [(.top, .remA), (.remA, .popA), (.remA, .remA), (.popA, .fftA), (.popA, .top), (.fftA, .magA), (.magA, .ds2A),
    (.ds2A, .ds3A), (.ds3A, .hpsA), (.hpsA, .b2fA), (.b2fA, .remB), (.remB, .popB), (.remB, .remB), (.popB, .fftB),
    (.popB, .top), (.fftB, .magB), (.magB, .ds2B), (.ds2B, .ds3B), (.ds3B, .hpsB), (.hpsB, .b2fB), (.b2fB, .filt),
    (.filt, .emit), (.filt, .top), (.emit, .top)]

/-- RUN takes its exit: STOP is seen at TOP, or in a remove phase with nothing pending (R215, R216, R222). -/
structure ExitsRun (s t : State) : Prop where
  stop : s.regs.stop = true
  at_ : s.regs.seqPc = .top ∨ ((s.regs.seqPc = .remA ∨ s.regs.seqPc = .remB) ∧ s.regs.pending = false)
  eq : t = s.exitRun

@[simp] theorem phaseEmit_seqPc (s : State) : (phaseEmit s).regs.seqPc = .top := rfl

/-- A phase moves within the table, or RUN takes its exit. -/
theorem PhaseCase.moves_or_exits {s t : State} (c : PhaseCase s t) :
    (s.regs.seqPc, t.regs.seqPc) ∈ phaseMoves ∨ ExitsRun s t := by
  have listed {q : Phase} {part : List (Phase × Phase)} (pc : (s.regs.seqPc, q) ∈ part) (sub : part ⊆ phaseMoves) :
      (s.regs.seqPc, q) ∈ phaseMoves := sub pc
  cases c with
  | exit stop at_ eq => exact .inr ⟨stop, at_, eq⟩
  | blocked pc _ _ eq | badLength pc _ eq =>
    subst eq
    left
    rcases pc with pc | pc <;> simp [pc, phaseMoves]
  | remove q pc _ eq | populate q pc _ eq | magnitude q pc eq | downsampleS2 q pc eq | downsampleS3 q pc eq
  | fundamental q pc eq => exact .inl (eq ▸ listed pc (by decide))
  | transform q pc eq => exact .inl (eq ▸ listed (q := q) pc (by decide))
  | top pc _ eq | freqA pc eq | freqB pc eq | accept pc _ eq | discard pc _ eq | emit pc eq =>
    subst eq
    left
    simp [pc, phaseMoves]

/-- A phase step that ends in IDLE is the exit. -/
theorem PhaseCase.exits_of_idle {s t : State} (c : PhaseCase s t) (idle : t.regs.seqPc = .idle) : ExitsRun s t := by
  refine c.moves_or_exits.resolve_left fun moved => ?_
  have notIdle : ∀ e ∈ phaseMoves, e.2 ≠ .idle := by decide
  exact notIdle _ moved idle

/-- Settles O33: the table with the exit, and what a step that ends in IDLE is. -/
theorem phaseSuccessors : Obligations.PhaseSuccessors := by
  intro s t step
  have c := runPhase_cases step
  refine ⟨?_, fun idle => ?_⟩
  · rcases c.moves_or_exits with moved | ⟨_, at_, eq⟩
    · exact (by decide : phaseMoves ⊆ _) moved
    · subst eq
      rcases at_ with pc | ⟨pc | pc, _⟩ <;> simp [pc]
  · rw [(c.exits_of_idle idle).eq, State.exitRun_eq]

/-! ### What ends RUN (R222) -/

/-- A beat reaches nothing in the registers but EVT and the FIFO's own. -/
theorem BeatCase.regs_eq {s t : State} (c : BeatCase s t) : ∃ evt wp slotLen pending,
    t.regs = { s.regs with evt := evt, wp := wp, slotLen := slotLen, pending := pending } := by
  cases c with
  | refused eq | flushedPush _ eq | flushedCommit _ eq => exact eq ▸ ⟨_, _, _, _, rfl⟩
  | pushed d _ eq | wrongLength d _ _ eq | discarded d _ _ _ eq | inserted d _ _ _ eq =>
    subst eq
    simp only [State.setWp_regs, State.lengthError_regs, State.setEvent_regs, State.insertBlock_regs, State.stage_regs]
    exact ⟨_, _, _, _, rfl⟩

/-- RUNNING and ERR_CODE are as they were, or every register is reset. -/
def RunKeptOrReset (r r' : Regs) : Prop := (r'.running = r.running ∧ r'.errCode = r.errCode) ∨ r' = Regs.reset

theorem RegisterWrite.runKeptOrReset {v : BusData} {r r' : Regs} (w : RegisterWrite v r r') : RunKeptOrReset r r' := by
  cases w
  case reset eq => exact .inr eq
  all_goals exact .inl (by simp only [*, and_self])

theorem AccessCase.runKeptOrReset {s t : State} (c : AccessCase s t) : RunKeptOrReset s.regs t.regs := by
  cases c with
  | response r eq | word w i v _ _ eq => exact .inl (eq ▸ ⟨rfl, rfl⟩)
  | register r v ok eq => exact eq ▸ (writeReg_cases ok).runKeptOrReset

theorem State.rstFall_runKeptOrReset (s : State) (c : Mems) : RunKeptOrReset s.regs (s.rstFall c).regs := by
  unfold State.rstFall
  split
  · exact .inr rfl
  · exact .inl ⟨rfl, rfl⟩

/-- While RUNNING = 1 a step is a phase, or it leaves RUNNING and ERR_CODE alone, or it is a reset. -/
theorem step_of_running {s t : State} (running : s.regs.running = true) (h : step s = .next t) :
    PhaseCase s.takeTurn t ∨ RunKeptOrReset s.regs t.regs := by
  cases step_cases h with
  | enginePasses _ _ eq | producerPasses _ eq | hostPasses _ eq | rstRise _ eq => exact .inr (.inl (eq ▸ ⟨rfl, rfl⟩))
  | illegal _ _ _ idle | command _ _ _ idle => exact absurd running (by simp [idle])
  | beat _ b _ _ _ eq =>
    obtain ⟨_, _, _, _, regs⟩ := (exec_beat_cases eq).regs_eq
    exact .inr (.inl (regs ▸ ⟨rfl, rfl⟩))
  | access _ _ r rest _ eq =>
    subst eq
    exact .inr (hostAccess_cases _ r).runKeptOrReset
  | rstFall c _ eq => exact .inr (eq ▸ s.takeTurn.rstFall_runKeptOrReset c)
  | phase _ _ _ _ eq => exact .inl (runPhase_cases eq)

/-- Settles O34: a phase that clears RUNNING is at the exit, since RUNNING = 0 comes with SEQ_PC = IDLE. -/
theorem runEndsOnlyByExitOrReset : Obligations.RunEndsOnlyByExitOrReset := by
  intro s t control h running stopped
  rcases step_of_running running h with c | ⟨same, _⟩ | reset
  · have idle := (stepKeepsControlOk s t control h).phase_running.2 stopped
    obtain ⟨stop, at_, exits⟩ := c.exits_of_idle idle
    rw [State.exitRun_eq] at exits
    exact .inl ⟨stop, at_, exits⟩
  · simp [same, running] at stopped
  · exact .inr reset

end Sys2Proof.Machine
end

section
/-! Every step keeps a running cycle consistent (42_hps_detector.md R217, R219, R221), so a POP never finds a block of
the wrong length. -/

namespace Sys2Proof.Machine

/-- The window ends inside the spectrum, so what HPS finds is an index of it. -/
theorem State.findFundamental_hpsIdx_lt {s : State} (window : s.regs.ScanWindowOk) (det : s.regs.detReady = true) :
    s.findFundamental.regs.hpsIdx.toNat < s.regs.h := by
  obtain ⟨_, ok, lo, hi⟩ := window det
  obtain ⟨_, _, _, lt, le⟩ := (Regs.windowOk_iff _).1 ok
  rw [← lo, ← hi] at lt
  obtain ⟨_, below, _⟩ := hpsArgmax_firstMaximum s.mems lt
  exact (Nat.mod_le _ _).trans_lt (below.trans_le (hi ▸ le))

/-- The phases of which `CycleOk` asks nothing of their own. -/
def Phase.isFree : Phase → Bool
  | .popA | .popB | .b2fA | .b2fB | .emit => false
  | _ => true

/-- The registers that `CycleOk` speaks of. -/
def Regs.cycle (r : Regs) : (Bool × Bool × Bool) × Phase × BitVec 4 × BitVec 16 × BitVec 16 × Freq × Freq × Freq :=
  ((r.running, r.ready, r.detReady), r.seqPc, r.power, r.blkLen, r.hpsIdx, r.fA, r.fB, r.thresh)

namespace Regs.CycleOk
variable {s t : State} {r : Regs}

theorem of_frame {r' : Regs} (h : r.CycleOk) (same : r'.cycle = r.cycle) : r'.CycleOk := by
  simp only [Regs.cycle, Prod.mk.injEq] at same
  obtain ⟨⟨running, ready, det⟩, seqPc, power, blkLen, hpsIdx, fA, fB, thresh⟩ := same
  constructor <;> simp only [Regs.n, Regs.h, running, ready, det, seqPc, power, blkLen, hpsIdx, fA, fB, thresh]
  exacts [h.built, h.block, h.index, h.freqs, h.accepted]

/-- At a free phase only the build of the detector and the two frequencies count. -/
theorem of_free (built : r.running = true → r.ready = true ∧ r.detReady = true)
    (freqs : 0 ≤ r.fA.toInt ∧ 0 ≤ r.fB.toInt) (free : r.seqPc.isFree = true) : r.CycleOk := by
  refine ⟨built, ?_, ?_, freqs, ?_⟩
  · rintro (pc | pc) <;> simp [pc, Phase.isFree] at free
  · rintro (pc | pc) <;> simp [pc, Phase.isFree] at free
  · intro pc
    simp [pc, Phase.isFree] at free

theorem of_idle (freqs : 0 ≤ r.fA.toInt ∧ 0 ≤ r.fB.toInt) (stopped : r.running = false) (pc : r.seqPc = .idle) :
    r.CycleOk :=
  of_free (fun running => absurd running (by simp [stopped])) freqs (pc ▸ rfl)

theorem reset : Regs.reset.CycleOk := of_idle (by decide) rfl rfl

/-- A step to a free phase. -/
theorem moveTo (h : r.CycleOk) {q : Phase} (free : q.isFree = true) : Regs.CycleOk { r with seqPc := q } :=
  of_free h.built h.freqs free

/-- A step along a part of the table that ends in free phases. -/
theorem moveIn (h : r.CycleOk) {p q : Phase} {part : List (Phase × Phase)} (pc : (p, q) ∈ part)
    (free : ∀ e ∈ part, e.2.isFree = true) : Regs.CycleOk { r with seqPc := q } :=
  h.moveTo (free _ pc)

/-- The block taken has the length N that the FIFO keeps (40_fifo.md R135). -/
theorem takeBlock {q : Phase} (h : s.regs.CycleOk) (fifo : s.regs.FifoOk) (pending : s.regs.pending = true)
    (pop : q = .popA ∨ q = .popB) : (s.removeBlock.goTo q).regs.CycleOk :=
  { h with
    block := fun _ => (fifo pending).2
    index := by rcases pop with rfl | rfl <;> simp
    accepted := by rcases pop with rfl | rfl <;> simp }

theorem findFundamental {q : Phase} (h : s.regs.CycleOk) (window : s.regs.ScanWindowOk)
    (det : s.regs.detReady = true) (b2f : q = .b2fA ∨ q = .b2fB) : (s.findFundamental.goTo q).regs.CycleOk :=
  { h with
    block := by rcases b2f with rfl | rfl <;> simp
    index := fun _ => State.findFundamental_hpsIdx_lt window det
    accepted := by rcases b2f with rfl | rfl <;> simp }

theorem accept (h : r.CycleOk) (acc : r.filtered.1 = true) : Regs.CycleOk { r with seqPc := .emit } :=
  { h with
    block := by simp
    index := by simp
    accepted := fun _ => of_decide_eq_true acc }

theorem fundamentalFreq_nonneg (h : r.CycleOk) (b2f : r.seqPc = .b2fA ∨ r.seqPc = .b2fB) :
    0 ≤ r.fundamentalFreq.toInt := by
  rw [Regs.fundamentalFreq_toInt (h.index b2f)]
  exact Int.natCast_nonneg _

theorem phase (h : s.regs.CycleOk) (fifo : s.regs.FifoOk) (window : s.regs.ScanWindowOk)
    (running : s.regs.running = true) (c : PhaseCase s t) : t.regs.CycleOk := by
  cases c with
  | exit _ _ eq => exact eq ▸ of_idle (r := s.exitRun.regs) h.freqs rfl rfl
  | blocked _ _ _ eq => exact eq ▸ h
  | top _ _ eq => exact eq ▸ h.moveTo (q := .remA) rfl
  | remove q pc pending eq => exact eq ▸ h.takeBlock fifo pending (by simp at pc; tauto)
  | badLength _ _ eq | discard _ _ eq => exact eq ▸ (h.moveTo (q := .top) rfl).of_frame rfl
  | populate q pc _ eq | magnitude q pc eq | downsampleS2 q pc eq | downsampleS3 q pc eq =>
    have moved := h.moveIn pc (by decide)
    exact eq ▸ moved.of_frame rfl
  | transform q pc eq =>
    have moved := h.moveIn pc (by decide)
    exact eq ▸ moved.of_frame (by simp [Regs.cycle])
  | fundamental q pc eq => exact eq ▸ h.findFundamental window (h.built running).2 (by simp at pc; tauto)
  | freqA pc eq =>
    subst eq
    exact of_free h.built ⟨h.fundamentalFreq_nonneg (.inl pc), h.freqs.2⟩ rfl
  | freqB pc eq =>
    subst eq
    exact of_free h.built ⟨h.freqs.1, h.fundamentalFreq_nonneg (.inr pc)⟩ rfl
  | accept _ acc eq => exact eq ▸ h.accept acc
  | emit _ eq => exact eq ▸ (h.moveTo (q := .top) rfl).of_frame (by simp [Regs.cycle, phaseEmit])

/-- Outside RUN a command leaves F_A and F_B alone, and RUN itself needs READY and DET_READY. -/
theorem command {i : Instr} (h : s.regs.CycleOk) (idle : s.regs.running = false) (pc : s.regs.seqPc = .idle)
    (c : CommandCase i s t) : t.regs.CycleOk := by
  cases c with
  | run _ ready det eq => exact eq ▸ of_free (fun _ => ⟨ready, det⟩) h.freqs rfl
  | xform inv _ _ eq => exact eq ▸ of_idle (by simpa using h.freqs) (by simpa using idle) (by simpa using pc)
  | error _ eq | nop _ eq | init _ _ _ _ _ eq | dinit _ _ _ eq | removed _ _ _ eq | cancelled _ _ _ _ eq
  | blocked _ _ _ _ eq | popul _ _ _ eq | mag _ _ eq | downsS2 _ _ _ _ eq | downsS3 _ _ _ _ eq | hps _ _ _ eq
  | results _ _ _ eq =>
    subst eq
    exact of_idle h.freqs idle pc

theorem beat (h : s.regs.CycleOk) (c : BeatCase s t) : t.regs.CycleOk := by
  obtain ⟨_, _, _, _, regs⟩ := c.regs_eq
  exact regs ▸ h.of_frame rfl

/-- What the host may write during RUN is not part of the cycle, and the rest it may write only while RUN is not in
progress (20_memory.md R80). -/
theorem registerWrite {v : BusData} {r' : Regs} (h : r.CycleOk) (control : r.ControlOk) (w : RegisterWrite v r r') :
    r'.CycleOk := by
  cases w with
  | reset _ eq => exact eq ▸ reset
  | stop _ eq | clear eq | enable eq => exact eq ▸ h.of_frame rfl
  | issue idle eq | pwrCfg idle eq | sampleRate idle eq | minHz idle eq | maxHz idle eq | thresh idle eq
  | epsilon idle eq | args _ _ _ idle eq | blkLen idle eq =>
    have stopped := control.idle_of_not_busy idle
    subst eq
    exact of_idle h.freqs stopped (control.phase_running.2 stopped)

theorem access (h : s.regs.CycleOk) (control : s.regs.ControlOk) (c : AccessCase s t) : t.regs.CycleOk := by
  cases c with
  | response r eq | word w i v _ _ eq => exact eq ▸ h
  | register r v ok eq => exact eq ▸ h.registerWrite control (writeReg_cases ok)

theorem rstFall (h : s.regs.CycleOk) (c : Mems) : (s.rstFall c).regs.CycleOk := by
  unfold State.rstFall
  split
  · exact reset
  · exact h

end Regs.CycleOk

theorem step_keeps_cycleOk {s t : State} (control : s.regs.ControlOk) (fifo : s.regs.FifoOk)
    (window : s.regs.ScanWindowOk) (cycle : s.regs.CycleOk) (h : step s = .next t) : t.regs.CycleOk := by
  cases step_cases h with
  | enginePasses _ _ eq | producerPasses _ eq | hostPasses _ eq | rstRise _ eq => exact eq ▸ cycle
  | phase _ _ _ running eq =>
    exact Regs.CycleOk.phase (s := s.takeTurn) cycle fifo window running (runPhase_cases eq)
  | illegal _ _ _ _ _ _ eq => exact eq ▸ cycle.of_frame rfl
  | command _ _ _ idle i word eq =>
    exact Regs.CycleOk.command (s := s.takeTurn) cycle idle (control.phase_running.2 idle)
      (exec_command_cases (decodeCommand_isCommand word) eq)
  | beat _ b _ _ _ eq => exact Regs.CycleOk.beat (s := s.takeTurn.dropBeat) cycle (exec_beat_cases eq)
  | access _ _ r rest _ eq =>
    subst eq
    refine Regs.CycleOk.access ?_ ?_ (hostAccess_cases _ r)
    · exact cycle
    · exact control
  | rstFall c _ eq => exact eq ▸ Regs.CycleOk.rstFall (s := s.takeTurn) cycle c

/-! The error branch of POP. -/

/-- Inside RUN the one phase step that writes ERR_CODE is a POP with a block of the wrong length. -/
theorem PhaseCase.errCode_eq {s t : State} (c : PhaseCase s t)
    (len : s.regs.seqPc = .popA ∨ s.regs.seqPc = .popB → s.regs.blkLen.toNat = s.regs.n) :
    t.regs.errCode = s.regs.errCode := by
  cases c with
  | badLength pc bad _ => exact absurd (len pc) bad
  | transform _ _ eq | emit _ eq => simp [eq, phaseEmit]
  | exit _ _ eq | top _ _ eq | blocked _ _ _ eq | remove _ _ _ eq | populate _ _ _ eq | magnitude _ _ eq
  | downsampleS2 _ _ eq | downsampleS3 _ _ eq | fundamental _ _ eq | freqA _ eq | freqB _ eq | accept _ _ eq
  | discard _ _ eq => exact eq ▸ rfl

/-- Settles O53: `step_keeps_cycleOk`, and what the kept block length means for ERR_CODE at a POP. -/
theorem stepKeepsCycleOk : Obligations.StepKeepsCycleOk := by
  intro s t control fifo window cycle h
  refine ⟨step_keeps_cycleOk control fifo window cycle h, fun pop => ?_⟩
  have running : s.regs.running = true := by
    rw [← Bool.not_eq_false, ← control.phase_running]
    rcases pop with pc | pc <;> simp [pc]
  rcases step_of_running running h with c | ⟨_, same⟩ | reset
  · exact .inl (c.errCode_eq cycle.block)
  · exact .inl same
  · exact .inr reset

end Sys2Proof.Machine
end

section
/-! The commands over the note table (43_note.md): the equal temperament behind the table, names and their folding,
FNOTE and TDIR. -/

namespace Sys2Proof.Machine

/-! ### The note table (R240 to R242) -/

/-- The pitch of entry `i` in hundredths of a hertz, as T[i] determines it. -/
def noteHundredths (i : Nat) : Nat := (100 * (noteFreq i).toNat + 2 ^ 15) / 2 ^ 16

/-- `c` hundredths are nearest to the pitch of entry `i` when the twelfth powers of `2 c - 1` and `2 c + 1` enclose that
of twice the hundredfold pitch, which is rational since twelve semitones are an octave. -/
theorem abs_sub_pitch_lt {i c : Nat} (lower : (2 * (c : ℤ) - 1) ^ 12 * 2 ^ 21 < 88000 ^ 12 * 2 ^ i)
    (upper : 88000 ^ 12 * 2 ^ i < (2 * (c : ℤ) + 1) ^ 12 * 2 ^ 21) :
    |(c : ℝ) - 100 * (440 * 2 ^ (((i : ℝ) - 21) / 12))| < 1 / 2 := by
  have octave : ((2 : ℝ) ^ (((i : ℝ) - 21) / 12)) ^ 12 * 2 ^ 21 = 2 ^ i := by
    rw [← Real.rpow_natCast (_ ^ (_ : ℝ)), ← Real.rpow_mul two_pos.le, ← Real.rpow_natCast 2 21,
      ← Real.rpow_add two_pos, ← Real.rpow_natCast 2 i]
    congr 1
    push_cast
    ring
  have positive : (0 : ℝ) < 2 ^ (((i : ℝ) - 21) / 12) := Real.rpow_pos_of_pos two_pos _
  generalize (2 : ℝ) ^ (((i : ℝ) - 21) / 12) = ratio at octave positive ⊢
  have above : 2 * (c : ℝ) - 1 < 88000 * ratio := by
    refine lt_of_pow_lt_pow_left₀ 12 (by positivity) (lt_of_mul_lt_mul_right (a := 2 ^ 21) ?_ (by positivity))
    rw [mul_pow, mul_assoc, octave]
    exact_mod_cast lower
  have below : 88000 * ratio < 2 * (c : ℝ) + 1 := by
    refine lt_of_pow_lt_pow_left₀ 12 (by positivity) (lt_of_mul_lt_mul_right (a := 2 ^ 21) ?_ (by positivity))
    rw [mul_pow, mul_assoc, octave]
    exact_mod_cast upper
  rw [abs_lt]
  constructor <;> linarith

/-- The hundredths are the equal-tempered pitch rounded to two decimals. -/
theorem noteHundredths_near_pitch {i : Nat} (lt : i < 36) :
    |(noteHundredths i : ℝ) - 100 * (440 * 2 ^ (((i : ℝ) - 21) / 12))| < 1 / 2 := by
  have table : ∀ i < 36, (2 * (noteHundredths i : ℤ) - 1) ^ 12 * 2 ^ 21 < 88000 ^ 12 * 2 ^ i ∧
      88000 ^ 12 * 2 ^ i < (2 * (noteHundredths i : ℤ) + 1) ^ 12 * 2 ^ 21 := by decide
  obtain ⟨lower, upper⟩ := table i lt
  exact abs_sub_pitch_lt lower upper

/-- T[i] is the nearest raw frequency to its hundredths. -/
theorem noteFreq_near_hundredths {i : Nat} (lt : i < 36) :
    |(noteFreq i : ℝ) - noteHundredths i / 100 * 65536| < 1 / 2 := by
  have table : ∀ i < 36, 65536 * (noteHundredths i : ℤ) < 100 * noteFreq i + 50 ∧
      100 * noteFreq i < 65536 * (noteHundredths i : ℤ) + 50 := by decide
  obtain ⟨lower, upper⟩ := table i lt
  have lower' : 65536 * (noteHundredths i : ℝ) < 100 * noteFreq i + 50 := mod_cast lower
  have upper' : 100 * (noteFreq i : ℝ) < 65536 * noteHundredths i + 50 := mod_cast upper
  rw [abs_lt]
  constructor <;> linarith

/-! ### FNOTE (R245) -/

/-- Settles O19: the table by evaluation and the two roundings, then the refusal, and the note that the search finds. -/
theorem fnoteFindsNearestNote : Obligations.FnoteFindsNearestNote := by
  refine ⟨rfl, rfl, rfl, rfl, fun _ _ => noteFreq_lt, by decide, fun i lt => ?_, fun s => ⟨fun negative => ?_, ?_⟩⟩
  · exact ⟨noteHundredths i, noteHundredths_near_pitch lt, noteFreq_near_hundredths lt⟩
  · exact if_pos negative
  · exact fun nonneg => ⟨findNote s.regs.arg0Signed, findNote_nearest _, if_neg (not_lt.2 nonneg)⟩

/-! ### Folding a name (R243) -/

theorem foldByte_toNat (b : BitVec 8) :
    (foldByte b).toNat = if 0x61 ≤ b.toNat ∧ b.toNat ≤ 0x7A then b.toNat - 0x20 else b.toNat := by
  unfold foldByte
  split
  · exact BitVec.toNat_sub_of_le (by bv_omega)
  · rfl

theorem foldName_byte (w : BitVec 32) {k : Nat} (lt : k < 4) :
    (foldName w).extractLsb' (8 * k) 8 = foldByte (w.extractLsb' (8 * k) 8) := by
  unfold foldName
  match k with
  | 0 => exact BitVec.extractLsb'_append_eq_right
  | 1 =>
    rw [BitVec.extractLsb'_append_eq_of_le (by decide)]
    exact BitVec.extractLsb'_append_eq_right
  | 2 =>
    rw [BitVec.extractLsb'_append_eq_of_le (by decide), BitVec.extractLsb'_append_eq_of_le (by decide)]
    exact BitVec.extractLsb'_append_eq_right
  | 3 =>
    rw [BitVec.extractLsb'_append_eq_of_le (by decide), BitVec.extractLsb'_append_eq_of_le (by decide)]
    exact BitVec.extractLsb'_append_eq_left

/-- The folding byte by byte in arithmetic. -/
theorem foldName_byte_eq (w : BitVec 32) {k : Nat} (lt : k < 4) :
    (foldName w).toNat / 2 ^ (8 * k) % 2 ^ 8 =
      let b := w.toNat / 2 ^ (8 * k) % 2 ^ 8
      if 0x61 ≤ b ∧ b ≤ 0x7A then b - 0x20 else b := by
  have folded := congrArg BitVec.toNat (foldName_byte w lt)
  rwa [foldByte_toNat, BitVec.extractLsb'_toNat, BitVec.extractLsb'_toNat, Nat.shiftRight_eq_div_pow,
    Nat.shiftRight_eq_div_pow] at folded

/-- Folding neither sets nor clears the byte in 31:24. -/
theorem foldName_lt_iff (w : BitVec 32) : (foldName w).toNat < 2 ^ 24 ↔ w.toNat < 2 ^ 24 := by
  have top := foldName_byte_eq w (k := 3) (by decide)
  have := w.isLt
  have := (foldName w).isLt
  dsimp only at top
  split at top <;> omega

/-- A word with a bit in 31:24 has no table name's folding, since a name leaves those bits zero (R241). -/
theorem foldName_nameWord_ne {w : BitVec 32} (top : 2 ^ 24 ≤ w.toNat) (i : Nat) :
    foldName (nameWord i) ≠ foldName w := by
  intro same
  have name : (nameWord i).toNat < 2 ^ 24 := by
    rw [nameWord, BitVec.toNat_setWidth_of_le (by decide)]
    exact (noteName i).isLt
  rw [← foldName_lt_iff, same, foldName_lt_iff] at name
  exact absurd name (not_lt.2 top)

/-- The names differ even when the case of letters does not count. -/
theorem foldName_nameWord_inj {i j : Nat} (hi : i < 36) (hj : j < 36)
    (same : foldName (nameWord i) = foldName (nameWord j)) : i = j := by
  have table : ∀ j < 36, ∀ i < j, foldName (nameWord i) ≠ foldName (nameWord j) := by decide
  rcases Nat.lt_trichotomy i j with lt | eq | gt
  · exact absurd same (table j hj i lt)
  · exact eq
  · exact absurd same.symm (table i hi j gt)

/-! ### TDIR (R246, R247) -/

theorem noteByName_eq_none_iff {w : BitVec 32} :
    noteByName w = none ↔ ∀ i < 36, foldName (nameWord i) ≠ foldName w := by
  simp [noteByName, Config.notes]

/-- At most one entry has the name, so the search answers it wherever it stands. -/
theorem noteByName_eq_some {w : BitVec 32} {i : Nat} (lt : i < 36) (same : foldName (nameWord i) = foldName w) :
    noteByName w = some i := by
  cases found : noteByName w with
  | none => exact absurd same (noteByName_eq_none_iff.1 found i lt)
  | some j =>
    have same_j : foldName (nameWord j) = foldName w := by simpa using List.find?_some found
    have inside : j < 36 := List.mem_range.1 (List.mem_of_find?_eq_some found)
    rw [foldName_nameWord_inj inside lt (same_j.trans same.symm)]

theorem exec_tdir_of_unknown {s : State} (nonneg : 0 ≤ s.regs.arg1Signed) (unknown : noteByName s.regs.arg0 = none) :
    exec .tdir s = .next (afterError s 0x22#8) := by
  rw [exec, execTdir, if_neg (not_lt.2 nonneg), unknown]
  rfl

theorem exec_tdir_of_note {s : State} {i : Nat} (nonneg : 0 ≤ s.regs.arg1Signed)
    (note : noteByName s.regs.arg0 = some i) :
    exec .tdir s = .next
      ({ s with
        regs := { s.regs with
          res0 := BitVec.ofNat 32 (tuningDir i s.regs.arg1Signed s.regs.epsilonSigned) } } : State).finish := by
  rw [exec, execTdir, if_neg (not_lt.2 nonneg), note]

/-- Settles O20: the folding, and then the two refusals in their order and the direction against the one entry that
has the name. -/
theorem tdirClassifies : Obligations.TdirClassifies := by
  refine ⟨rfl, fun w k lt => foldName_byte_eq w lt, fun w top i _ => foldName_nameWord_ne top i, fun s => ⟨?_, ?_, ?_⟩⟩
  · exact fun negative => if_pos negative
  · exact fun nonneg unknown => exec_tdir_of_unknown nonneg (noteByName_eq_none_iff.2 unknown)
  · intro i lt nonneg same d
    rw [exec_tdir_of_note nonneg (noteByName_eq_some lt same), tuningDir, apply_ite (BitVec.ofNat 32),
      apply_ite (BitVec.ofNat 32)]
    rfl

end Sys2Proof.Machine
end

section
/-! The control registers on the host bus and the event flags (44_control.md; 60_exceptions.md R286): the writes that
are accepted at any time, the line irq, NOP, and what can make a flag 0. -/

namespace Sys2Proof.Machine

/-! ### NOP (R260) -/

theorem exec_nop (s : State) : exec .nop s = .next s.finish := rfl

/-- Settles O8: NOP is normal completion alone. -/
theorem nopOnlyEnds : Obligations.NopOnlyEnds := ⟨rfl, exec_nop⟩

/-! ### The registers that the host writes at any time (20_memory.md R80, R81) -/

theorem Regs.writeRefused_anytime (r : Regs) (v : BusData) {h : HostReg} (anytime : h.writableWhileBusy = true) :
    r.writeRefused v (.reg h) = false := by
  have three : (h = .ctrl ∨ h = .evt) ∨ h = .irqEn := by simpa [HostReg.writableWhileBusy] using anytime
  have writable : h.writable = true := by rcases three with (rfl | rfl) | rfl <;> rfl
  have notCmd : h ≠ .cmd := by rcases three with (rfl | rfl) | rfl <;> decide
  simp [Regs.writeRefused, anytime, writable, notCmd]

theorem State.hostWrite_anytime (s : State) (v : BusData) {a : Addr} {h : HostReg} (target : targetOf a = .reg h)
    (anytime : h.writableWhileBusy = true) :
    s.hostWrite a v = (s.writeReg v h).respond { err := false, rdata := none } :=
  State.hostWrite_reg target (s.regs.writeRefused_anytime v anytime)

/-! ### CTRL (R261, R262, R263) -/

theorem State.writeCtrl_of_reset (s : State) {v : BusData} (srst : v.getLsbD 1 = true) : s.writeCtrl v = s.softReset :=
  if_pos srst

theorem State.writeCtrl_of_stop (s : State) {v : BusData} (srst : v.getLsbD 1 = false) :
    s.writeCtrl v = { s with regs := { s.regs with stop := v.getLsbD 0 } } :=
  if_neg (Bool.eq_false_iff.1 srst)

/-- Settles O40: the write is accepted at any time and is `State.writeCtrl`, and bit 1 of the word read is constant. -/
theorem ctrlWriteStopsOrResets : Obligations.CtrlWriteStopsOrResets := by
  intro s v
  have write : s.hostWrite 0x01#18 v = (s.writeCtrl v).respond { err := false, rdata := none } :=
    s.hostWrite_anytime v (h := .ctrl) rfl rfl
  refine ⟨fun stop => ?_, fun srst => ?_, ?_⟩
  · rw [write, s.writeCtrl_of_stop stop]
    rfl
  · rw [write, s.writeCtrl_of_reset srst]
    rfl
  · change ((0#1 ++ BitVec.ofBool s.regs.stop).setWidth 64).getLsbD 1 = false
    cases s.regs.stop <;> rfl

/-! ### IRQ_EN and irq (R265, 60_exceptions.md R286) -/

theorem and_ne_zero_iff_commonBit {w : Nat} (x y : BitVec w) :
    x &&& y ≠ 0#w ↔ ∃ k < w, x.getLsbD k = true ∧ y.getLsbD k = true := by
  rw [ne_eq, BitVec.eq_of_getLsbD_eq_iff]
  simp

/-- Settles O41: the write is accepted at any time, and the line is up when the conjunction has a bit set. -/
theorem interruptEnableAndLine : Obligations.InterruptEnableAndLine := by
  intro s
  refine ⟨fun v => s.hostWrite_anytime v (h := .irqEn) rfl rfl, ?_⟩
  rw [State.irq, Bool.and_eq_true, Bool.not_eq_true', decide_eq_true_eq, and_ne_zero_iff_commonBit]

/-! ### What can make a flag 0 (R264) -/

/-- Flags are set from `r` to `r'` and none is cleared. -/
def Regs.OnlySetsEvents (r r' : Regs) : Prop := ∃ m, r'.evt = r.evt ||| m

namespace Regs.OnlySetsEvents
variable {s t : State} {r r' r'' : Regs}

theorem of_evt_eq (same : r'.evt = r.evt) : r.OnlySetsEvents r' := ⟨0#9, by simp [same]⟩

theorem trans (h : r.OnlySetsEvents r') (h' : r'.OnlySetsEvents r'') : r.OnlySetsEvents r'' := by
  obtain ⟨m, eq⟩ := h
  obtain ⟨m', eq'⟩ := h'
  exact ⟨m ||| m', by rw [eq', eq, BitVec.or_assoc]⟩

theorem keeps_flag (h : r.OnlySetsEvents r') {k : Nat} (flag : r.evt.getLsbD k = true) : r'.evt.getLsbD k = true := by
  obtain ⟨m, eq⟩ := h
  simp [eq, flag]

theorem transform (s : State) (inv : Bool) : s.regs.OnlySetsEvents (s.transform inv).regs := by
  rw [State.transform_regs]
  split
  · exact ⟨_, rfl⟩
  · exact of_evt_eq rfl

theorem command {i : Instr} (c : CommandCase i s t) : s.regs.OnlySetsEvents t.regs := by
  cases c with
  | blocked _ _ _ _ eq | run _ _ _ eq => exact eq ▸ of_evt_eq rfl
  | xform inv _ _ eq => exact eq ▸ (transform s inv).trans ⟨_, rfl⟩
  | cancelled _ _ _ _ eq | mag _ _ eq => exact eq ▸ ⟨_, BitVec.or_assoc ..⟩
  | error _ eq | nop _ eq | init _ _ _ _ _ eq | dinit _ _ _ eq | removed _ _ _ eq | popul _ _ _ eq
  | downsS2 _ _ _ _ eq | downsS3 _ _ _ _ eq | hps _ _ _ eq | results _ _ _ eq => exact eq ▸ ⟨_, rfl⟩

theorem beat (c : BeatCase s t) : s.regs.OnlySetsEvents t.regs := by
  cases c with
  | refused eq => exact eq ▸ of_evt_eq rfl
  | pushed d _ eq | inserted d _ _ _ eq => exact eq ▸ of_evt_eq (by simp)
  | flushedPush _ eq | flushedCommit _ eq => exact eq ▸ ⟨_, rfl⟩
  | wrongLength d _ _ eq | discarded d _ _ _ eq =>
    subst eq
    simp only [State.setWp_regs, State.lengthError_regs, State.setEvent_regs, State.stage_regs]
    exact ⟨_, rfl⟩

theorem phase (c : PhaseCase s t) : s.regs.OnlySetsEvents t.regs := by
  cases c with
  | exit _ _ eq => exact eq ▸ ⟨_, BitVec.or_assoc ..⟩
  | transform _ _ eq => exact eq ▸ (transform s false).trans (of_evt_eq rfl)
  | badLength _ _ eq | magnitude _ _ eq => exact eq ▸ ⟨_, rfl⟩
  | emit _ eq => exact eq ▸ ⟨_, phaseEmit_evt s⟩
  | top _ _ eq | blocked _ _ _ eq | remove _ _ _ eq | populate _ _ _ eq | downsampleS2 _ _ eq
  | downsampleS3 _ _ eq | fundamental _ _ eq | freqA _ eq | freqB _ eq | accept _ _ eq | discard _ _ eq =>
    exact eq ▸ of_evt_eq rfl

end Regs.OnlySetsEvents

/-- An address that names a register is the register's. -/
theorem address_of_targetOf {a : Addr} {h : HostReg} (target : targetOf a = .reg h) : a.toNat = h.address := by
  cases address_cases a with
  | register h' addr named =>
    obtain rfl : h' = h := Target.reg.inj (named.symm.trans target)
    exact addr
  | unmapped _ _ named | window _ _ _ _ named => cases named.symm.trans target

/-- The access writes a 1 to flag `k` of EVT, or is the soft reset. -/
def HostReq.ClearsEvent (k : Nat) (r : HostReq) : Prop :=
  ∃ v, (r = .write 0x03#18 v ∧ v.getLsbD k = true) ∨ (r = .write 0x01#18 v ∧ v.getLsbD 1 = true)

/-- Of the registers only CTRL and EVT reach the flags when they are written. -/
theorem State.writeReg_clearsEvent {s : State} {a : Addr} {v : BusData} {h : HostReg} {k : Nat}
    (target : targetOf a = .reg h) (after : (s.writeReg v h).regs.evt.getLsbD k = false)
    (before : s.regs.evt.getLsbD k = true) : (HostReq.write a v).ClearsEvent k := by
  have addr := address_of_targetOf target
  cases h with
  | ctrl =>
    obtain rfl : a = 0x01#18 := BitVec.eq_of_toNat_eq addr
    refine ⟨v, .inr ⟨rfl, ?_⟩⟩
    by_contra stop
    rw [State.writeReg, s.writeCtrl_of_stop (Bool.eq_false_iff.2 stop)] at after
    exact Bool.false_ne_true (after.symm.trans before)
  | evt =>
    obtain rfl : a = 0x03#18 := BitVec.eq_of_toNat_eq addr
    have inside : k < 9 := BitVec.lt_of_getLsbD before
    have cleared : v.getLsbD k = true := by simpa [State.writeReg, before, inside] using after
    exact ⟨v, .inl ⟨rfl, cleared⟩⟩
  | _ => exact absurd (after.symm.trans before) Bool.false_ne_true

theorem State.hostAccess_clearsEvent {s : State} {r : HostReq} {k : Nat}
    (after : (s.hostAccess r).regs.evt.getLsbD k = false) (before : s.regs.evt.getLsbD k = true) :
    r.ClearsEvent k := by
  have unchanged {r' : Regs} (same : r'.evt = s.regs.evt) : ¬ r'.evt.getLsbD k = false := by simp [same, before]
  cases r with
  | read a =>
    rw [State.hostAccess, State.hostRead_eq] at after
    exact absurd after (unchanged rfl)
  | write a v =>
    rw [State.hostAccess] at after
    rcases s.hostWrite_cases a v with ⟨_, eq⟩ | ⟨_, eq⟩ <;> rw [eq] at after
    · exact absurd after (unchanged rfl)
    · cases target : targetOf a with
      | reg h =>
        rw [target] at after
        exact State.writeReg_clearsEvent target after before
      | unmapped | window w i =>
        rw [target] at after
        exact absurd after (unchanged rfl)

/-- A step only sets flags, or it is a host access, or the end of a hardware reset. -/
theorem step_onlySetsEvents_or {s t : State} (h : step s = .next t) :
    s.regs.OnlySetsEvents t.regs ∨
      (∃ r rest, s.nextTurn = .host ∧ s.env.hostQ = r :: rest ∧
        t = ({ s.takeTurn with env := { s.takeTurn.env with hostQ := rest } } : State).hostAccess r) ∨
      ∃ c, s.nextTurn = .rstFall c ∧ s.env.rst = true := by
  cases step_cases h with
  | enginePasses _ _ eq | producerPasses _ eq | hostPasses _ eq | rstRise _ eq => exact .inl (eq ▸ .of_evt_eq rfl)
  | illegal _ _ _ _ _ _ eq => exact .inl (eq ▸ ⟨_, rfl⟩)
  | phase _ _ _ _ eq => exact .inl (.phase (s := s.takeTurn) (runPhase_cases eq))
  | command _ _ _ _ i word eq =>
    exact .inl (.command (s := s.takeTurn) (exec_command_cases (decodeCommand_isCommand word) eq))
  | beat _ b _ _ _ eq => exact .inl (.beat (s := s.takeTurn.dropBeat) (exec_beat_cases eq))
  | access turn _ r rest queue eq => exact .inr (.inl ⟨r, rest, turn, queue, eq⟩)
  | rstFall c turn eq =>
    cases rst : s.env.rst with
    | true => exact .inr (.inr ⟨c, turn, rfl⟩)
    | false =>
      have noEdge : t = s.takeTurn := eq.trans (if_neg (by simp [rst]))
      exact .inl (noEdge ▸ .of_evt_eq rfl)

/-- Settles O42: a step that clears a flag is no step of the engine or of the producer, and of the host's accesses only
the two that `HostReq.ClearsEvent` names do it. -/
theorem eventsAreSticky : Obligations.EventsAreSticky := by
  refine ⟨fun s v => s.hostWrite_anytime v (h := .evt) rfl rfl, fun s t k h before after => ?_⟩
  rcases step_onlySetsEvents_or h with sets | ⟨r, rest, turn, queue, rfl⟩ | reset
  · exact absurd (sets.keeps_flag before) (by simp [after])
  · obtain ⟨v, ⟨rfl, bit⟩ | ⟨rfl, bit⟩⟩ := State.hostAccess_clearsEvent after before
    · exact .inl ⟨v, rest, turn, queue, bit⟩
    · exact .inr (.inl ⟨v, rest, turn, queue, bit⟩)
  · exact .inr (.inr reset)

end Sys2Proof.Machine
end

section
/-! One step at each agent's turn, and the engine's errors (60_exceptions.md sections 2 and 3): the step runs what was
decoded, it answers a next state, and an error outside RUN is precise. -/

namespace Sys2Proof.Machine

/-! ### Whose turn it is (R281, R300) -/

theorem step_acceptedBeat {s : State} {b : BitVec 17} {rest : List (BitVec 17)} (turn : s.nextTurn = .producer)
    (beats : s.env.beats = b :: rest) (accepted : s.pReady (b.getLsbD 16) = true) :
    step s = exec (decodeBeat b) { s.atTurn with env := { s.atTurn.env with beats := rest } } := by
  have acceptedAtTurn : s.takeTurn.pReady (b.getLsbD 16) = true := accepted
  have dropped : s.takeTurn.dropBeat = { s.atTurn with env := { s.atTurn.env with beats := rest } } := by
    simp only [State.dropBeat, State.takeTurn_env, beats, List.tail_cons]
    rfl
  simp only [step, fetch, turn, fetchProducer, State.takeTurn_env, beats, acceptedAtTurn, if_true, dropped]

theorem step_noBeat {s : State} (turn : s.nextTurn = .producer) (empty : s.env.beats = []) :
    step s = .next s.atTurn := by
  simp only [step, fetch, turn, fetchProducer, State.takeTurn_env, empty]
  rfl

theorem step_idleEngine {s : State} (moves : s.engineMoves) (idle : s.regs.busy = false) :
    step s = .next s.atTurn := by
  obtain ⟨turn, rst⟩ := moves
  simp only [step, fetch, turn, rst, fetchEngine, State.takeTurn_regs, idle]
  rfl

theorem hostTurn_of_empty {s : State} (empty : s.env.hostQ = []) : hostTurn s = s := by
  simp only [hostTurn, empty, ite_self]

theorem step_noAccess {s : State} (turn : s.nextTurn = .host) (empty : s.env.hostQ = []) :
    step s = .next s.atTurn := by
  simp only [step, fetch, turn, hostTurn_of_empty (s := s.takeTurn) empty]
  rfl

/-- Settles O5, a lemma for each kind of turn. -/
theorem stepRunsDecodedInstruction : Obligations.StepRunsDecodedInstruction := fun _ =>
  ⟨fun _ => step_legalWord, fun _ _ => step_acceptedBeat, step_runPhase, step_idleEngine,
    fun _ _ => step_hostAccess, fun _ _ _ => step_hostAccess, step_noAccess, step_noBeat⟩

/-! ### Every step answers a next state -/

/-- The outcome is a next state, neither a fault nor a refusal. -/
def Continues (o : Host.Outcome State Fault Refusal) : Prop := ∃ t, o = .next t

theorem Continues.next (t : State) : Continues (.next t) := ⟨t, rfl⟩

theorem Continues.ite {c : Prop} [Decidable c] {a b : Host.Outcome State Fault Refusal} (ha : Continues a)
    (hb : Continues b) : Continues (if c then a else b) := by
  split <;> assumption

/-- Whatever a command or a beat checks, both ways end in a next state. -/
theorem exec_continues (i : Instr) (s : State) : Continues (exec i s) := by
  cases i with
  | nop | ssf => exact .next _
  | xform | mag | hps | fnote | run => exact .ite (.next _) (.next _)
  | init | dinit | popul | downsS2 | downsS3 | b2f | push => exact .ite (.next _) (.ite (.next _) (.next _))
  | remove => exact .ite (.next _) (.ite (.next _) (.ite (.next _) (.next _)))
  | commit => exact .ite (.next _) (.ite (.next _) (.ite (.next _) (.ite (.next _) (.next _))))
  | tdir =>
    refine .ite (.next _) ?_
    cases noteByName s.regs.arg0 with
    | none => exact .next _
    | some i => exact .next _

/-- Of the phases only IDLE has no action (10_state.md R31). -/
theorem runPhase_continues {s : State} (active : s.regs.seqPc ≠ .idle) : Continues (runPhase s) := by
  unfold runPhase
  split
  · exact absurd ‹_› active
  all_goals exact .next _

theorem fetchEngine_continues {s : State} (control : s.regs.ControlOk) : Continues (fetchEngine s).outcome := by
  unfold fetchEngine
  split
  · exact .next _
  · split
    · rename_i running
      exact runPhase_continues fun idle => by simp [control.phase_running.1 idle] at running
    · split
      · exact .next _
      · exact exec_continues _ _

theorem fetchProducer_continues (s : State) : Continues (fetchProducer s).outcome := by
  unfold fetchProducer
  split
  · exact .next _
  · split
    · exact exec_continues _ _
    · exact .next _

/-- Settles O54: the engine and the producer end in a next state by the lemmas above, every other turn passes into one. -/
theorem stepAlwaysContinues : Obligations.StepAlwaysContinues := by
  refine ⟨exec_continues, fun s control => ?_⟩
  change Continues (step s)
  rw [step_eq_outcome, fetch]
  split
  · split
    · exact .next _
    · exact fetchEngine_continues control
  · exact fetchProducer_continues _
  · exact .next _
  · exact .next _
  · exact .next _

/-! ### Errors outside RUN are precise (R283) -/

/-- `r'` reports the same last error as `r`: ERR_CODE, ERR_INFO and EVT.ERROR. -/
def Regs.SameError (r r' : Regs) : Prop :=
  r'.errCode = r.errCode ∧ r'.errInfo = r.errInfo ∧ r'.evt.getLsbD 1 = r.evt.getLsbD 1

theorem getLsbD_one_or_mask (evt : BitVec 9) {e : Event} (other : e ≠ .error) :
    (evt ||| e.mask).getLsbD 1 = evt.getLsbD 1 := by
  cases e <;> simp_all [Event.mask, Event.bit]

namespace Regs.SameError
variable {s t : State} {r : Regs}

theorem setFlag {r' : Regs} (h : r.SameError r') {e : Event} (other : e ≠ .error) :
    r.SameError { r' with evt := r'.evt ||| e.mask } := by
  obtain ⟨code, info, flag⟩ := h
  exact ⟨code, info, (getLsbD_one_or_mask r'.evt other).trans flag⟩

theorem finish (h : r.SameError s.regs) : r.SameError s.finish.regs := h.setFlag (e := .done) (by decide)

theorem transform (s : State) (inv : Bool) : s.regs.SameError (s.transform inv).regs := by
  rw [State.transform_regs]
  split
  · exact setFlag ⟨rfl, rfl, rfl⟩ (by decide)
  · exact ⟨rfl, rfl, rfl⟩

end Regs.SameError

/-- A command is refused by the one error entry, or it leaves the last error as it was. -/
theorem CommandCase.raises_or_sameError {i : Instr} {s t : State} (c : CommandCase i s t) :
    (∃ e, t = s.raise e) ∨ s.regs.SameError t.regs := by
  cases c with
  | error e eq => exact .inl ⟨e, eq⟩
  | blocked _ _ _ _ eq | run _ _ _ eq => exact .inr (eq ▸ ⟨rfl, rfl, rfl⟩)
  | nop _ eq | init _ _ _ _ _ eq | dinit _ _ _ eq | removed _ _ _ eq | popul _ _ _ eq | downsS2 _ _ _ _ eq
  | downsS3 _ _ _ _ eq | hps _ _ _ eq | results _ _ _ eq =>
    subst eq
    exact .inr (.finish ⟨rfl, rfl, rfl⟩)
  | xform inv _ _ eq => exact .inr (eq ▸ (Regs.SameError.transform s inv).finish)
  | cancelled _ _ _ _ eq =>
    subst eq
    exact .inr (.finish (.setFlag (e := .stopped) ⟨rfl, rfl, rfl⟩ (by decide)))
  | mag _ _ eq =>
    subst eq
    exact .inr (.finish (.setFlag (e := .spectrum) (r' := { s.regs with specSeq := s.regs.specSeq + 1#32 })
      ⟨rfl, rfl, rfl⟩ (by decide)))

/-- The engine's step outside RUN: the turn passes, an illegal word is refused, or a command is executed. -/
theorem step_raises_or_sameError {s t : State} (moves : s.engineMoves) (stopped : s.regs.running = false)
    (h : step s = .next t) : (∃ e, t = s.atTurn.raise e) ∨ s.regs.SameError t.regs := by
  obtain ⟨engine, _⟩ := moves
  cases step_cases h with
  | enginePasses _ _ eq => exact .inr (eq ▸ ⟨rfl, rfl, rfl⟩)
  | illegal _ _ _ _ _ _ eq => exact .inl ⟨.cmdIllegal, eq⟩
  | command _ _ _ _ i word eq =>
    exact (exec_command_cases (decodeCommand_isCommand word) eq).raises_or_sameError
  | phase _ _ _ running => exact absurd running (by simp [stopped])
  | producerPasses turn | beat turn | hostPasses turn | access turn | rstRise turn | rstFall _ turn =>
    cases engine.symm.trans turn

theorem ErrorCode.number_ne_zero (e : ErrorCode) : e.number ≠ 0x00#8 := by
  cases e <;> decide

/-- Settles O25: the one error entry is `afterError` with a code of R271 (`State.raise_eq_afterError`). -/
theorem engineErrorsArePrecise : Obligations.EngineErrorsArePrecise := by
  intro s t moves stopped h
  rcases step_raises_or_sameError moves stopped h with ⟨e, raised⟩ | same
  · exact .inl ⟨e.number, e.number_mem, e.number_ne_zero, raised.trans (s.atTurn.raise_eq_afterError e)⟩
  · exact .inr same

end Sys2Proof.Machine
end

section
/-! Reset and the end of commands (70_reset_and_hazards.md R310, R330): a command ends in its one step, a held STOP ends
RUN within one cycle, and what rst does at its edges and while it is high. -/

namespace Sys2Proof.Machine

/-! ### Commands end in one step (R330, R300) -/

/-- BUSY = 0 and DONE or ERROR is set: the command in flight has ended. -/
def Regs.CommandEnded (r : Regs) : Prop := r.busy = false ∧ (r.evt.getLsbD 0 = true ∨ r.evt.getLsbD 1 = true)

theorem State.finish_commandEnded (s : State) : s.finish.regs.CommandEnded :=
  ⟨rfl, .inl (by simp [Event.mask, Event.bit])⟩

theorem State.raise_commandEnded (s : State) (e : ErrorCode) : (s.raise e).regs.CommandEnded :=
  ⟨rfl, .inr (by simp [Event.mask, Event.bit])⟩

/-- Only a waiting REMOVE and the start of RUN neither end nor raise. -/
theorem CommandCase.commandEnded {i : Instr} {s t : State} (c : CommandCase i s t) (notRemove : i ≠ .remove)
    (notRun : i ≠ .run) : t.regs.CommandEnded := by
  cases c with
  | error e eq => exact eq ▸ s.raise_commandEnded e
  | blocked instr => exact absurd instr notRemove
  | run instr => exact absurd instr notRun
  | nop _ eq | init _ _ _ _ _ eq | dinit _ _ _ eq | removed _ _ _ eq | cancelled _ _ _ _ eq | popul _ _ _ eq
  | xform _ _ _ eq | mag _ _ eq | downsS2 _ _ _ _ eq | downsS3 _ _ _ _ eq | hps _ _ _ eq | results _ _ _ eq =>
    exact eq ▸ State.finish_commandEnded _

/-- Settles O44: an illegal word raises CMD_ILLEGAL, and a legal one runs a command that ends. -/
theorem commandsEndInOneStep : Obligations.CommandsEndInOneStep := by
  intro s moves busy idle notRemove notRun
  cases word : decodeCommand s.regs.cmdreg with
  | error e => exact ⟨_, step_illegalWord moves busy idle word, s.atTurn.raise_commandEnded .cmdIllegal⟩
  | ok i =>
    obtain ⟨t, executed⟩ := exec_continues i s.atTurn
    have ended := (exec_command_cases (decodeCommand_isCommand word) executed).commandEnded
      (fun remove => notRemove (remove ▸ word)) (fun run => notRun (run ▸ word))
    exact ⟨t, (step_legalWord moves busy idle word).trans executed, ended⟩

/-! ### A held STOP ends RUN (R330, section 4) -/

/-- With STOP = 1 at most this many phases, this one included, come before TOP in the order of R214. -/
def Phase.phasesToTop : Phase → Nat
  | .idle => 0
  | .top => 0
  | p => 20 - p.number.toNat

theorem Phase.phasesToTop_le (p : Phase) : p.phasesToTop ≤ 18 := by
  cases p <;> decide

/-- No phase waits and no cycle starts while STOP = 1: RUN takes its exit or comes nearer to TOP. -/
theorem PhaseCase.exits_or_nearer {s t : State} (c : PhaseCase s t) (stop : s.regs.stop = true) :
    ExitsRun s t ∨ t.regs.seqPc.phasesToTop < s.regs.seqPc.phasesToTop := by
  have nearer {q : Phase} {part : List (Phase × Phase)} (pc : (s.regs.seqPc, q) ∈ part)
      (falls : ∀ e ∈ part, e.2.phasesToTop < e.1.phasesToTop) : q.phasesToTop < s.regs.seqPc.phasesToTop := falls _ pc
  cases c with
  | exit stop at_ eq => exact .inl ⟨stop, at_, eq⟩
  | top _ go | blocked _ _ go => exact absurd stop (by simp [go])
  | badLength pc _ eq =>
    subst eq
    right
    rcases pc with pc | pc <;> simp [pc, Phase.phasesToTop, Phase.number]
  | remove q pc _ eq | populate q pc _ eq | magnitude q pc eq | downsampleS2 q pc eq | downsampleS3 q pc eq
  | fundamental q pc eq => exact .inr (eq ▸ nearer pc (by decide))
  | transform q pc eq => exact .inr (eq ▸ nearer (q := q) pc (by decide))
  | freqA pc eq | freqB pc eq | accept pc _ eq | discard pc _ eq | emit pc eq =>
    subst eq
    right
    simp [pc, Phase.phasesToTop, Phase.number]

/-- A phase leaves STOP to the host, and what comes from outside alone. -/
theorem PhaseCase.stop_env_eq {s t : State} (c : PhaseCase s t) : t.regs.stop = s.regs.stop ∧ t.env = s.env := by
  cases c with
  | transform _ _ eq | emit _ eq =>
    subst eq
    simp [phaseEmit]
  | exit _ _ eq | top _ _ eq | blocked _ _ _ eq | remove _ _ _ eq | badLength _ _ eq | populate _ _ _ eq
  | magnitude _ _ eq | downsampleS2 _ _ eq | downsampleS3 _ _ eq | fundamental _ _ eq | freqA _ eq | freqB _ eq
  | accept _ _ eq | discard _ _ eq => exact eq ▸ ⟨rfl, rfl⟩

/-- RUN is running with STOP = 1, and only the engine moves from here on. -/
structure State.StopHeld (s : State) : Prop where
  turns : s.env.turns = []
  rst : s.env.rst = false
  control : s.regs.ControlOk
  running : s.regs.running = true
  stop : s.regs.stop = true

/-- What R222 leaves: the engine is idle, DONE and STOPPED are set. -/
def State.RunStopped (t : State) : Prop :=
  t.regs.running = false ∧ t.regs.busy = false ∧ t.regs.seqPc = .idle ∧ t.regs.evt.getLsbD 0 = true ∧
    t.regs.evt.getLsbD 3 = true

theorem State.exitRun_runStopped (s : State) : s.exitRun.RunStopped := by
  simp [State.RunStopped, State.exitRun_eq]

theorem State.StopHeld.engineMoves {s : State} (held : s.StopHeld) : s.engineMoves :=
  ⟨by rw [State.nextTurn, held.turns]; rfl, held.rst⟩

/-- One engine step under a held STOP ends RUN, or STOP stays held at a phase nearer to TOP. -/
theorem State.StopHeld.exists_step {s : State} (held : s.StopHeld) :
    ∃ t, step s = .next t ∧
      (t.RunStopped ∨ (t.StopHeld ∧ t.regs.seqPc.phasesToTop < s.regs.seqPc.phasesToTop)) := by
  have engine := step_runPhase held.engineMoves (held.control.running_busy held.running) held.running
  obtain ⟨t, next⟩ := stepAlwaysContinues.2 s held.control
  have c : PhaseCase s.atTurn t := runPhase_cases (engine.symm.trans next)
  have control := stepKeepsControlOk s t held.control next
  refine ⟨t, next, ?_⟩
  rcases c.exits_or_nearer held.stop with exits | nearer
  · exact .inl (exits.eq ▸ State.exitRun_runStopped _)
  · by_cases idle : t.regs.seqPc = .idle
    · exact .inl ((c.exits_of_idle idle).eq ▸ State.exitRun_runStopped _)
    · obtain ⟨stop, env⟩ := c.stop_env_eq
      refine .inr ⟨⟨?_, ?_, control, ?_, stop.trans held.stop⟩, nearer⟩
      · rw [env]
        exact congrArg List.tail held.turns
      · exact (congrArg Env.rst env).trans held.rst
      · exact eq_true_of_ne_false fun stopped => idle (control.phase_running.2 stopped)

theorem run_succ_of_step {M : Host.Core} {s t : M.State} (k : Nat) (next : M.step s = .next t) :
    M.run (k + 1) s = M.run k t := by
  rw [Host.Core.run, next]

/-- A held STOP ends RUN, at TOP if at no phase before it. -/
theorem State.StopHeld.ends_run {s : State} (held : s.StopHeld) :
    ∃ k ≤ s.regs.seqPc.phasesToTop + 1, ∃ t, Host.Core.run Sys2Proof.core k s = .next t ∧ State.RunStopped t := by
  obtain ⟨t, next, ended | ⟨still, nearer⟩⟩ := held.exists_step
  · exact ⟨1, by omega, t, run_succ_of_step (M := Sys2Proof.core) 0 next, ended⟩
  · obtain ⟨k, le, u, reached, ended⟩ := still.ends_run
    exact ⟨k + 1, by omega, u, (run_succ_of_step (M := Sys2Proof.core) k next).trans reached, ended⟩
termination_by s.regs.seqPc.phasesToTop

/-- Settles O45: at most 18 phases come before TOP. -/
theorem heldStopEndsRun : Obligations.HeldStopEndsRun := by
  intro s turns rst control running stop
  obtain ⟨k, le, t, reached, ended⟩ := State.StopHeld.ends_run ⟨turns, rst, control, running, stop⟩
  have near := s.regs.seqPc.phasesToTop_le
  exact ⟨k, by omega, t, reached, ended⟩

/-! ### The hardware reset (R310, R60, R61) -/

theorem step_rstFall {s : State} {c : Mems} (turn : s.nextTurn = .rstFall c) :
    step s = .next (s.takeTurn.rstFall c) := by
  simp only [step, fetch, turn]

theorem step_rstRise {s : State} (turn : s.nextTurn = .rstRise) : step s = .next s.takeTurn.rstRise := by
  simp only [step, fetch, turn]

theorem State.pReady_of_rst {s : State} (high : s.env.rst = true) (last : Bool) : s.pReady last = false := by
  simp [State.pReady, high]

theorem State.hReady_of_rst {s : State} (high : s.env.rst = true) : s.hReady = false := by
  simp [State.hReady, high]

theorem State.irq_of_rst {s : State} (high : s.env.rst = true) : s.irq = false := by
  simp [State.irq, high]

/-- While rst = 1 an agent's turn passes with nothing changed. -/
theorem step_agent_of_rst {s : State} (high : s.env.rst = true)
    (agent : s.nextTurn = .host ∨ s.nextTurn = .producer ∨ s.nextTurn = .engine) : step s = .next s.atTurn := by
  rcases agent with turn | turn | turn
  · have notReady : s.takeTurn.hReady = false := State.hReady_of_rst high
    simp only [step, fetch, turn, hostTurn, notReady]
    rfl
  · cases beats : s.env.beats with
    | nil => exact step_noBeat turn beats
    | cons b rest => exact step_refusedBeat turn beats (State.pReady_of_rst high _)
  · simp only [step, fetch, turn, high, if_true]
    rfl

/-- Settles O46: the falling edge, a turn while rst = 1, and the rising edge. -/
theorem hardwareReset : Obligations.HardwareReset := by
  refine ⟨fun s c turn high => ?_, fun s high agent => ?_, fun s turn => ?_⟩
  · refine ⟨_, step_rstFall turn, ?_⟩
    have before : s.takeTurn.env.rst = true := high
    rw [State.rstFall_of_rst before]
    exact ⟨rfl, by simp [State.irq, Regs.reset], rfl, rfl⟩
  · exact ⟨step_agent_of_rst high agent, State.irq_of_rst high, State.hReady_of_rst high, State.pReady_of_rst high⟩
  · exact ⟨_, step_rstRise turn, rfl, rfl⟩

end Sys2Proof.Machine
end

section
/-! Each legal word is the encoding of the instruction it decodes to (30_encoding.md sections 2 to 4): a word is its
fields side by side, and a decoder that accepts has found the fields its encoder writes. -/

namespace Sys2Proof

/-! ### A word is its fields -/

theorem ofBool_getLsbD_eq_extractLsb' {w : Nat} (x : BitVec w) (k : Nat) :
    BitVec.ofBool (x.getLsbD k) = x.extractLsb' k 1 := by
  refine BitVec.eq_of_getLsbD_eq fun i lt => ?_
  obtain rfl : i = 0 := by omega
  simp

/-- The high and the low field of a word make up the word. -/
theorem extractLsb'_append_low {n k : Nat} (x : BitVec (n + k)) : x.extractLsb' k n ++ x.extractLsb' 0 k = x :=
  (BitVec.extractLsb'_append_extractLsb'_eq_extractLsb' (Nat.zero_add k).symm).trans BitVec.extractLsb'_eq_self

theorem encodeZ_fields {w : CommandWord} (zero : zeroFieldZ w = 0#24) : encodeZ (opField w) = .command w := by
  have whole : opField w ++ zeroFieldZ w = w := extractLsb'_append_low (n := 8) (k := 24) w
  rw [encodeZ, ← zero, whole]

theorem encodeX_fields {w : CommandWord} (zero : zeroFieldX w = 0#23) :
    encodeX (opField w) (invField w) = .command w := by
  have high : opField w ++ zeroFieldX w = w.extractLsb' 1 31 :=
    BitVec.extractLsb'_append_extractLsb'_eq_extractLsb' rfl
  have whole : w.extractLsb' 1 31 ++ w.extractLsb' 0 1 = w := extractLsb'_append_low (n := 31) (k := 1) w
  rw [encodeX, ← zero, high, invField, ofBool_getLsbD_eq_extractLsb', whole]

theorem encodeD_fields (w : CommandWord) :
    encodeD (opField w) (dstField w) (factorField w).toInt = .command w := by
  have high : opField w ++ dstField w = w.extractLsb' 16 16 :=
    BitVec.extractLsb'_append_extractLsb'_eq_extractLsb' rfl
  have whole : w.extractLsb' 16 16 ++ factorField w = w := extractLsb'_append_low (n := 16) (k := 16) w
  rw [encodeD, BitVec.ofInt_toInt, high, whole]

theorem encodeP_fields (b : BitVec 17) :
    encodeP (b.getLsbD 16) (b.extractLsb' 0 16).toInt = .beat b := by
  have whole : b.extractLsb' 16 1 ++ b.extractLsb' 0 16 = b := extractLsb'_append_low (n := 1) (k := 16) b
  rw [encodeP, BitVec.ofInt_toInt, ofBool_getLsbD_eq_extractLsb', whole]

/-- A 16-bit field holds an immediate in range (R104, R110). -/
theorem inS16_toInt (x : BitVec 16) : inS16 x.toInt = true := by
  have low := x.le_toInt
  have high := x.toInt_lt
  simp only [inS16, Bool.and_eq_true, decide_eq_true_eq]
  omega

/-! ### What a decoder accepts is the encoder's word -/

/-- `e` is the word of the well-formed instruction `i`. -/
def Instr.Encodes (i : Instr) (e : Encoding) : Prop := i.wellFormed = true ∧ encode i = e

/-- `row` is R105's row of `i`: its opcode, and a format without operands. -/
theorem encodes_of_decodeZ {i j : Instr} {w : CommandWord} {n : Nat} (accepted : decodeZ i w = .ok j)
    (op : (opField w).toNat = n) (row : encode i = encodeZ (BitVec.ofNat 8 n)) (wf : i.wellFormed = true) :
    j.Encodes (.command w) := by
  obtain ⟨rfl, zero⟩ := decodeZ_ok accepted
  exact ⟨wf, by rw [row, ← op, BitVec.ofNat_toNat, BitVec.setWidth_eq, encodeZ_fields zero]⟩

theorem encodes_of_decodeX {j : Instr} {w : CommandWord} (op : opField w = 0x12#8)
    (accepted : decodeX w = .ok j) : j.Encodes (.command w) := by
  obtain ⟨rfl, zero⟩ := decodeX_ok accepted
  exact ⟨rfl, by rw [encode, ← op, encodeX_fields zero]⟩

theorem encodes_of_decodeD {j : Instr} {w : CommandWord} (op : opField w = 0x14#8)
    (accepted : decodeD w = .ok j) : j.Encodes (.command w) := by
  rcases decodeD_ok accepted with ⟨rfl, dst⟩ | ⟨rfl, dst⟩ <;>
    exact ⟨inS16_toInt _, by rw [encode, ← op, ← dst, encodeD_fields]⟩

/-- Row by row of the opcode map (R105): the format's decoder accepts only what the row's encoder writes. -/
theorem encodes_of_decodeCommand {i : Instr} {w : CommandWord} (accepted : decodeCommand w = .ok i) :
    i.Encodes (.command w) := by
  unfold decodeCommand at accepted
  split at accepted
  case h_6 op => exact encodes_of_decodeX (BitVec.eq_of_toNat_eq op) accepted
  case h_8 op => exact encodes_of_decodeD (BitVec.eq_of_toNat_eq op) accepted
  case h_15 => cases accepted
  all_goals
    rename_i op
    exact encodes_of_decodeZ accepted op rfl rfl

theorem encodes_decodeBeat (b : BitVec 17) : (decodeBeat b).Encodes (.beat b) := by
  rw [decodeBeat_eq]
  split
  case isTrue last => exact ⟨inS16_toInt _, by rw [encode, ← last, encodeP_fields]⟩
  case isFalse notLast =>
    exact ⟨inS16_toInt _, by rw [encode, ← Bool.eq_false_iff.2 notLast, encodeP_fields]⟩

/-- Settles O2: a legal command word by its row of the opcode map, and every beat. -/
theorem encodeDecodeRoundTrip : Obligations.EncodeDecodeRoundTrip := by
  intro e i decoded
  cases e with
  | command w => exact encodes_of_decodeCommand decoded
  | beat b => exact Except.ok.inj decoded ▸ encodes_decodeBeat b

end Sys2Proof
end

section
/-! The registers that only the host writes (10_state.md sections 2, 3 and 7): no command, beat or phase touches
them. -/

namespace Sys2Proof.Machine

/-- CTRL.STOP, IRQ_EN, CMDREG, the configuration registers and ARG0 to ARG2. -/
def Regs.hostOwned (r : Regs) :
    Bool × BitVec 9 × CommandWord × BitVec 8 × Rate × Freq × Freq × Freq × Freq ×
      BitVec 32 × BitVec 32 × BitVec 32 :=
  (r.stop, r.irqEn, r.cmdreg, r.pwrCfg, r.sampleRate, r.minHz, r.maxHz, r.thresh, r.epsilon, r.arg0, r.arg1, r.arg2)

theorem State.transform_hostOwned (s : State) (inv : Bool) :
    (s.transform inv).regs.hostOwned = s.regs.hostOwned := by
  rw [State.transform_regs]
  rfl

theorem State.stage_hostOwned (s : State) (d : Int) : (s.stage d).regs.hostOwned = s.regs.hostOwned := by
  rw [State.stage_regs]

theorem CommandCase.hostOwned_eq {i : Instr} {s t : State} (c : CommandCase i s t) :
    t.regs.hostOwned = s.regs.hostOwned := by
  cases c with
  | xform inv _ _ eq => exact eq ▸ s.transform_hostOwned inv
  | error _ eq | nop _ eq | init _ _ _ _ _ eq | dinit _ _ _ eq | removed _ _ _ eq | cancelled _ _ _ _ eq
  | blocked _ _ _ _ eq | popul _ _ _ eq | mag _ _ eq | downsS2 _ _ _ _ eq | downsS3 _ _ _ _ eq | hps _ _ _ eq
  | results _ _ _ eq | run _ _ _ eq => exact eq ▸ rfl

theorem BeatCase.hostOwned_eq {s t : State} (c : BeatCase s t) : t.regs.hostOwned = s.regs.hostOwned := by
  cases c with
  | refused eq | flushedPush _ eq | flushedCommit _ eq => exact eq ▸ rfl
  | pushed d _ eq | wrongLength d _ _ eq | discarded d _ _ _ eq | inserted d _ _ _ eq =>
    exact eq ▸ s.stage_hostOwned d

theorem PhaseCase.hostOwned_eq {s t : State} (c : PhaseCase s t) : t.regs.hostOwned = s.regs.hostOwned := by
  cases c with
  | transform _ _ eq => exact eq ▸ s.transform_hostOwned false
  | emit _ eq => simp [eq, phaseEmit, Regs.hostOwned]
  | exit _ _ eq | top _ _ eq | blocked _ _ _ eq | remove _ _ _ eq | badLength _ _ eq | populate _ _ _ eq
  | magnitude _ _ eq | downsampleS2 _ _ eq | downsampleS3 _ _ eq | fundamental _ _ eq | freqA _ eq | freqB _ eq
  | accept _ _ eq | discard _ _ eq => exact eq ▸ rfl

/-- Only the host and the edges of rst write these registers. Taking the turn and dropping the beat do not touch a
register. -/
theorem step_hostOwned_eq {s t : State} (agent : s.nextTurn = .engine ∨ s.nextTurn = .producer)
    (h : step s = .next t) : t.regs.hostOwned = s.regs.hostOwned := by
  cases step_cases h with
  | enginePasses _ _ eq | producerPasses _ eq | illegal _ _ _ _ _ _ eq => exact eq ▸ rfl
  | phase _ _ _ _ eq => exact (runPhase_cases eq).hostOwned_eq
  | command _ _ _ _ i word eq => exact (exec_command_cases (decodeCommand_isCommand word) eq).hostOwned_eq
  | beat _ b _ _ _ eq => exact (exec_beat_cases eq).hostOwned_eq
  | hostPasses turn | access turn | rstRise turn | rstFall _ turn =>
    rcases agent with agent | agent <;> cases agent.symm.trans turn

/-- Settles O43: the registers are the components of `Regs.hostOwned`. -/
theorem engineLeavesHostRegisters : Obligations.EngineLeavesHostRegisters := by
  intro s t agent h
  simpa only [Regs.hostOwned, Prod.mk.injEq] using step_hostOwned_eq agent h

end Sys2Proof.Machine
end
